-- ==== Sys2Proof/Word.lean ====
section
/-!
DEFINITION. Words and bytes (spec/00_scope.md R10, R12): every register is 32 bits wide, memory is made of bytes,
bit 0 is the least significant bit and every value is unsigned.
-/
namespace Sys2Proof

/-- A 32-bit register value or byte address (R10, R12). -/
abbrev Word := BitVec 32

/-- The addressable unit of system memory (20_memory.md R62). -/
abbrev Byte := BitVec 8

end Sys2Proof
end

