-- ==== Sys2Proof/Syntax.lean ====
section
/-!
DEFINITION. What a requester's program is made of (spec/30_encoding.md): channels, registers, triggers, the control
word as a record (R85), and one constructor of `Instr` for every row of spec/opcode_table.json.
-/
namespace Sys2Proof

/-- A channel, 0..3; channel 0 has the highest priority (R7). -/
abbrev ChanId := Fin 4

/-- The four registers of a channel, in the order of the register index `op[1:0]` (R80). -/
inductive Reg where
  | sad | dad | cnt | fill
  deriving DecidableEq, Repr

/-- The start triggers that are events, codes 1..7 (R29, R81, R95). -/
inductive Trigger where
  | vblank | hblank | dispsync | mainmem | gamecard | accessory | gxfifo
  deriving DecidableEq, Repr, Inhabited

/-- The eight values of the control word's TIMING field (R29, R85). -/
inductive Timing where
  | immediate
  | on (t : Trigger)
  deriving DecidableEq, Repr

/-- The transfer width: 2 or 4 bytes, no other (R9). -/
inductive Width where
  | half | word
  deriving DecidableEq, Repr

/-- The three source address modes (R85); code 3 of the 2-bit field is reserved (R30). -/
inductive SrcMode where
  | increment | decrement | fixed
  deriving DecidableEq, Repr

/-- The four destination address modes (R85). -/
inductive DstMode where
  | increment | decrement | fixed | incrementReload
  deriving DecidableEq, Repr

/-- The control word as a record (R85). Its length is a 21-bit number, so no record has a length out of range
(R31, R86). -/
structure ControlWord where
  enabled : Bool
  interruptRequest : Bool
  repeats : Bool
  startTrigger : Timing
  transferWidth : Width
  sourceMode : SrcMode
  destinationMode : DstMode
  length : BitVec 21
  deriving DecidableEq, Repr

/-- A requester-local name, bound by `-> x` (R95, R99). DESIGN CHOICE, safe (log 29): the names of a program are
numbered, for the spec does not say how they are spelt. -/
abbrev LocalName := Nat

/-- What a `TransferRequest` moves (R156). -/
inductive TransferKind where
  | copy | fill
  deriving DecidableEq, Repr

/-- The request of `ISSUE` (R156). Length and width are what the caller gave; the issuer checks them (R157). -/
structure Request where
  kind : TransferKind
  srcOrValue : Word
  dst : Word
  len : Nat
  width : Nat
  srcMode : SrcMode
  dstMode : DstMode
  deriving DecidableEq, Repr

/-- One constructor per row of spec/opcode_table.json. The name that `-> x` or `-> b` binds (R95, R98) is no operand of
the transaction (R82), but a part of the statement that makes it: see `Statement`. -/
inductive Instr where
  /-- `RD n.SAD -> x` (R105) -/
  | rdSad (n : ChanId)
  /-- `RD n.DAD -> x` (R106) -/
  | rdDad (n : ChanId)
  /-- `RD n.CNT -> x` (R107) -/
  | rdCnt (n : ChanId)
  /-- `RD n.FILL -> x` (R108) -/
  | rdFill (n : ChanId)
  /-- `WR n.SAD, d` (R109) -/
  | wrSad (n : ChanId) (d : Word)
  /-- `WR n.DAD, d` (R109) -/
  | wrDad (n : ChanId) (d : Word)
  /-- `WR n.CNT, d` (R110) -/
  | wrCnt (n : ChanId) (d : Word)
  /-- `WR n.FILL, d` (R111) -/
  | wrFill (n : ChanId) (d : Word)
  /-- `TRIG 1` (R112) -/
  | trigVblank
  /-- `TRIG 2` (R112) -/
  | trigHblank
  /-- `TRIG 3` (R112) -/
  | trigDispsync
  /-- `TRIG 4` (R112) -/
  | trigMainmem
  /-- `TRIG 5` (R112) -/
  | trigGamecard
  /-- `TRIG 6` (R112) -/
  | trigAccessory
  /-- `TRIG 7` (R112) -/
  | trigGxfifo
  /-- `TICK` (R113) -/
  | tick
  /-- `IS_BUSY n -> b` (R150) -/
  | isBusy (n : ChanId)
  /-- `SETTLE_DELAY` (R151) -/
  | settleDelay
  /-- `WAIT_POLL n` (R152) -/
  | waitPoll (n : ChanId)
  /-- `WAIT_IRQ n` (R153) -/
  | waitIrq (n : ChanId)
  /-- `WAIT_FOR n` (R154) -/
  | waitFor (n : ChanId)
  /-- `ISSUE n, req` (R156) -/
  | issue (n : ChanId) (req : Request)
  /-- `ISSUE_COPY n, src, dst, len, w` (R159) -/
  | issueCopy (n : ChanId) (src dst : Word) (len w : Nat)
  /-- `ISSUE_FILL n, value, dst, len, w` (R161) -/
  | issueFill (n : ChanId) (value dst : Word) (len w : Nat)
  /-- `COPY src, dst, nsrc, ndst, esize` (R163) -/
  | copy (src dst : Word) (nsrc ndst esize : Nat)
  /-- `FILL value, dst, ndst, esize` (R166) -/
  | fill (value dst : Word) (ndst esize : Nat)
  /-- `CANCEL n` (R168) -/
  | cancel (n : ChanId)
  /-- `HALT` (R99) -/
  | halt
  /-- `IRQ_ENABLE n` (R187) -/
  | irqEnable (n : ChanId)
  /-- `IRQ_DISABLE n` (R187) -/
  | irqDisable (n : ChanId)
  /-- `WAIT_INT n, next` (R188) -/
  | waitInt (n : ChanId) (next : Bool)
  /-- `VBLANK_WAIT` (R189) -/
  | vblankWait
  /-- `FLUSH_RANGE a, len` (R190) -/
  | flushRange (a : Word) (len : Nat)
  /-- `INVALIDATE_RANGE a, len` (R190) -/
  | invalidateRange (a : Word) (len : Nat)
  deriving DecidableEq, Repr

/-- An access through the optional byte-address front end (R83): a read, or a write of `wdata`, of `size` bytes at
`addr`. -/
structure BusAccess where
  addr : Word
  size : Nat
  wdata : Option Word
  deriving DecidableEq, Repr

/-- A statement of the requester's program (R99): a transaction or event by its code (R97), any instruction by its name
(R95, R98, R101), or an access through the byte-address front end (R83); each with the requester-local name that its
`-> x` binds, where it has one (R95, R98). -/
inductive Statement where
  | code (bytes : List Byte) (x : Option LocalName)
  | call (i : Instr) (x : Option LocalName)
  | bus (acc : BusAccess) (x : Option LocalName)
  deriving DecidableEq, Repr

/-- Why a statement spells no instruction. -/
inductive DecodeError where
  /-- No byte at all. -/
  | empty
  /-- The first byte is above 0x3F: the opcode has six bits (R80). -/
  | notAnOpcode (b : Byte)
  /-- A reserved transaction code (R92). -/
  | reserved (op : BitVec 6)
  /-- A write without its four operand bytes (R94). -/
  | missingOperand (op : BitVec 6)
  /-- Bytes after the one fixed-size unit of a transaction (R94). -/
  | trailingBytes
  /-- A name to bind where the instruction returns no value (R82, R95, R98). -/
  | nothingToBind (x : LocalName)
  /-- A front-end access to a block register of a wrong width or alignment (R54, R83). -/
  | refusedAccess (a : Word) (size : Nat)
  /-- A front-end access to an address that is not the block's (R83). -/
  | notTheBlocks (a : Word)
  deriving DecidableEq, Repr

end Sys2Proof
end

