-- ==== Sys2Proof/Config.lean ====
section
/-!
DEFINITION. The parameters of spec/00_scope.md R11 as plain data (log 6), and the free values: constants without a
body, so that nothing can be proved of a value the spec leaves open.
-/
namespace Sys2Proof

/-- `SETTLE_SCOPE` (R11, R114). -/
inductive SettleScope where
  | sameChannel | allChannels
  deriving DecidableEq, Repr

/-- `ZERO_COUNT` (R11, R138). -/
inductive ZeroCount where
  | fault | full | empty
  deriving DecidableEq, Repr

/-- `REPEAT_IMMEDIATE` (R11, R137). -/
inductive RepeatImmediate where
  | fault | oneShot
  deriving DecidableEq, Repr

/-- `WAIT_STRATEGY` (R11, R154). -/
inductive WaitStrategy where
  | poll | irq
  deriving DecidableEq, Repr

/-- `UNITS_PER_TRIGGER(t)` (R11, R127): all units of the block, or at most `k`. -/
inductive Units where
  | all
  | atMost (k : Nat)
  deriving DecidableEq, Repr

/-- One value for each of the seven trigger events. -/
structure PerTrigger (α : Type) where
  vblank : α
  hblank : α
  dispsync : α
  mainmem : α
  gamecard : α
  accessory : α
  gxfifo : α
  deriving DecidableEq, Repr

/-- One value for each of the four channels. -/
structure PerChannel (α : Type) where
  c0 : α
  c1 : α
  c2 : α
  c3 : α
  deriving DecidableEq, Repr

/-- The byte addresses of one channel's registers (R60). -/
structure RegAddrs where
  sad : Word
  dad : Word
  cnt : Word
  fill : Word
  deriving DecidableEq, Repr

/-- A range of addresses that `MEM_ADMIT` admits (R61): the accesses of an admitted width that lie inside
`lo ≤ a < hi`. Every predicate on address and width is a list of these. -/
structure Region where
  lo : Nat
  hi : Nat
  halfOk : Bool
  wordOk : Bool
  deriving DecidableEq, Repr

/-- The named parameters of R11 (R43: no step changes any of them). -/
structure Params where
  settleCycles : Nat
  settleScope : SettleScope
  addrMap : PerChannel RegAddrs
  addrMask : Word
  memAdmit : List Region
  zeroCount : ZeroCount
  unitsPerTrigger : PerTrigger Units
  repeatImmediate : RepeatImmediate
  waitStrategy : WaitStrategy
  /-- `IRQ_LINE(n)`: no rule of the model depends on the number (R186). -/
  irqLine : PerChannel Nat
  deriving DecidableEq, Repr

/-- The agents of R17: the requester, the DMA engine, and the environment, which delivers a trigger event. -/
inductive Agent where
  | requester
  | engine
  | environment (t : Trigger)
  deriving DecidableEq, Repr, Inhabited

/-- `draw32()`: the free value number `k` (R16, R105-R107; log 4). -/
opaque Config.freeWord (k : Nat) : Word

/-- A free bit: the draw of R141 (log 4). -/
opaque Config.freeBit (k : Nat) : Bool

/-- Which agent moves when State lists no turn: any agent may (R17; log 3). -/
opaque Config.freeAgent (k : Nat) : Agent

/-- What the byte at an address holds before anything is written there (R14: the memory oracle; log 5). -/
opaque Config.powerOnByte (a : Nat) : Byte

end Sys2Proof
end

