-- ==== Sys2Proof/Decode.lean ====
section
/-!
DEFINITION. The decoder and the encoder: transaction codes (spec/30_encoding.md R80, R81, R90-R94), the control word
(10_state.md R29; 30_encoding.md R85, R87), the byte-address front end (R83), and the statements of a program (R97-R101).
-/
namespace Sys2Proof

/-! ### Indexing by channel, register and trigger -/

def PerChannel.get {α : Type} (v : PerChannel α) (n : ChanId) : α :=
  match n with
  | 0 => v.c0
  | 1 => v.c1
  | 2 => v.c2
  | 3 => v.c3

def PerChannel.set {α : Type} (v : PerChannel α) (n : ChanId) (x : α) : PerChannel α :=
  match n with
  | 0 => { v with c0 := x }
  | 1 => { v with c1 := x }
  | 2 => { v with c2 := x }
  | 3 => { v with c3 := x }

def PerTrigger.get {α : Type} (v : PerTrigger α) : Trigger → α
  | .vblank => v.vblank
  | .hblank => v.hblank
  | .dispsync => v.dispsync
  | .mainmem => v.mainmem
  | .gamecard => v.gamecard
  | .accessory => v.accessory
  | .gxfifo => v.gxfifo

def RegAddrs.get (r : RegAddrs) : Reg → Word
  | .sad => r.sad
  | .dad => r.dad
  | .cnt => r.cnt
  | .fill => r.fill

/-- `ADDR_MAP(n, r)` (R60). -/
def Params.regAddr (p : Params) (n : ChanId) (r : Reg) : Word := (p.addrMap.get n).get r

/-- The channels in priority order (R7, R131). -/
def allChannels : List ChanId := [0, 1, 2, 3]

/-- The sixteen registers (R23). -/
def allRegisters : List (ChanId × Reg) :=
  allChannels.flatMap fun n => [(n, .sad), (n, .dad), (n, .cnt), (n, .fill)]

/-! ### Transaction codes (R80, R81) -/

/-- The register index `op[1:0]` (R80). -/
def Reg.code : Reg → BitVec 2
  | .sad => 0
  | .dad => 1
  | .cnt => 2
  | .fill => 3

/-- The register of an index (R80). -/
def Reg.ofCode (c : BitVec 2) : Reg :=
  if c = 0 then .sad else if c = 1 then .dad else if c = 2 then .cnt else .fill

/-- The code of a trigger event, 1..7 (R29, R81). -/
def Trigger.code : Trigger → BitVec 3
  | .vblank => 1
  | .hblank => 2
  | .dispsync => 3
  | .mainmem => 4
  | .gamecard => 5
  | .accessory => 6
  | .gxfifo => 7

/-- The value of the TIMING field with a code (R29). -/
def Timing.ofCode (c : BitVec 3) : Timing :=
  if c = 0 then .immediate else if c = 1 then .on .vblank else if c = 2 then .on .hblank
  else if c = 3 then .on .dispsync else if c = 4 then .on .mainmem else if c = 5 then .on .gamecard
  else if c = 6 then .on .accessory else .on .gxfifo

/-- The code of a value of the TIMING field (R29, R85). -/
def Timing.code : Timing → BitVec 3
  | .immediate => 0
  | .on t => t.code

/-- The opcode of a register transaction: class 0, `W`, `ch`, `reg` (R80). -/
def regOp (write : Bool) (n : ChanId) (r : Reg) : BitVec 6 :=
  0#1 ++ BitVec.ofBool write ++ BitVec.ofFin (w := 2) n ++ r.code

/-- The opcode of `TRIG t`: `1 0 0 t2 t1 t0` (R81). -/
def trigOp (t : Trigger) : BitVec 6 := 0b100#3 ++ t.code

/-- The opcode of `TICK` (R81). -/
def tickOp : BitVec 6 := 0x28

/-- The instruction that delivers a trigger (R112). -/
def Trigger.instr : Trigger → Instr
  | .vblank => .trigVblank
  | .hblank => .trigHblank
  | .dispsync => .trigDispsync
  | .mainmem => .trigMainmem
  | .gamecard => .trigGamecard
  | .accessory => .trigAccessory
  | .gxfifo => .trigGxfifo

/-- The read transaction of a register (R105-R108). -/
def readInstr (n : ChanId) : Reg → Instr
  | .sad => .rdSad n
  | .dad => .rdDad n
  | .cnt => .rdCnt n
  | .fill => .rdFill n

/-- The write transaction of a register (R109-R111). -/
def writeInstr (n : ChanId) (r : Reg) (d : Word) : Instr :=
  match r with
  | .sad => .wrSad n d
  | .dad => .wrDad n d
  | .cnt => .wrCnt n d
  | .fill => .wrFill n d

/-- What an opcode says, before its operand is read (R90). -/
inductive OpClass where
  | read (n : ChanId) (r : Reg)
  | write (n : ChanId) (r : Reg)
  | trig (t : Trigger)
  | tick
  | reserved
  deriving DecidableEq, Repr

/-- The decoding order of R91: test `op[5]`; then `W`, `ch` and `reg`, or TICK, TRIG, reserved. -/
def classify (op : BitVec 6) : OpClass :=
  if op.getLsbD 5 = false then
    let n : ChanId := (op.extractLsb' 2 2).toFin
    let r := Reg.ofCode (op.extractLsb' 0 2)
    if op.getLsbD 4 then .write n r else .read n r
  else if op = tickOp then .tick
  else if 0x21#6 ≤ op ∧ op ≤ 0x27#6 then
    match Timing.ofCode (op.extractLsb' 0 3) with
    | .on t => .trig t
    | .immediate => .reserved
  else .reserved

/-- The 32-bit operand of four bytes, least significant first (R53, R82; the byte order of an operand is log 8). -/
def wordOfBytes (b0 b1 b2 b3 : Byte) : Word := b3 ++ b2 ++ b1 ++ b0

/-- Byte `k` of a word, 0 the least significant. -/
def byteOf (w : Word) (k : Nat) : Byte := w.extractLsb' (8 * k) 8

/-- One transaction from the front of a byte string, with the rest of it (R94). -/
def decodeBytes : List Byte → Except DecodeError (Instr × List Byte)
  | [] => .error .empty
  | b :: rest =>
    if b.extractLsb' 6 2 ≠ 0#2 then .error (.notAnOpcode b)
    else
      let op := b.extractLsb' 0 6
      match classify op with
      | .read n r => .ok (readInstr n r, rest)
      | .write n r =>
        match rest with
        | b0 :: b1 :: b2 :: b3 :: rest' => .ok (writeInstr n r (wordOfBytes b0 b1 b2 b3), rest')
        | _ => .error (.missingOperand op)
      | .trig t => .ok (t.instr, rest)
      | .tick => .ok (.tick, rest)
      | .reserved => .error (.reserved op)

/-- `ADDR_MAP(n, r)` is the base of a 4-byte range; does `a` fall in it (R63)? -/
def inRange (base a : Word) : Bool :=
  decide (base.toNat ≤ a.toNat) && decide (a.toNat < base.toNat + 4)

/-- Does an access of `size` bytes at `a` touch the 4-byte range at `base` (R54)? It begins in the range, or reaches into
it from below. DESIGN CHOICE, safe (log 17): the spec names no access of zero bytes, and one that begins in the range
counts as any other wrong width (R83); no access wraps at 2^32. -/
def touches (base a : Word) (size : Nat) : Bool :=
  inRange base a || (decide (a.toNat < base.toNat) && decide (base.toNat < a.toNat + size))

/-- The byte-address front end (R54, R83). -/
def decodeBus (p : Params) (acc : BusAccess) : Except DecodeError Instr :=
  match allRegisters.find? (fun nr => decide (p.regAddr nr.1 nr.2 = acc.addr) && decide (acc.size = 4)) with
  | some (n, r) =>
    match acc.wdata with
    | none => .ok (readInstr n r)
    | some d => .ok (writeInstr n r d)
  | none =>
    if allRegisters.any (fun nr => touches (p.regAddr nr.1 nr.2) acc.addr acc.size)
    then .error (.refusedAccess acc.addr acc.size)
    else .error (.notTheBlocks acc.addr)

/-- The opcode and operand of an instruction that has a code; none for the operations of R98 and R101 (R100). -/
def codeOf : Instr → Option (BitVec 6 × Option Word)
  | .rdSad n => some (regOp false n .sad, none)
  | .rdDad n => some (regOp false n .dad, none)
  | .rdCnt n => some (regOp false n .cnt, none)
  | .rdFill n => some (regOp false n .fill, none)
  | .wrSad n d => some (regOp true n .sad, some d)
  | .wrDad n d => some (regOp true n .dad, some d)
  | .wrCnt n d => some (regOp true n .cnt, some d)
  | .wrFill n d => some (regOp true n .fill, some d)
  | .trigVblank => some (trigOp .vblank, none)
  | .trigHblank => some (trigOp .hblank, none)
  | .trigDispsync => some (trigOp .dispsync, none)
  | .trigMainmem => some (trigOp .mainmem, none)
  | .trigGamecard => some (trigOp .gamecard, none)
  | .trigAccessory => some (trigOp .accessory, none)
  | .trigGxfifo => some (trigOp .gxfifo, none)
  | .tick => some (tickOp, none)
  | .isBusy _ | .settleDelay | .waitPoll _ | .waitIrq _ | .waitFor _ | .issue _ _ | .issueCopy _ _ _ _ _
  | .issueFill _ _ _ _ _ | .copy _ _ _ _ _ | .fill _ _ _ _ | .cancel _ | .halt | .irqEnable _ | .irqDisable _
  | .waitInt _ _ | .vblankWait | .flushRange _ _ | .invalidateRange _ _ => none

/-- The name that a statement's `-> x` binds (R95, R98). -/
def Statement.name : Statement → Option LocalName
  | .code _ x => x
  | .call _ x => x
  | .bus _ x => x

/-- The instructions that return a value: the register reads (R82, R95) and `IS_BUSY` (R98). -/
def returnsValue : Instr → Bool
  | .rdSad _ | .rdDad _ | .rdCnt _ | .rdFill _ | .isBusy _ => true
  | _ => false

/-- The instruction that a statement spells (R91, R95, R97-R101), whatever it binds, or why it spells none. A statement
spells one instruction: `TICK k`, "`k` TICKs in a row" (R95), is written as k statements, each of which `rpc` counts
(DESIGN CHOICE, safe, log 28). -/
def spelt (p : Params) : Statement → Except DecodeError Instr
  | .code bytes _ =>
    match decodeBytes bytes with
    | .ok (i, []) => .ok i
    | .ok (_, _ :: _) => .error .trailingBytes
    | .error e => .error e
  | .call i _ => .ok i
  | .bus acc _ => decodeBus p acc

/-- A statement's instruction, or why it has none. A name to bind stands only before an instruction that returns a value
(DEDUCED, log 18). -/
def decodeStatement (p : Params) (st : Statement) : Except DecodeError Instr :=
  match spelt p st with
  | .error e => .error e
  | .ok i =>
    match st.name with
    | none => .ok i
    | some y => if returnsValue i then .ok i else .error (.nothingToBind y)

/-! ### The encoder -/

/-- The bytes of a transaction: the opcode byte, then the operand of a write (R97). -/
def codeBytes (op : BitVec 6) (operand : Option Word) : List Byte :=
  op.zeroExtend 8 ::
    match operand with
    | none => []
    | some d => [byteOf d 0, byteOf d 1, byteOf d 2, byteOf d 3]

/-- The statement that spells an instruction and binds `x`: its code where it has one, its name where it has none (R95,
R97, R100). -/
def encode (i : Instr) (x : Option LocalName) : Statement :=
  match codeOf i with
  | some (op, operand) => .code (codeBytes op operand) x
  | none => .call i x

/-- The code with bits `w`, numbered as the opcode table numbers them: the opcode byte is bits 7:0 and a write's
operand bits 39:8; a read or an event has no operand bytes. -/
def bytesOfTableWord (nbits w : Nat) : List Byte :=
  let v := w % 2 ^ nbits
  let byte := fun k => BitVec.ofNat 8 (v / 2 ^ (8 * k))
  match classify ((byte 0).extractLsb' 0 6) with
  | .write _ _ => [byte 0, byte 1, byte 2, byte 3, byte 4]
  | _ => [byte 0]

/-- The instruction the decoder reads from an instruction whose bits are `w`. -/
def decodeTableWord (nbits w : Nat) : Option Instr :=
  match decodeBytes (bytesOfTableWord nbits w) with
  | .ok (i, _) => some i
  | .error _ => none

/-! ### The control word (format C) -/

def Width.code : Width → BitVec 1
  | .half => 0
  | .word => 1

def SrcMode.code : SrcMode → BitVec 2
  | .increment => 0
  | .decrement => 1
  | .fixed => 2

/-- `SMODE_LIST`; code 3 is reserved (R30). -/
def SrcMode.ofCode (c : BitVec 2) : Option SrcMode :=
  if c = 0 then some .increment else if c = 1 then some .decrement else if c = 2 then some .fixed else none

def DstMode.code : DstMode → BitVec 2
  | .increment => 0
  | .decrement => 1
  | .fixed => 2
  | .incrementReload => 3

/-- `DMODE_LIST` (R29). -/
def DstMode.ofCode (c : BitVec 2) : DstMode :=
  if c = 0 then .increment else if c = 1 then .decrement else if c = 2 then .fixed else .incrementReload

/-! The layout of R29, in one place: every reader of a control word goes through these. -/

/-- COUNT, bits 20:0. -/
def cntCount (v : Word) : BitVec 21 := v.extractLsb' 0 21

/-- DMODE, bits 22:21. -/
def cntDstMode (v : Word) : DstMode := DstMode.ofCode (v.extractLsb' 21 2)

/-- SMODE, bits 24:23; none for the reserved code 3. -/
def cntSrcMode (v : Word) : Option SrcMode := SrcMode.ofCode (v.extractLsb' 23 2)

/-- REPEAT, bit 25. -/
def cntRepeat (v : Word) : Bool := v.getLsbD 25

/-- WIDTH, bit 26. -/
def cntWidth (v : Word) : Width := if v.getLsbD 26 then .word else .half

/-- TIMING, bits 29:27. -/
def cntTiming (v : Word) : Timing := Timing.ofCode (v.extractLsb' 27 3)

/-- IRQ, bit 30. -/
def cntIrq (v : Word) : Bool := v.getLsbD 30

/-- ENABLE, bit 31. -/
def cntEnable (v : Word) : Bool := v.getLsbD 31

/-- `encode : ControlWord → 32-bit` (R85). -/
def encodeControl (w : ControlWord) : Word :=
  w.length.zeroExtend 32
    ||| (w.destinationMode.code.zeroExtend 32 <<< 21)
    ||| (w.sourceMode.code.zeroExtend 32 <<< 23)
    ||| ((BitVec.ofBool w.repeats).zeroExtend 32 <<< 25)
    ||| (w.transferWidth.code.zeroExtend 32 <<< 26)
    ||| (w.startTrigger.code.zeroExtend 32 <<< 27)
    ||| ((BitVec.ofBool w.interruptRequest).zeroExtend 32 <<< 30)
    ||| ((BitVec.ofBool w.enabled).zeroExtend 32 <<< 31)

/-- `decode : 32-bit → ControlWord or Reserved` (R87); none is `Reserved`. -/
def decodeControl (v : Word) : Option ControlWord :=
  (cntSrcMode v).map fun smode =>
    { enabled := cntEnable v
      interruptRequest := cntIrq v
      repeats := cntRepeat v
      startTrigger := cntTiming v
      transferWidth := cntWidth v
      sourceMode := smode
      destinationMode := cntDstMode v
      length := cntCount v }

end Sys2Proof
end

