-- ==== Sys2Proof/Machine/Parameters.lean ====
section
/-!
DEFINITION. The default parameters of spec/00_scope.md R11 and the reading of `MEM_ADMIT`.
-/
namespace Sys2Proof.Machine

/-- The general-knowledge map of R60: `SAD = 0x040000B0 + 12n`, `DAD = SAD + 4`, `CNT = SAD + 8`,
`FILL = 0x040000E0 + 4n`. -/
def defaultAddrMap : PerChannel RegAddrs where
  c0 := { sad := 0x040000B0, dad := 0x040000B4, cnt := 0x040000B8, fill := 0x040000E0 }
  c1 := { sad := 0x040000BC, dad := 0x040000C0, cnt := 0x040000C4, fill := 0x040000E4 }
  c2 := { sad := 0x040000C8, dad := 0x040000CC, cnt := 0x040000D0, fill := 0x040000E8 }
  c3 := { sad := 0x040000D4, dad := 0x040000D8, cnt := 0x040000DC, fill := 0x040000EC }

/-- DESIGN CHOICE, unsafe (log 7): `MEM_ADMIT` has no default (R11); at reset the model takes the map the vectors of
95_test_vectors.md assume, `0x02000000–0x06FFFFFF` without the block's own register range. -/
def defaultMemAdmit : List Region :=
  [{ lo := 0x02000000, hi := 0x040000B0, halfOk := true, wordOk := true },
   { lo := 0x040000F0, hi := 0x07000000, halfOk := true, wordOk := true }]

/-- Every parameter at its default (R11). -/
def defaultParams : Params where
  settleCycles := 4
  settleScope := .sameChannel
  addrMap := defaultAddrMap
  addrMask := 0xFFFFFFFF
  memAdmit := defaultMemAdmit
  zeroCount := .fault
  unitsPerTrigger :=
    { vblank := .all, hblank := .all, dispsync := .all, mainmem := .all, gamecard := .all, accessory := .all,
      gxfifo := .all }
  repeatImmediate := .fault
  waitStrategy := .poll
  irqLine := { c0 := 8, c1 := 9, c2 := 10, c3 := 11 }

/-- The number of bytes of a unit (R9, R57). -/
def widthBytes : Width → Nat
  | .half => 2
  | .word => 4

/-- Does a region admit a master access of width `w` at `a`? -/
def regionAdmits (r : Region) (a : Word) (w : Width) : Bool :=
  decide (r.lo ≤ a.toNat) && decide (a.toNat + widthBytes w ≤ r.hi)
    && (match w with
        | .half => r.halfOk
        | .word => r.wordOk)

/-- `MEM_ADMIT(a, w)` (R61). -/
def memAdmits (p : Params) (a : Word) (w : Width) : Bool :=
  p.memAdmit.any fun r => regionAdmits r a w

end Sys2Proof.Machine
end

