-- ==== Sys2Proof/Machine/State.lean ====
section
/-!
DEFINITION. The state of the block, of the platform bits and of the requester (spec/10_state.md, 41_engine.md R125,
60_exceptions.md R180), as plain data, and its value after reset (70_reset_and_hazards.md R200). Conventions the spec
leaves open are named by their log entry (notes/assumptions).
-/
namespace Sys2Proof.Machine

/-- System memory (R42, R62): the bytes that have been written, by address, addresses strictly rising. -/
abbrev Memory := List Host.Cell

/-- Which check of `WAIT_IRQ` failed (R153). -/
inductive IrqCheck where
  | platform | noRequest
  deriving DecidableEq, Repr

/-- The fault codes of R181 with the info each records. They are data of the sticky fault record: none of them stops
the machine (R180, R192). -/
inductive FaultInfo where
  /-- 1: a register access during the settle period (R114). -/
  | settleViolation (n : ChanId) (op : BitVec 6)
  /-- 2: a register write to an Armed channel (R109-R111). -/
  | issueOnBusy (n : ChanId) (r : Reg)
  /-- 3: cancelling a channel whose armed word had REPEAT = 0 (R110). -/
  | unsafeCancel (n : ChanId)
  /-- 4: arming with SMODE = 3 (R126). -/
  | reservedSourceMode (n : ChanId)
  /-- 5: use of an unwritten register (R126, R108, R63). -/
  | unwrittenRegister (n : ChanId) (r : Reg)
  /-- 6: arming with REPEAT = 1 and TIMING = 0 (R126, R137). -/
  | repeatImmediate (n : ChanId)
  /-- 7: COUNT = 0 where ZERO_COUNT = fault (R138). -/
  | zeroLengthIssue (n : ChanId)
  /-- 8: an address that is no multiple of the width (R126, R136). -/
  | misalignedTransfer (n : ChanId) (src dst : Word)
  /-- 9: a master access to a block register other than a read of a FILL (R63). -/
  | dmaSelfAccess (a : Word)
  /-- 10: a width or element size other than 2 or 4 (R157, R165). -/
  | badWidth (n : ChanId) (size : Nat)
  /-- 11: a length above 0x1FFFFF (R157). -/
  | lengthOutOfRange (n : ChanId) (len : Nat)
  /-- 12: an interrupt wait that could not end (R153). -/
  | irqWaitMisconfigured (n : ChanId) (which : IrqCheck)
  deriving DecidableEq, Repr

/-- A record of the sticky fault set: code and info, and the number of the step that raised it (R180). -/
structure FaultRecord where
  info : FaultInfo
  step : Nat
  deriving DecidableEq, Repr

/-- The entries of `events` (R40, R75, R117, R139). -/
inductive Event where
  /-- A register transaction, TRIG or TICK: opcode, operand, result, and the faults it raised (R117). -/
  | transaction (op : BitVec 6) (operand result : Option Word) (faults : List FaultRecord)
  /-- A memory-master read of `w` at `a` that returned `v`. -/
  | masterRead (a : Word) (w : Width) (v : Word)
  /-- A memory-master write. -/
  | masterWrite (a : Word) (w : Width) (v : Word)
  /-- `Irq(n)`: a pulse of the completion interrupt of channel n (R139). -/
  | irq (n : ChanId)
  /-- `FLUSH_RANGE a, len` (R190). -/
  | flush (a : Word) (len : Nat)
  /-- `INVALIDATE_RANGE a, len` (R190). -/
  | invalidate (a : Word) (len : Nat)
  deriving DecidableEq, Repr

/-- What the requester is blocked on (R170, R183). -/
inductive Wait where
  | vblank
  | int (n : ChanId)
  deriving DecidableEq, Repr

/-- The value of a requester-local name: a word that a read bound, or the bit that `IS_BUSY` bound (R95, R98). -/
inductive LocalValue where
  | word (w : Word)
  | bit (b : Bool)
  deriving DecidableEq, Repr

/-- The requester-local names that are bound, each with its value (R95, R99); the names strictly rising. -/
abbrev Names := List (LocalName × LocalValue)

/-- A piece of an expansion still to run (42_driver_protocol.md): an instruction, or a decision of a wait loop. -/
inductive Micro where
  /-- An instruction of the expansion. -/
  | run (i : Instr)
  /-- `if b = 0 then return`, else `VBLANK_WAIT` and the next turn of the loop of `WAIT_POLL n` (R152). -/
  | pollCheck (n : ChanId)
  /-- `if x[31] = 0 then return`, `if x[30] = 0 then raise`, else the next turn of the loop of `WAIT_IRQ n` (R153). -/
  | irqCheck (n : ChanId)
  deriving DecidableEq, Repr

/-- The registers and internal state of one channel (R23-R37). -/
structure ChannelState where
  sad : Word
  dad : Word
  fill : Word
  /-- CNT[30:0] as stored; bit 31 is `enabled` (R32). -/
  conf : BitVec 31
  enabled : Bool
  curSrc : Word
  curDst : Word
  remaining : Nat
  running : Bool
  budget : Nat
  settle : Nat
  sadW : Bool
  dadW : Bool
  fillW : Bool
  armOk : Bool
  deriving DecidableEq, Repr

/-- The whole machine. -/
structure State where
  /-- The parameters of R11; no step changes them (R43; log 6). -/
  params : Params
  /-- The requester's program (R99); no step changes it (R43; log 9). -/
  program : List Statement
  /-- The four channels (R23, R37). -/
  chans : PerChannel ChannelState
  /-- `unit_ch` (R125). -/
  unitCh : Option ChanId
  /-- `unit_data` (R125). -/
  unitData : Word
  /-- System memory (R42, R62). -/
  mem : Memory
  /-- The completion interrupt outputs: high if the latest step pulsed them (R184; log 20). -/
  irq : PerChannel Bool
  /-- `plat_ie[n]` (R41). -/
  platIe : PerChannel Bool
  /-- `plat_if[n]` (R41). -/
  platIf : PerChannel Bool
  /-- `faults`, oldest first (R40, R180). -/
  faults : List FaultRecord
  /-- `events`, oldest first (R40). -/
  events : List Event
  /-- `refused` (R40). -/
  refused : Bool
  /-- The statement index (R33). -/
  rpc : Nat
  /-- The statement at `rpc` has been started and has not ended (R33; log 10). -/
  active : Bool
  /-- What is left of its expansion (log 10). -/
  todo : List Micro
  /-- What the requester is blocked on (R188, R189). -/
  waiting : Option Wait
  /-- The requester has executed HALT (R199). -/
  halted : Bool
  /-- The requester-local names that `-> x` and `-> b` have bound, and their values (R95, R98, R99; log 29). -/
  names : Names
  /-- What the latest RD returned, the `x` of an expansion (R150, R153); none if that read raised (R114; log 11, 29). -/
  lastRead : Option Word
  /-- What the latest IS_BUSY returned, the `b` of WAIT_POLL (R152); none if its read raised (log 11, 29). -/
  lastBusy : Option Bool
  /-- The model's own: the agents whose turns come next; when empty, the agent is a free value (log 3). -/
  turns : List Agent
  /-- The model's own: how many steps have been taken, the `step` of a fault record (R180; log 21). -/
  clock : Nat
  /-- The model's own: how many free values have been drawn (log 4). -/
  draws : Nat
  deriving DecidableEq, Repr

/-- Reasons for the machine to stop with a fault: there are none. The spec's faults are records in `State.faults` that
stop nothing and divert no control (R180, R192), and a stuck agent has no step while the others go on (R183; log 19). -/
inductive Fault where
  deriving DecidableEq, Repr

/-- Reasons for the machine to have no answer. -/
inductive Refusal where
  /-- An instruction without a meaning, rejected by name in Dispatch; no arm answers it now. Safe: the run stops. -/
  | notModelled (mnemonic : String)
  /-- A front-end access to an address outside ADDR_MAP: "not the block's" (R83), and the spec does not say what the
  platform does with it. Raised by the fetch of a statement. Safe: the run stops (log 17). -/
  | notTheBlocks (a : Word)
  deriving DecidableEq, Repr

/-- A channel after reset (R200). DESIGN CHOICE, unsafe (log 1): the registers the spec leaves unwritten hold 0; no
rule reads them before they are written. -/
def ChannelState.reset : ChannelState where
  sad := 0
  dad := 0
  fill := 0
  conf := 0
  enabled := false
  curSrc := 0
  curDst := 0
  remaining := 0
  running := false
  budget := 0
  settle := 0
  sadW := false
  dadW := false
  fillW := false
  armOk := false

/-- The machine right after reset (R200, R201): every channel Idle, nothing recorded, no program (log 9), the
parameters at their defaults (log 6, log 7). -/
def State.reset : State where
  params := defaultParams
  program := []
  chans := ⟨ChannelState.reset, ChannelState.reset, ChannelState.reset, ChannelState.reset⟩
  unitCh := none
  unitData := 0
  mem := []
  irq := ⟨false, false, false, false⟩
  platIe := ⟨false, false, false, false⟩
  platIf := ⟨false, false, false, false⟩
  faults := []
  events := []
  refused := false
  rpc := 0
  active := false
  todo := []
  waiting := none
  halted := false
  names := []
  lastRead := none
  lastBusy := none
  turns := []
  clock := 0
  draws := 0

end Sys2Proof.Machine
end

