-- ==== Sys2Proof/Machine/Operands.lean ====
section
/-!
DEFINITION. Operands of transactions and units: the control word of a channel (spec/10_state.md R32), address stepping
(20_memory.md R67), alignment (R58), the unit count (41_engine.md R138), the fill word (42_driver_protocol.md R162).
-/
namespace Sys2Proof.Machine

/-- `CNT[n]`: the live ENABLE bit over the stored bits 30:0 (R32). -/
def ChannelState.cnt (c : ChannelState) : Word := BitVec.ofBool c.enabled ++ c.conf

/-- `CNT[n] <- d`, bits 30:0; bit 31 is `enabled`, which the caller sets (R32, R110). -/
def ChannelState.storeCnt (c : ChannelState) (d : Word) : ChannelState := { c with conf := d.extractLsb' 0 31 }

/-- The transfer width of a channel (R57). -/
def ChannelState.width (c : ChannelState) : Width := cntWidth c.cnt

/-- The start trigger of a channel. -/
def ChannelState.timing (c : ChannelState) : Timing := cntTiming c.cnt

/-- What a read of CNT returns: bits 31:21 of the register over 21 drawn bits (R107). -/
def cntReadback (c : ChannelState) (draw : Word) : Word := c.cnt.extractLsb' 21 11 ++ draw.extractLsb' 0 21

/-- One address step before masking: up, down or none, modulo 2^32 (R67). -/
def stepUp (a : Word) (w : Width) : Word := a + BitVec.ofNat 32 (widthBytes w)

def stepDown (a : Word) (w : Width) : Word := a - BitVec.ofNat 32 (widthBytes w)

/-- `step(a, mode, w)` for a source address, masked (R67). -/
def stepSrc (p : Params) (m : SrcMode) (w : Width) (a : Word) : Word :=
  (match m with
    | .increment => stepUp a w
    | .decrement => stepDown a w
    | .fixed => a) &&& p.addrMask

/-- `step(a, mode, w)` for a destination address, masked (R67). IncrementReload steps like Increment (R134). -/
def stepDst (p : Params) (m : DstMode) (w : Width) (a : Word) : Word :=
  (match m with
    | .increment => stepUp a w
    | .decrement => stepDown a w
    | .fixed => a
    | .incrementReload => stepUp a w) &&& p.addrMask

/-- `a mod w ≠ 0` (R58). -/
def misaligned (a : Word) (w : Width) : Bool := decide (a.toNat % widthBytes w ≠ 0)

/-- `count_of(n)`; none is the ZeroLengthIssue case (R138). -/
def countOf (p : Params) (v : Word) : Option Nat :=
  if cntCount v ≠ 0 then some (cntCount v).toNat
  else match p.zeroCount with
    | .fault => none
    | .full => some (2 ^ 21)
    | .empty => some 0

/-- The width of a request in bytes, where the hardware has it (R9, R157). -/
def widthOfBytes (w : Nat) : Option Width :=
  if w = 2 then some .half else if w = 4 then some .word else none

/-- `fill_word(value, w)` (R162). -/
def fillWord (value : Word) : Width → Word
  | .half => (value.extractLsb' 0 16).zeroExtend 32
  | .word => value

/-- The control word `ISSUE` composes: enabled, interrupt request, Immediate, no repeat (R156). -/
def issueWord (req : Request) (w : Width) : Word :=
  encodeControl
    { enabled := true
      interruptRequest := true
      repeats := false
      startTrigger := .immediate
      transferWidth := w
      sourceMode := req.srcMode
      destinationMode := req.dstMode
      length := BitVec.ofNat 21 req.len }

/-- The request of `ISSUE_COPY` (R159). -/
def copyRequest (src dst : Word) (len w : Nat) : Request where
  kind := .copy
  srcOrValue := src
  dst := dst
  len := len
  width := w
  srcMode := .increment
  dstMode := .increment

/-- The request of `ISSUE_FILL` (R161). -/
def fillRequest (value dst : Word) (len w : Nat) : Request where
  kind := .fill
  srcOrValue := value
  dst := dst
  len := len
  width := w
  srcMode := .fixed
  dstMode := .increment

end Sys2Proof.Machine
end

