-- ==== Sys2Proof/Machine/Ops.lean ====
section
/-!
DEFINITION. The named operations over the state: channels, the sticky fault record (spec/60_exceptions.md R180) and the
event history (10_state.md R40), free values, memory (20_memory.md R53), the routing of master accesses (R63), and the
completion interrupt (41_engine.md R139). The block takes no trap and has no return from one (60_exceptions.md R192,
R193): `raise` is all that an exception does, and `pulseIrq` is all that an interrupt does.
-/
namespace Sys2Proof.Machine

/-! ### Channels -/

def State.chan (s : State) (n : ChanId) : ChannelState := s.chans.get n

def State.setChan (s : State) (n : ChanId) (c : ChannelState) : State := { s with chans := s.chans.set n c }

def State.modChan (s : State) (n : ChanId) (f : ChannelState → ChannelState) : State := s.setChan n (f (s.chan n))

/-! ### Faults, events, free values -/

/-- `raise F(info)` (R15, R180): one record is added, and nothing else happens here. -/
def State.raise (s : State) (f : FaultInfo) : State := { s with faults := s.faults ++ [{ info := f, step := s.clock }] }

/-- The number of a fault code (R181). -/
def faultCode : FaultInfo → Nat
  | .settleViolation _ _ => 1
  | .issueOnBusy _ _ => 2
  | .unsafeCancel _ => 3
  | .reservedSourceMode _ => 4
  | .unwrittenRegister _ _ => 5
  | .repeatImmediate _ => 6
  | .zeroLengthIssue _ => 7
  | .misalignedTransfer _ _ _ => 8
  | .dmaSelfAccess _ => 9
  | .badWidth _ _ => 10
  | .lengthOutOfRange _ _ => 11
  | .irqWaitMisconfigured _ _ => 12

/-- One entry is appended to `events` (R40). -/
def State.log (s : State) (e : Event) : State := { s with events := s.events ++ [e] }

/-- A transaction's entry, with the faults raised since `before` (R117). It follows the entries of the accesses and
pulses that the transaction caused (DESIGN CHOICE, safe, log 16). -/
def State.logTransaction (s : State) (op : BitVec 6) (operand result : Option Word) (before : State) : State :=
  s.log (.transaction op operand result (s.faults.drop before.faults.length))

/-- The next free value is taken (log 4). -/
def State.drawn (s : State) : State := { s with draws := s.draws + 1 }

/-- `draw32()` (R105): the value taken by `drawn`. -/
def State.drawWord (s : State) : Word := Config.freeWord s.draws

/-- A draw bit (R141): the value taken by `drawn`. -/
def State.drawBit (s : State) : Bool := Config.freeBit s.draws

/-! ### Tables: memory, and the names of a program -/

/-- What a table holds under a key; none where nothing has been put. -/
def rowGet {α : Type} : List (Nat × α) → Nat → Option α
  | [], _ => none
  | (k, v) :: m, a => if k = a then some v else rowGet m a

/-- A value is put under a key; the keys stay strictly rising. -/
def rowSet {α : Type} : List (Nat × α) → Nat → α → List (Nat × α)
  | [], a, v => [(a, v)]
  | (k, u) :: m, a, v =>
    if a < k then (a, v) :: (k, u) :: m
    else if a = k then (a, v) :: m
    else (k, u) :: rowSet m a v

/-- A table in its one form: keys strictly rising. -/
abbrev rowsSorted {α : Type} (m : List (Nat × α)) : Prop := m.Pairwise fun x y => x.1 < y.1

/-! ### Memory -/

/-- What an unlisted address reads as: a free value, for the spec says nothing of it (log 5). -/
def unlistedByte (a : Nat) : Byte := Config.powerOnByte a

/-- The byte at an address. -/
def byteAt (m : Memory) (a : Nat) : Byte := (rowGet m a).getD (unlistedByte a)

/-- The canonical form: addresses strictly rising and below 2^32. An unlisted address holds no written value, so no
entry equals it. -/
abbrev Memory.wf (m : Memory) : Prop := rowsSorted m ∧ ∀ c ∈ m, c.1 < 2 ^ 32

/-- The address of byte `k` of an access at `a`, modulo 2^32 (R12). -/
def byteAddr (a : Word) (k : Nat) : Nat := (a + BitVec.ofNat 32 k).toNat

/-- `MemRead(a, w)`, little-endian, zero-extended to 32 bits (R14, R53). -/
def memRead (m : Memory) (a : Word) : Width → Word
  | .half => wordOfBytes (byteAt m (byteAddr a 0)) (byteAt m (byteAddr a 1)) 0 0
  | .word =>
    wordOfBytes (byteAt m (byteAddr a 0)) (byteAt m (byteAddr a 1)) (byteAt m (byteAddr a 2)) (byteAt m (byteAddr a 3))

/-- `MemWrite(a, w, v)`: the low bytes of `v`, little-endian (R14, R53). -/
def memWrite (m : Memory) (a : Word) (w : Width) (v : Word) : Memory :=
  match w with
  | .half => rowSet (rowSet m (byteAddr a 0) (byteOf v 0)) (byteAddr a 1) (byteOf v 1)
  | .word =>
    rowSet (rowSet (rowSet (rowSet m (byteAddr a 0) (byteOf v 0)) (byteAddr a 1) (byteOf v 1))
      (byteAddr a 2) (byteOf v 2)) (byteAddr a 3) (byteOf v 3)

/-! ### The master port -/

/-- Where a master access goes (R63). -/
inductive Route where
  | fill (m : ChanId)
  | ownRegister
  | memory
  deriving DecidableEq, Repr

/-- The routing of R63: a FILL register, another block register, or system memory. -/
def route (p : Params) (a : Word) : Route :=
  match allChannels.find? (fun m => inRange (p.regAddr m .fill) a) with
  | some m => .fill m
  | none =>
    if allRegisters.any (fun nr => inRange (p.regAddr nr.1 nr.2) a) then .ownRegister else .memory

/-- An access the engine may make: routed to a block register, or admitted by `MEM_ADMIT` (R133, R134, R140). -/
def State.admitted (s : State) (a : Word) (w : Width) : Bool :=
  decide (route s.params a ≠ .memory) || memAdmits s.params a w

/-- The bytes of a FILL register from offset `off`, little-endian (R63). -/
def fillBytes (f : Word) (off : Nat) : Width → Word
  | .half => ((f >>> (8 * off)).extractLsb' 0 16).zeroExtend 32
  | .word => f >>> (8 * off)

/-- `master_read(a, w)` (R63): the value, or the fault it raises. -/
def State.masterRead (s : State) (a : Word) (w : Width) : Except FaultInfo Word :=
  match route s.params a with
  | .fill m =>
    if (s.chan m).fillW then .ok (fillBytes (s.chan m).fill (a.toNat - (s.params.regAddr m .fill).toNat) w)
    else .error (.unwrittenRegister m .fill)
  | .ownRegister => .error (.dmaSelfAccess a)
  | .memory => .ok (memRead s.mem a w)

/-- `master_write(a, w, v)` (R63): the state after it, with its entry in `events`, or the fault it raises. -/
def State.masterWrite (s : State) (a : Word) (w : Width) (v : Word) : Except FaultInfo State :=
  match route s.params a with
  | .memory => .ok ({ s with mem := memWrite s.mem a w v }.log (.masterWrite a w v))
  | _ => .error (.dmaSelfAccess a)

/-! ### Interrupts -/

/-- `pulse_irq(n)` (R139, R184, R185): the output pulses, the pulse is recorded, the platform's flag is set. -/
def State.pulseIrq (s : State) (n : ChanId) : State :=
  { s.log (.irq n) with irq := s.irq.set n true, platIf := s.platIf.set n true }

/-! ### The requester -/

/-- The value of a requester-local name; none where it is unbound (R95, R99). -/
def State.value (s : State) (y : LocalName) : Option LocalValue := rowGet s.names y

/-- What an instruction that has just run returned: a read a word, `IS_BUSY` a bit; none if it raised, and none for the
others (R82, R95, R98). -/
def State.resultOf (s : State) (i : Instr) : Option LocalValue :=
  match i with
  | .rdSad _ | .rdDad _ | .rdCnt _ | .rdFill _ => s.lastRead.map .word
  | .isBusy _ => s.lastBusy.map .bit
  | _ => none

/-- `-> x` after the instruction `i` has run (R95): the result is bound to `x`, in the place of what `x` was bound to
before. Where `i` raised there is no result, nothing is bound, and `x` stays as it was (DEDUCED, log 11). -/
def State.bindName (s : State) (x : Option LocalName) (i : Instr) : State :=
  match x, s.resultOf i with
  | some y, some v => { s with names := rowSet s.names y v }
  | _, _ => s

/-- An expansion is put before what is left to run (R33). -/
def State.push (s : State) (ms : List Micro) : State := { s with todo := ms ++ s.todo }

end Sys2Proof.Machine
end

