-- ==== Sys2Proof/Machine/Flags.lean ====
section
/-!
DEFINITION. The one status flag, ENABLE (spec/10_state.md R34), and the check every register transaction makes first,
the settle pre-check (40_register_access.md R114). There are no condition codes.
-/
namespace Sys2Proof.Machine

/-- The busy flag as a read of CNT shows it: bit 31 (R34, R107). -/
def busyBit (x : Word) : Bool := cntEnable x

/-- Is the channel Armed (R36)? -/
def State.armed (s : State) (n : ChanId) : Bool := (s.chan n).enabled

/-- ENABLE and everything that is 0 with it are cleared: the channel is Idle (R110, R135). -/
def ChannelState.halt (c : ChannelState) : ChannelState :=
  { c with enabled := false, running := false, budget := 0, remaining := 0 }

/-- `hit` of R114: a settle delay covers this access. -/
def State.settleHit (s : State) (n : ChanId) : Bool :=
  match s.params.settleScope with
  | .sameChannel => decide (0 < (s.chan n).settle)
  | .allChannels => allChannels.any fun k => decide (0 < (s.chan k).settle)

/-- One TICK of a channel's settle delay (R113). -/
def ChannelState.tickSettle (c : ChannelState) : ChannelState := { c with settle := c.settle - 1 }

/-- A register read: the settle pre-check, then the body, which gives the value to bind or none if it raised; the
transaction is recorded (R114, R117). A read that raises returns nothing to bind (95_test_vectors.md P5). -/
def registerRead (n : ChanId) (r : Reg) (body : State → State × Option Word) (s : State) : State :=
  let op := regOp false n r
  let res := if s.settleHit n then (s.raise (.settleViolation n op), none) else body s
  { res.1.logTransaction op none res.2 s with lastRead := res.2 }

/-- A register write: the settle pre-check, then the body; the transaction is recorded (R114, R117). -/
def registerWrite (n : ChanId) (r : Reg) (d : Word) (body : State → State) (s : State) : State :=
  let op := regOp true n r
  let res := if s.settleHit n then s.raise (.settleViolation n op) else body s
  res.logTransaction op (some d) none s

/-- A write to a register of an Armed channel is recorded, and still happens (R109, R111). -/
def State.noteBusy (s : State) (n : ChanId) (r : Reg) : State :=
  if s.armed n then s.raise (.issueOnBusy n r) else s

end Sys2Proof.Machine
end

