-- ==== Sys2Proof/Machine/Engine.lean ====
section
/-!
DEFINITION. The DMA engine (spec/41_engine.md): arming and starting, triggers, arbitration, the two steps of a unit,
completion, repeat, and the unit in flight of a cancelled channel.
-/
namespace Sys2Proof.Machine

/-! ### Completion and repeat -/

/-- The IncrementReload part of `reload` (R136): the destination is taken again from DAD. A misaligned one is recorded,
and the reload goes on (DEDUCED from the order of R136, log 12). -/
def reloadDst (n : ChanId) (s : State) : State :=
  let c := s.chan n
  if cntDstMode c.cnt = .incrementReload then
    let dst := c.dad &&& s.params.addrMask
    let s' := s.setChan n { c with curDst := dst }
    if misaligned dst c.width then s'.raise (.misalignedTransfer n c.curSrc dst) else s'
  else s

/-- The channel stops running and waits for the next trigger. -/
def ChannelState.pause (c : ChannelState) : ChannelState := { c with running := false, budget := 0 }

/-- `reload(n)` (R136). -/
def reload (n : ChanId) (s : State) : State :=
  match countOf s.params (s.chan n).cnt with
  | none => s.raise (.zeroLengthIssue n)
  | some count =>
    (reloadDst n (s.modChan n fun c => { c with remaining := count })).modChan n ChannelState.pause

/-- A completion reloads: REPEAT = 1 and a trigger other than Immediate (R135, R137). -/
def repeats (v : Word) : Bool := cntRepeat v && decide (cntTiming v ≠ .immediate)

/-- `complete(n)` (R135). -/
def complete (n : ChanId) (s : State) : State :=
  let v := (s.chan n).cnt
  let s1 := if cntIrq v then s.pulseIrq n else s
  if repeats v then reload n s1 else s1.modChan n ChannelState.halt

/-! ### Arming and starting -/

/-- The budget `start(n, k)` gives (R127). -/
def budgetFor (k : Units) (remaining : Nat) : Nat :=
  match k with
  | .all => remaining
  | .atMost k => min remaining k

/-- `start(n, k)` (R127). -/
def start (n : ChanId) (k : Units) (s : State) : State :=
  if (s.chan n).remaining = 0 then complete n s
  else s.modChan n fun c => { c with running := true, budget := budgetFor k c.remaining }

/-- The checks of `arm` before the addresses are latched, in the order of R126: the count of the block, or the first
fault that applies. -/
def armCheck (p : Params) (n : ChanId) (c : ChannelState) : Except FaultInfo Nat :=
  if cntSrcMode c.cnt = none then .error (.reservedSourceMode n)
  else if c.sadW = false then .error (.unwrittenRegister n .sad)
  else if c.dadW = false then .error (.unwrittenRegister n .dad)
  else if cntRepeat c.cnt = true ∧ c.timing = .immediate ∧ p.repeatImmediate = .fault then
    .error (.repeatImmediate n)
  else match countOf p c.cnt with
    | none => .error (.zeroLengthIssue n)
    | some count => .ok count

/-- The first effects of `arm`, which a fault keeps (R126). -/
def ChannelState.beginArm (c : ChannelState) (p : Params) : ChannelState :=
  { c with enabled := true, settle := p.settleCycles, armOk := false }

/-- The latch of SAD and DAD (R126). -/
def ChannelState.latch (c : ChannelState) (p : Params) : ChannelState :=
  { c with curSrc := c.sad &&& p.addrMask, curDst := c.dad &&& p.addrMask }

/-- The channel is armed for `count` units (R126). -/
def ChannelState.armFor (c : ChannelState) (count : Nat) : ChannelState :=
  { c with remaining := count, running := false, budget := 0, armOk := true }

/-- `arm(n)` (R126): CNT[n] holds the written word. -/
def arm (n : ChanId) (s : State) : State :=
  let s1 := s.modChan n fun c => c.beginArm s.params
  match armCheck s1.params n (s1.chan n) with
  | .error f => s1.raise f
  | .ok count =>
    let s2 := s1.modChan n fun c => c.latch s1.params
    let c := s2.chan n
    if misaligned c.curSrc c.width || misaligned c.curDst c.width then
      s2.raise (.misalignedTransfer n c.curSrc c.curDst)
    else
      let s3 := s2.modChan n fun c => c.armFor count
      if c.timing = .immediate then start n (.atMost count) s3 else s3

/-! ### Triggers -/

/-- A channel that a trigger starts: Armed, armed without fault, waiting on it and not running (R128). -/
def ChannelState.waitsOn (c : ChannelState) (t : Trigger) : Bool :=
  c.enabled && c.armOk && decide (c.timing = .on t) && !c.running

/-- One turn of the loop of `deliver_trigger(t)` (R128). -/
def triggerChannel (t : Trigger) (s : State) (n : ChanId) : State :=
  if (s.chan n).waitsOn t then start n (s.params.unitsPerTrigger.get t) s else s

/-- `deliver_trigger(t)` (R128): for n in 0..3. -/
def deliverTrigger (t : Trigger) (s : State) : State := allChannels.foldl (triggerChannel t) s

/-! ### Cancellation of the unit in flight -/

/-- `abort_pending_unit(n)` (R141): a drawn bit says whether the pending write is performed. A write to a block
register raises; one that `MEM_ADMIT` rejects cannot be performed and is dropped (DEDUCED, log 14). -/
def abortPendingUnit (n : ChanId) (s : State) : State :=
  if s.unitCh = some n then
    let s1 := { s.drawn with unitCh := none }
    let c := s.chan n
    if s.drawBit && s.admitted c.curDst c.width then
      match s1.masterWrite c.curDst c.width s.unitData with
      | .ok s2 => s2
      | .error f => s1.raise f
    else s1
  else s

/-! ### Arbitration and the steps of a unit -/

/-- `sel`: the running channel with the lowest number (R131). -/
def State.selected (s : State) : Option ChanId := allChannels.find? fun n => (s.chan n).running

/-- `UNIT_READ` of channel n (R133); a read that raises has no other effect (R15). -/
def unitRead (n : ChanId) (s : State) : State :=
  let c := s.chan n
  match s.masterRead c.curSrc c.width with
  | .error f => s.raise f
  | .ok v => { s.log (.masterRead c.curSrc c.width v) with unitCh := some n, unitData := v }

/-- The address, count and budget updates of `UNIT_WRITE` (R134). -/
def ChannelState.advance (c : ChannelState) (p : Params) (m : SrcMode) : ChannelState :=
  { c with
    curSrc := stepSrc p m c.width c.curSrc
    curDst := stepDst p (cntDstMode c.cnt) c.width c.curDst
    remaining := c.remaining - 1
    budget := c.budget - 1 }

/-- The end of `UNIT_WRITE`: completion, or waiting for the next trigger (R130, R134). -/
def afterUnit (n : ChanId) (s : State) : State :=
  if (s.chan n).remaining = 0 then complete n s
  else if (s.chan n).budget = 0 then s.modChan n fun c => { c with running := false }
  else s

/-- `UNIT_WRITE` of channel n in source mode m (R134); a write that raises has no other effect (R15). -/
def unitWrite (n : ChanId) (m : SrcMode) (s : State) : State :=
  let c := s.chan n
  match s.masterWrite c.curDst c.width s.unitData with
  | .error f => s.raise f
  | .ok s1 => afterUnit n { s1.modChan n fun c => c.advance s.params m with unitCh := none }

/-- One turn of the engine (R131-R134, R140). It has no step when no channel is running and no unit is pending, or when
its next access is not admitted; nor for a pending unit whose source mode is the reserved code, which no arming lets run
(log 13). -/
def engineStep (s : State) : State :=
  match s.unitCh with
  | some n =>
    match cntSrcMode (s.chan n).cnt with
    | some m => if s.admitted (s.chan n).curDst (s.chan n).width then unitWrite n m s else s
    | none => s
  | none =>
    match s.selected with
    | some n => if s.admitted (s.chan n).curSrc (s.chan n).width then unitRead n s else s
    | none => s

/-- Has the engine a step (R140)? -/
def State.engineEnabled (s : State) : Bool :=
  match s.unitCh with
  | some n => (cntSrcMode (s.chan n).cnt).isSome && s.admitted (s.chan n).curDst (s.chan n).width
  | none =>
    match s.selected with
    | some n => s.admitted (s.chan n).curSrc (s.chan n).width
    | none => false

end Sys2Proof.Machine
end

