-- ==== Sys2Proof/Machine/Registers.lean ====
section
/-!
DEFINITION. The eight register transactions (spec/40_register_access.md R105-R111).
-/
namespace Sys2Proof.Machine

open Host

/-- A read whose value the spec leaves open: `x <- draw32()` (R105, R106). -/
def readDraw (s : State) : State × Option Word := (s.drawn, some s.drawWord)

/-- The body of `RD n.CNT` (R107). -/
def readCnt (n : ChanId) (s : State) : State × Option Word := (s.drawn, some (cntReadback (s.chan n) s.drawWord))

/-- The body of `RD n.FILL` (R108). -/
def readFill (n : ChanId) (s : State) : State × Option Word :=
  if (s.chan n).fillW then (s, some (s.chan n).fill) else (s.raise (.unwrittenRegister n .fill), none)

/-- The body of `WR n.SAD, d` (R109). -/
def writeSad (n : ChanId) (d : Word) (s : State) : State :=
  (s.noteBusy n .sad).modChan n fun c => { c with sad := d, sadW := true }

/-- The body of `WR n.DAD, d` (R109). -/
def writeDad (n : ChanId) (d : Word) (s : State) : State :=
  (s.noteBusy n .dad).modChan n fun c => { c with dad := d, dadW := true }

/-- The body of `WR n.FILL, d` (R111). -/
def writeFill (n : ChanId) (d : Word) (s : State) : State :=
  (s.noteBusy n .fill).modChan n fun c => { c with fill := d, fillW := true }

/-- `WR n.CNT, d` on an Idle channel (R110): arm, or store the configuration. -/
def writeCntIdle (n : ChanId) (d : Word) (s : State) : State :=
  let s1 := s.modChan n fun c => c.storeCnt d
  if cntEnable d then arm n s1 else s1

/-- `WR n.CNT, d` with bit 31 = 1 on an Armed channel (R110): the overwrite. -/
def rearm (n : ChanId) (d : Word) (s : State) : State :=
  arm n ((abortPendingUnit n (s.raise (.issueOnBusy n .cnt))).modChan n fun c => c.pause.storeCnt d)

/-- `WR n.CNT, d` with bit 31 = 0 on an Armed channel (R110): the cancellation. -/
def cancelArmed (n : ChanId) (d : Word) (s : State) : State :=
  let s1 := if cntRepeat (s.chan n).cnt then s else s.raise (.unsafeCancel n)
  (abortPendingUnit n s1).modChan n fun c => (c.storeCnt d).halt

/-- The body of `WR n.CNT, d` (R110). -/
def writeCnt (n : ChanId) (d : Word) (s : State) : State :=
  if s.armed n = false then writeCntIdle n d s
  else if cntEnable d then rearm n d s
  else cancelArmed n d s

/-- `RD n.SAD -> x` (R105). -/
def execRdSad (n : ChanId) (s : State) : Outcome State Fault Refusal := .next (registerRead n .sad readDraw s)

/-- `RD n.DAD -> x` (R106). -/
def execRdDad (n : ChanId) (s : State) : Outcome State Fault Refusal := .next (registerRead n .dad readDraw s)

/-- `RD n.CNT -> x` (R107). -/
def execRdCnt (n : ChanId) (s : State) : Outcome State Fault Refusal := .next (registerRead n .cnt (readCnt n) s)

/-- `RD n.FILL -> x` (R108). -/
def execRdFill (n : ChanId) (s : State) : Outcome State Fault Refusal := .next (registerRead n .fill (readFill n) s)

/-- `WR n.SAD, d` (R109). -/
def execWrSad (n : ChanId) (d : Word) (s : State) : Outcome State Fault Refusal :=
  .next (registerWrite n .sad d (writeSad n d) s)

/-- `WR n.DAD, d` (R109). -/
def execWrDad (n : ChanId) (d : Word) (s : State) : Outcome State Fault Refusal :=
  .next (registerWrite n .dad d (writeDad n d) s)

/-- `WR n.CNT, d` (R110). -/
def execWrCnt (n : ChanId) (d : Word) (s : State) : Outcome State Fault Refusal :=
  .next (registerWrite n .cnt d (writeCnt n d) s)

/-- `WR n.FILL, d` (R111). -/
def execWrFill (n : ChanId) (d : Word) (s : State) : Outcome State Fault Refusal :=
  .next (registerWrite n .fill d (writeFill n d) s)

end Sys2Proof.Machine
end

