-- ==== Sys2Proof/Machine/Driver.lean ====
section
/-!
DEFINITION. The driver protocol (spec/42_driver_protocol.md): each pseudo-operation makes its own checks and puts its
expansion before what is left to run; the pieces of an expansion are requester steps of their own, between which the
engine and the environment may step (R33, R115; log 10). `IS_BUSY` and `CANCEL` are one transaction each and run it.
-/
namespace Sys2Proof.Machine

open Host

/-- `RD n.CNT -> x; b := x[31]` (R150); `x` is the expansion's own (log 29). -/
def isBusyRead (n : ChanId) (s : State) : State :=
  let s' := registerRead n .cnt (readCnt n) s
  { s' with lastBusy := s'.lastRead.map busyBit }

/-- One turn of the loop of `WAIT_POLL n` (R152). -/
def pollLoop (n : ChanId) : List Micro := [.run (.isBusy n), .pollCheck n]

/-- One turn of the loop of `WAIT_IRQ n` (R153). -/
def irqLoop (n : ChanId) : List Micro := [.run (.rdCnt n), .irqCheck n]

/-- `if b = 0 then return`, else `VBLANK_WAIT` and the loop again (R152). A read that raised showed no ENABLE bit, and
the wait returns only after one that showed 0 (R152, R155), so the loop goes on (DEDUCED, log 11). -/
def pollCheck (n : ChanId) (s : State) : State :=
  if s.lastBusy = some false then s else s.push (.run .vblankWait :: pollLoop n)

/-- `if x[31] = 0 then return`; `if x[30] = 0 then raise`; else `WAIT_INT n, false` and the loop again (R153). After a read
that raised neither test can end the wait (R155), so the loop goes on (DEDUCED, log 11). -/
def irqCheck (n : ChanId) (s : State) : State :=
  match s.lastRead with
  | none => s.push (.run (.waitInt n false) :: irqLoop n)
  | some x =>
    if busyBit x = false then s
    else if cntIrq x = false then s.raise (.irqWaitMisconfigured n .noRequest)
    else s.push (.run (.waitInt n false) :: irqLoop n)

/-- The register writes of an issue, in the order of R158, and the settle delay (R156). -/
def issueSequence (p : Params) (n : ChanId) (req : Request) (w : Width) : List Micro :=
  (match req.kind with
    | .fill => [.run (.wrFill n (fillWord req.srcOrValue w)), .run (.wrSad n (p.regAddr n .fill))]
    | .copy => [.run (.wrSad n req.srcOrValue)])
  ++ [.run (.wrDad n req.dst), .run (.wrCnt n (issueWord req w)), .run .settleDelay]

/-- `check_request`, then the writes of the issue (R156, R157). -/
def issueRequest (n : ChanId) (req : Request) (s : State) : State :=
  match widthOfBytes req.width with
  | none => s.raise (.badWidth n req.width)
  | some w =>
    if 0x1FFFFF < req.len then s.raise (.lengthOutOfRange n req.len)
    else s.push (issueSequence s.params n req w)

/-- The façade's channel (R163): the lowest-priority one. -/
def facadeChannel : ChanId := 3

/-- `IS_BUSY n -> b` (R150). -/
def execIsBusy (n : ChanId) (s : State) : Outcome State Fault Refusal := .next (isBusyRead n s)

/-- `SETTLE_DELAY`: `TICK SETTLE_CYCLES` (R151). -/
def execSettleDelay (s : State) : Outcome State Fault Refusal :=
  .next (s.push (List.replicate s.params.settleCycles (.run .tick)))

/-- `WAIT_POLL n` (R152). -/
def execWaitPoll (n : ChanId) (s : State) : Outcome State Fault Refusal := .next (s.push (pollLoop n))

/-- `WAIT_IRQ n` (R153). -/
def execWaitIrq (n : ChanId) (s : State) : Outcome State Fault Refusal :=
  .next (if s.platIe.get n = false then s.raise (.irqWaitMisconfigured n .platform) else s.push (irqLoop n))

/-- `WAIT_FOR n` (R154). -/
def execWaitFor (n : ChanId) (s : State) : Outcome State Fault Refusal :=
  .next (s.push [match s.params.waitStrategy with
    | .poll => .run (.waitPoll n)
    | .irq => .run (.waitIrq n)])

/-- `ISSUE n, req` (R156). -/
def execIssue (n : ChanId) (req : Request) (s : State) : Outcome State Fault Refusal := .next (issueRequest n req s)

/-- `ISSUE_COPY n, src, dst, len, w` (R159). -/
def execIssueCopy (n : ChanId) (src dst : Word) (len w : Nat) (s : State) : Outcome State Fault Refusal :=
  .next (s.push [.run (.issue n (copyRequest src dst len w))])

/-- `ISSUE_FILL n, value, dst, len, w` (R161). -/
def execIssueFill (n : ChanId) (value dst : Word) (len w : Nat) (s : State) : Outcome State Fault Refusal :=
  .next (s.push [.run (.issue n (fillRequest value dst len w))])

/-- `COPY src, dst, nsrc, ndst, esize` (R163-R165). -/
def execCopy (src dst : Word) (nsrc ndst esize : Nat) (s : State) : Outcome State Fault Refusal :=
  .next (if widthOfBytes esize = none then s.raise (.badWidth facadeChannel esize)
    else s.push [.run (.waitFor facadeChannel),
      .run (.flushRange src (min nsrc ndst * esize)),
      .run (.flushRange dst (min nsrc ndst * esize)),
      .run (.invalidateRange dst (min nsrc ndst * esize)),
      .run (.issueCopy facadeChannel src dst (min nsrc ndst) esize)])

/-- `FILL value, dst, ndst, esize` (R166). -/
def execFill (value dst : Word) (ndst esize : Nat) (s : State) : Outcome State Fault Refusal :=
  .next (if widthOfBytes esize = none then s.raise (.badWidth facadeChannel esize)
    else s.push [.run (.waitFor facadeChannel),
      .run (.flushRange dst (ndst * esize)),
      .run (.invalidateRange dst (ndst * esize)),
      .run (.issueFill facadeChannel value dst ndst esize)])

/-- `CANCEL n`: `WR n.CNT, 0x00000000` (R168). -/
def execCancel (n : ChanId) (s : State) : Outcome State Fault Refusal :=
  .next (registerWrite n .cnt 0 (writeCnt n 0) s)

/-- `HALT` ends the requester's program (R99). -/
def execHalt (s : State) : Outcome State Fault Refusal := .next { s with halted := true }

end Sys2Proof.Machine
end

