-- ==== Sys2Proof/Machine/Events.lean ====
section
/-!
DEFINITION. The start-trigger events and TICK (spec/40_register_access.md R112, R113). No settle pre-check applies.
-/
namespace Sys2Proof.Machine

open Host

/-- `VBLANK_WAIT` ends at the first `TRIG 1` after the call (60_exceptions.md R189). -/
def endVblankWait (s : State) : State := if s.waiting = some .vblank then { s with waiting := none } else s

/-- `TRIG t` (R112): the trigger is delivered, and the event recorded (R117). -/
def triggerEvent (t : Trigger) (s : State) : State :=
  (deliverTrigger t s).logTransaction (trigOp t) none none s

/-- The settle delay of every channel goes one TICK down (R113). -/
def tickAll (s : State) : State := allChannels.foldl (fun s k => s.modChan k ChannelState.tickSettle) s

/-- `TRIG 1`, the vertical blank (R112, R189). -/
def execTrigVblank (s : State) : Outcome State Fault Refusal := .next (endVblankWait (triggerEvent .vblank s))

/-- `TRIG 2` (R112). -/
def execTrigHblank (s : State) : Outcome State Fault Refusal := .next (triggerEvent .hblank s)

/-- `TRIG 3` (R112). -/
def execTrigDispsync (s : State) : Outcome State Fault Refusal := .next (triggerEvent .dispsync s)

/-- `TRIG 4` (R112). -/
def execTrigMainmem (s : State) : Outcome State Fault Refusal := .next (triggerEvent .mainmem s)

/-- `TRIG 5` (R112). -/
def execTrigGamecard (s : State) : Outcome State Fault Refusal := .next (triggerEvent .gamecard s)

/-- `TRIG 6` (R112). -/
def execTrigAccessory (s : State) : Outcome State Fault Refusal := .next (triggerEvent .accessory s)

/-- `TRIG 7` (R112). -/
def execTrigGxfifo (s : State) : Outcome State Fault Refusal := .next (triggerEvent .gxfifo s)

/-- `TICK` (R113). -/
def execTick (s : State) : Outcome State Fault Refusal := .next ((tickAll s).logTransaction tickOp none none s)

end Sys2Proof.Machine
end

