-- ==== Sys2Proof/Machine/Platform.lean ====
section
/-!
DEFINITION. The platform calls of the protocol (spec/60_exceptions.md R187-R190; 30_encoding.md R101).
-/
namespace Sys2Proof.Machine

open Host

/-- The wait for the flag of channel n (R188): consumed at once if it is set, else the requester blocks. -/
def awaitIrq (n : ChanId) (s : State) : State :=
  if s.platIf.get n then { s with platIf := s.platIf.set n false }
  else { s with waiting := some (.int n) }

/-- `IRQ_ENABLE n` (R187). -/
def execIrqEnable (n : ChanId) (s : State) : Outcome State Fault Refusal :=
  .next { s with platIe := s.platIe.set n true }

/-- `IRQ_DISABLE n` (R187). -/
def execIrqDisable (n : ChanId) (s : State) : Outcome State Fault Refusal :=
  .next { s with platIe := s.platIe.set n false }

/-- `WAIT_INT n, next` (R188). -/
def execWaitInt (n : ChanId) (next : Bool) (s : State) : Outcome State Fault Refusal :=
  .next (awaitIrq n (if next then { s with platIf := s.platIf.set n false } else s))

/-- `VBLANK_WAIT` (R189): the requester blocks until the next `TRIG 1`. -/
def execVblankWait (s : State) : Outcome State Fault Refusal := .next { s with waiting := some .vblank }

/-- `FLUSH_RANGE a, len` (R190). -/
def execFlushRange (a : Word) (len : Nat) (s : State) : Outcome State Fault Refusal := .next (s.log (.flush a len))

/-- `INVALIDATE_RANGE a, len` (R190). -/
def execInvalidateRange (a : Word) (len : Nat) (s : State) : Outcome State Fault Refusal :=
  .next (s.log (.invalidate a len))

end Sys2Proof.Machine
end

