-- ==== Sys2Proof/Machine/Dispatch.lean ====
section
/-!
DEFINITION. One arm per instruction: each a direct call of its meaning.
-/
namespace Sys2Proof.Machine

def exec (i : Instr) (s : State) : Host.Outcome State Fault Refusal :=
  match i with
  -- register transactions
  | .rdSad n => Sys2Proof.Machine.execRdSad n s
  | .rdDad n => Sys2Proof.Machine.execRdDad n s
  | .rdCnt n => Sys2Proof.Machine.execRdCnt n s
  | .rdFill n => Sys2Proof.Machine.execRdFill n s
  | .wrSad n d => Sys2Proof.Machine.execWrSad n d s
  | .wrDad n d => Sys2Proof.Machine.execWrDad n d s
  | .wrCnt n d => Sys2Proof.Machine.execWrCnt n d s
  | .wrFill n d => Sys2Proof.Machine.execWrFill n d s
  -- events
  | .trigVblank => Sys2Proof.Machine.execTrigVblank s
  | .trigHblank => Sys2Proof.Machine.execTrigHblank s
  | .trigDispsync => Sys2Proof.Machine.execTrigDispsync s
  | .trigMainmem => Sys2Proof.Machine.execTrigMainmem s
  | .trigGamecard => Sys2Proof.Machine.execTrigGamecard s
  | .trigAccessory => Sys2Proof.Machine.execTrigAccessory s
  | .trigGxfifo => Sys2Proof.Machine.execTrigGxfifo s
  | .tick => Sys2Proof.Machine.execTick s
  -- pseudo-operations
  | .isBusy n => Sys2Proof.Machine.execIsBusy n s
  | .settleDelay => Sys2Proof.Machine.execSettleDelay s
  | .waitPoll n => Sys2Proof.Machine.execWaitPoll n s
  | .waitIrq n => Sys2Proof.Machine.execWaitIrq n s
  | .waitFor n => Sys2Proof.Machine.execWaitFor n s
  | .issue n req => Sys2Proof.Machine.execIssue n req s
  | .issueCopy n src dst len w => Sys2Proof.Machine.execIssueCopy n src dst len w s
  | .issueFill n value dst len w => Sys2Proof.Machine.execIssueFill n value dst len w s
  | .copy src dst nsrc ndst esize => Sys2Proof.Machine.execCopy src dst nsrc ndst esize s
  | .fill value dst ndst esize => Sys2Proof.Machine.execFill value dst ndst esize s
  | .cancel n => Sys2Proof.Machine.execCancel n s
  | .halt => Sys2Proof.Machine.execHalt s
  -- platform calls
  | .irqEnable n => Sys2Proof.Machine.execIrqEnable n s
  | .irqDisable n => Sys2Proof.Machine.execIrqDisable n s
  | .waitInt n next => Sys2Proof.Machine.execWaitInt n next s
  | .vblankWait => Sys2Proof.Machine.execVblankWait s
  | .flushRange a len => Sys2Proof.Machine.execFlushRange a len s
  | .invalidateRange a len => Sys2Proof.Machine.execInvalidateRange a len s

end Sys2Proof.Machine
end

