-- ==== Sys2Proof/Machine/Sequencer.lean ====
section
/-!
DEFINITION. The requester's sequencing (spec/10_state.md R33; 30_encoding.md R99): fetching a statement, running the
pieces of an expansion, ending waits and statements; and whose turn is next (00_scope.md R17).
-/
namespace Sys2Proof.Machine

open Host

/-- What follows a meaning: a function of the state it answers. -/
def thenDo (o : Outcome State Fault Refusal) (f : State → State) : Outcome State Fault Refusal :=
  match o with
  | .next s => .next (f s)
  | .fault r => .fault r
  | .refused r => .refused r

/-- A statement that has run to its end lets `rpc` advance by 1 (R33). -/
def retire (s : State) : State :=
  if s.active && s.todo.isEmpty && s.waiting.isNone then { s with active := false, rpc := s.rpc + 1 } else s

/-- The statement at `rpc` is started. -/
def State.begin (s : State) : State := { s with active := true }

/-- A statement that spells nothing (R40, R54, R93): the `refused` mark, and no other effect; the program goes on with the
next statement (DESIGN CHOICE, safe, log 25). -/
def State.refuseStatement (s : State) : State := { s with refused := true, rpc := s.rpc + 1 }

/-- The statement at `rpc` is decoded, its instruction runs, and its `-> x` binds the result (R33, R95, R99). What decodes
to no instruction sets `refused` (R40): a reserved code (R93), a refused front-end access (R54), and bytes that are no
transaction or a name with nothing to bind (DEDUCED, log 18). An access that is not the block's (R83) is refused by name
(log 17). A program that has run out has no further step. -/
def fetch (s : State) : Outcome State Fault Refusal :=
  match s.program[s.rpc]? with
  | none => .next s
  | some st =>
    match decodeStatement s.params st with
    | .ok i => thenDo (exec i s.begin) fun t => retire (t.bindName st.name i)
    | .error (.notTheBlocks a) => .refused (.notTheBlocks a)
    | .error _ => .next s.refuseStatement

/-- One piece of an expansion (R33). -/
def runMicro (m : Micro) (s : State) : Outcome State Fault Refusal :=
  match m with
  | .run i => exec i s
  | .pollCheck n => .next (pollCheck n s)
  | .irqCheck n => .next (irqCheck n s)

/-- A blocked requester (R183, R188, R189): a wait for an interrupt ends, and consumes the flag, when the flag is set;
a wait for the vertical blank ends at the `TRIG 1` itself. -/
def wake (w : Wait) (s : State) : State :=
  match w with
  | .vblank => s
  | .int n => if s.platIf.get n then retire { s with waiting := none, platIf := s.platIf.set n false } else s

/-- One turn of the requester. -/
def requesterStep (s : State) : Outcome State Fault Refusal :=
  if s.halted then .next s
  else match s.waiting with
    | some w => .next (wake w s)
    | none =>
      match s.todo with
      | [] => fetch s
      | m :: rest => thenDo (runMicro m { s with todo := rest }) retire

/-- Whose turn is next: the first of `turns`, or any agent (R17; log 3). -/
def State.nextAgent (s : State) : Agent :=
  match s.turns with
  | a :: _ => a
  | [] => Config.freeAgent s.draws

/-- The turn is taken: it leaves `turns` (or a free value is drawn), a step is counted, and the interrupt outputs are
low until the step pulses one (R184; log 20, 21). -/
def State.takeTurn (s : State) : State :=
  { s with
    turns := s.turns.tail
    draws := if s.turns.isEmpty then s.draws + 1 else s.draws
    clock := s.clock + 1
    irq := ⟨false, false, false, false⟩ }

/-- One turn of an agent. A turn of an agent that has no step changes nothing (R183; log 15). -/
def agentStep (a : Agent) (s : State) : Outcome State Fault Refusal :=
  match a with
  | .requester => requesterStep s
  | .engine => .next (engineStep s)
  | .environment t => thenDo (exec t.instr s) retire

/-- `st` is put at index `k` of a program; missing statements before it are HALT. -/
def putStatement (st : Statement) : Nat → List Statement → List Statement
  | 0, [] => [st]
  | 0, _ :: rest => st :: rest
  | k + 1, [] => .call .halt none :: putStatement st k []
  | k + 1, x :: rest => x :: putStatement st k rest

/-- The load that makes `st` what the next step fetches and runs: it stands at `rpc`, the requester is at a statement's
start, and the next turn is the requester's (log 9). -/
def State.withStatement (s : State) (st : Statement) : State :=
  { s with
    program := putStatement st s.rpc s.program
    active := false
    todo := []
    waiting := none
    halted := false
    turns := .requester :: s.turns }

end Sys2Proof.Machine
end

