-- ==== Sys2Proof/Machine/Step.lean ====
section
/-!
DEFINITION. One step of the machine (spec/00_scope.md R17): the next turn is taken by its agent.
-/
namespace Sys2Proof.Machine

/-- One step. -/
def step (s : State) : Host.Outcome State Fault Refusal := agentStep s.nextAgent s.takeTurn

/-- `s` with the instruction of bits `w` stored where `step` fetches its next instruction (log 9). -/
def State.withFetchWord (s : State) (nbits w : Nat) : State := s.withStatement (.code (bytesOfTableWord nbits w) none)

end Sys2Proof.Machine
end

