-- ==== Sys2Proof/WellFormed.lean ====
section
/-!
DEFINITION. Well-formedness. Every `Instr` is well formed: its operand types admit exactly the operands of
spec/30_encoding.md R95-R101 (a channel is 0..3, data is 32 bits; a wrong width or length is an operand the issuer
checks when it runs, R157). What can be ill formed is a statement and a choice of the parameters.
-/
namespace Sys2Proof

/-- A statement is well formed if it spells exactly one instruction under the parameters. -/
def Statement.wf (p : Params) (st : Statement) : Bool :=
  match decodeStatement p st with
  | .ok _ => true
  | .error _ => false

/-- R11, R205: the settle figure is at least 4. -/
def Params.settleOk (p : Params) : Bool := decide (4 ≤ p.settleCycles)

/-- R60: every register address is a multiple of 4. -/
def Params.addrsAligned (p : Params) : Bool :=
  allRegisters.all fun nr => decide ((p.regAddr nr.1 nr.2).toNat % 4 = 0)

/-- R60: the map is injective and the 4-byte ranges do not overlap. -/
def Params.addrsDisjoint (p : Params) : Bool :=
  allRegisters.all fun x => allRegisters.all fun y =>
    decide (x = y) || decide ((p.regAddr x.1 x.2).toNat + 4 ≤ (p.regAddr y.1 y.2).toNat)
      || decide ((p.regAddr y.1 y.2).toNat + 4 ≤ (p.regAddr x.1 x.2).toNat)

/-- R11: a trigger allows all units or a positive number of them. -/
def Units.positive : Units → Bool
  | .all => true
  | .atMost k => decide (0 < k)

/-- R11: every `UNITS_PER_TRIGGER(t)` is `all` or positive. -/
def Params.unitsOk (p : Params) : Bool :=
  [Trigger.vblank, .hblank, .dispsync, .mainmem, .gamecard, .accessory, .gxfifo].all fun t =>
    (p.unitsPerTrigger.get t).positive

/-- The parameters meet the constraints of R11 and R60. -/
def Params.wf (p : Params) : Bool :=
  p.settleOk && p.addrsAligned && p.addrsDisjoint && p.unitsOk

end Sys2Proof
end

