-- ==== Sys2Proof/Safety.lean ====
section
/-!
DEFINITION. The terms claims are stated in: faulted and final states (spec/60_exceptions.md R180, R199), stuck agents
(R183), the invariants (10_state.md R38), what an operation of one channel may change (R25, R116, R143), and runs of the
requester alone.
-/
namespace Sys2Proof.Machine

/-- A faulted state (R180). -/
def State.faulted (s : State) : Bool := !s.faults.isEmpty

/-- The end of a run (R199). -/
def State.final (s : State) : Bool :=
  s.halted && allChannels.all (fun n => !(s.chan n).enabled) && s.unitCh.isNone && s.faults.isEmpty && !s.refused

/-- The requester is stuck in a wait whose event has not come (R183). -/
def State.requesterBlocked (s : State) : Bool :=
  match s.waiting with
  | some .vblank => true
  | some (.int n) => !s.platIf.get n
  | none => false

/-- The engine has a next access, and it is not admitted (R61, R183). -/
def State.engineStuck (s : State) : Bool := (s.unitCh.isSome || s.selected.isSome) && !s.engineEnabled

/-- Byte `a` is one of those of the unit of width `w` at `u`, and the unit is in memory (R63). -/
def State.memoryUnit (s : State) (w : Width) (u : Word) (a : Nat) : Prop :=
  route s.params u = .memory ∧ ∃ j, j < widthBytes w ∧ a = byteAddr u j

/-- A transfer armed with `v` goes on from block to block at the address where the block before ended: it repeats, and its
blocks have units (R136, R138). -/
def State.goesOn (s : State) (v : Word) : Prop := repeats v = true ∧ ∃ count, countOf s.params v = some count ∧ 0 < count

/-- The armed transfer of channel n may come to its unit `k`, counted from the address `start` at which the current block
goes on or a later one begins (R134, R136). The current block has `remaining` units left. In IncrementReload every later
block has its `count` units from DAD; in the other modes the later blocks go on where the current one ends. -/
def State.unitAhead (s : State) (n : ChanId) (start : Word) (k : Nat) : Prop :=
  let v := (s.chan n).cnt
  start = (s.chan n).curDst ∧ (k < (s.chan n).remaining ∨ cntDstMode v ≠ .incrementReload ∧ s.goesOn v) ∨
  start = (s.chan n).dad &&& s.params.addrMask ∧ cntDstMode v = .incrementReload ∧ repeats v = true ∧
    ∃ count, countOf s.params v = some count ∧ k < count

/-- A byte that a unit of a still-armed transfer may yet write (R69): a byte of a unit ahead of a channel that is Armed and
was armed without fault, where that unit and every one before it in its row can be written to memory: the engine does not
get past a write that is not admitted (R61) or falls on a block register (R63, R15). -/
def State.mayBeWritten (s : State) (a : Nat) : Prop :=
  ∃ n start k, (s.chan n).enabled = true ∧ (s.chan n).armOk = true ∧ s.unitAhead n start k ∧
    let unit := fun i => (stepDst s.params (cntDstMode (s.chan n).cnt) (s.chan n).width)^[i] start
    s.memoryUnit (s.chan n).width (unit k) a ∧
      ∀ i, i ≤ k → route s.params (unit i) = .memory ∧ memAdmits s.params (unit i) (s.chan n).width = true

/-- What a read of one byte by the requester's own CPU, through no cache, may return (R69): the byte in memory, or, in a
race with a transfer that may yet write it, any value (log 23). -/
def State.requesterMayRead (s : State) (a : Nat) (v : Byte) : Prop := v = byteAt s.mem a ∨ s.mayBeWritten a

/-! Runs, and the six launch premises of 70_reset_and_hazards.md R203, each about a whole run (log 22). -/

/-- A run: each state is the step of the one before. -/
def IsRun (run : Nat → State) : Prop := ∀ i, step (run i) = .next (run (i + 1))

/-- P_FAIR: an engine step that stays enabled is taken (R17, R140). -/
def FairEngine (run : Nat → State) : Prop :=
  ∀ i, ∃ j, i ≤ j ∧ ((run j).nextAgent = .engine ∨ (run j).engineEnabled = false)

/-- P_VBLANK: `TRIG 1` comes infinitely often (R189). -/
def VblankRecurs (run : Nat → State) : Prop := ∀ i, ∃ j, i ≤ j ∧ (run j).nextAgent = .environment .vblank

/-- P_MEM: the engine is never stuck on an address that is not admitted (R61). -/
def MemoryAdmitted (run : Nat → State) : Prop := ∀ i, (run i).engineStuck = false

/-- The instruction the requester runs in the next step, if that step runs one: a piece of an expansion, or the statement
at `rpc` (R33). -/
def State.nextInstr (s : State) : Option Instr :=
  if s.nextAgent ≠ .requester ∨ s.halted = true ∨ s.waiting.isSome = true then none
  else match s.todo with
    | .run i :: _ => some i
    | _ :: _ => none
    | [] =>
      match (s.program[s.rpc]?).map (decodeStatement s.params) with
      | some (.ok i) => some i
      | _ => none

/-- The next step is an arming write of channel n with the word `d` (R110). -/
def State.armsNext (s : State) (n : ChanId) (d : Word) : Prop := s.nextInstr = some (.wrCnt n d) ∧ cntEnable d = true

/-- P_ADDR: SAD and DAD are written before the arming write of their channel (R158). -/
def AddressesWritten (run : Nat → State) : Prop :=
  ∀ i n d, (run i).armsNext n d → ((run i).chan n).sadW = true ∧ ((run i).chan n).dadW = true

/-- P_IRQ: under the interrupt strategy, `IRQ_ENABLE n` has been called before a `WAIT_IRQ n`, and still shows in the bit
that R153 tests. -/
def InterruptsEnabled (run : Nat → State) : Prop :=
  ∀ i n, (run i).params.waitStrategy = .irq → (run i).nextInstr = some (.waitIrq n) → (run i).platIe.get n = true

/-- Byte `a` is one of the `len` bytes from `b`: what a call of the cache maintenance covers (R75). -/
def covers (b : Word) (len a : Nat) : Prop := ∃ k, k < len ∧ a = byteAddr b k

/-- Byte `a` is in the buffer in memory that a transfer armed with `d` from `start` visits by `step` (R66, R67): the units
of one block, or, where the addresses `goOn` in later blocks, the units of all blocks that may come. R74 does not say which
bytes are the buffers of a repeating transfer: DESIGN CHOICE, safe (log 22), every byte that any block of it may visit. -/
def State.bufferByte (s : State) (d start : Word) (step : Word → Word) (goOn : Prop) (a : Nat) : Prop :=
  ∃ count k, countOf s.params d = some count ∧ (k < count ∨ goOn) ∧
    s.memoryUnit (cntWidth d) (step^[k] (start &&& s.params.addrMask)) a

/-- The source bytes of the transfer that `d` arms on channel n: a repeat does not take SAD again (R136). -/
def State.sourceByte (s : State) (n : ChanId) (d : Word) (a : Nat) : Prop :=
  ∃ m, cntSrcMode d = some m ∧ s.bufferByte d (s.chan n).sad (stepSrc s.params m (cntWidth d)) (s.goesOn d) a

/-- The destination bytes of the transfer that `d` arms on channel n: a repeat takes DAD again in IncrementReload only
(R136). -/
def State.destinationByte (s : State) (n : ChanId) (d : Word) (a : Nat) : Prop :=
  s.bufferByte d (s.chan n).dad (stepDst s.params (cntDstMode d) (cntWidth d))
    (cntDstMode d ≠ .incrementReload ∧ s.goesOn d) a

/-- A flush of byte `a` is among the entries of `events` from `s` to `t` (R190). -/
def flushedBetween (s t : State) (a : Nat) : Prop :=
  ∃ es b len, t.events = s.events ++ es ∧ .flush b len ∈ es ∧ covers b len a

/-- From `s` to `t`, a read of CNT[n] showed ENABLE = 0, as the last read of a wait does (R155), and after it byte `a` was
invalidated (R190). -/
def invalidatedAfterWait (n : ChanId) (s t : State) (a : Nat) : Prop :=
  ∃ es x fs is b len, t.events = s.events ++ es ++ [.transaction (regOp false n .cnt) none (some x) fs] ++ is ∧
    busyBit x = false ∧ .invalidate b len ∈ is ∧ covers b len a

/-- P_CACHE (R74), for a CPU that writes byte `a` through its cache at step `i` where `wrote i a` holds, and reads it where
`reads i a` holds (the CPU is outside the model, R5, log 23): every byte of a source buffer is flushed between the CPU's
write of it and the arming write, and every byte of a destination buffer is invalidated after the wait and before the CPU
reads it. The façade's own flushes count (R163). The buffers of a repeating transfer are those of all its blocks (the
model's choice, log 22). -/
def CachesMaintained (run : Nat → State) (wrote reads : Nat → Nat → Prop) : Prop :=
  (∀ i n d a, (run i).armsNext n d → (run i).sourceByte n d a →
    ∀ j, j ≤ i → wrote j a → flushedBetween (run j) (run i) a) ∧
  (∀ i n d a, (run i).armsNext n d → (run i).destinationByte n d a →
    ∀ j, i < j → reads j a → invalidatedAfterWait n (run i) (run j) a)

/-- No fault is recorded: the premise of every claim about a run (R180). -/
def NoFault (run : Nat → State) : Prop := ∀ i, (run i).faults = []

/-- The invariants of R38 for one channel. -/
structure ChannelState.Regular (c : ChannelState) : Prop where
  running_enabled : c.running = true → c.enabled = true
  idle : c.enabled = false → c.running = false ∧ c.budget = 0
  running_units : c.running = true → 1 ≤ c.remaining ∧ 1 ≤ c.budget

/-- A channel that was armed without fault passed the checks of R126, and its word has not changed since. -/
structure ChannelState.ArmedWell (c : ChannelState) (p : Params) : Prop where
  srcMode : cntSrcMode c.cnt ≠ none
  sadW : c.sadW = true
  dadW : c.dadW = true
  count : countOf p c.cnt ≠ none

/-- What holds of every channel. -/
structure ChannelState.Inv (c : ChannelState) (p : Params) : Prop where
  regular : c.Regular
  remaining_le : c.remaining ≤ 2 ^ 21
  settle_le : c.settle ≤ p.settleCycles
  running_armOk : c.running = true → c.armOk = true
  armedWell : c.enabled = true → c.armOk = true → c.ArmedWell p

/-- The invariant of the machine: R38, the ranges of R37, the unit in flight belongs to a running channel (R132, R141),
and memory and the table of names are in their canonical forms. -/
structure State.Inv (s : State) : Prop where
  units : s.params.unitsOk = true
  chans : ∀ n, (s.chan n).Inv s.params
  pending : ∀ n, s.unitCh = some n → (s.chan n).running = true
  mem : s.mem.wf
  names : rowsSorted s.names

/-- What an operation of channel n may change besides channel n, the pending unit, memory and the free-value counter:
nothing, but that faults and events grow (R25, R116, R143). -/
structure OnlyChannel (n : ChanId) (s t : State) : Prop where
  params : t.params = s.params
  program : t.program = s.program
  others : ∀ m, m ≠ n → t.chan m = s.chan m
  irqOthers : ∀ m, m ≠ n → t.irq.get m = s.irq.get m
  platIe : t.platIe = s.platIe
  platIfOthers : ∀ m, m ≠ n → t.platIf.get m = s.platIf.get m
  faults : s.faults <+: t.faults
  events : s.events <+: t.events
  refused : t.refused = s.refused
  rpc : t.rpc = s.rpc
  active : t.active = s.active
  todo : t.todo = s.todo
  waiting : t.waiting = s.waiting
  halted : t.halted = s.halted
  names : t.names = s.names
  lastBusy : t.lastBusy = s.lastBusy
  turns : t.turns = s.turns
  clock : t.clock = s.clock

/-- The pending unit, memory, the free-value counter and the latest read's result are as before. -/
structure SameUnit (s t : State) : Prop where
  unitCh : t.unitCh = s.unitCh
  unitData : t.unitData = s.unitData
  mem : t.mem = s.mem
  draws : t.draws = s.draws
  lastRead : t.lastRead = s.lastRead

/-- What lies outside the channels, the requester's own progress and the records is as before: the parameters, the
program, the pending unit, memory, the interrupt outputs, the platform bits, the program's names, and the marks of the
run. -/
structure SameOutside (s t : State) : Prop where
  params : t.params = s.params
  program : t.program = s.program
  unitCh : t.unitCh = s.unitCh
  unitData : t.unitData = s.unitData
  mem : t.mem = s.mem
  irq : t.irq = s.irq
  platIe : t.platIe = s.platIe
  platIf : t.platIf = s.platIf
  refused : t.refused = s.refused
  waiting : t.waiting = s.waiting
  halted : t.halted = s.halted
  names : t.names = s.names
  turns : t.turns = s.turns
  clock : t.clock = s.clock

/-- The channel and the opcode of a register transaction (R80). -/
def registerAccess : Instr → Option (ChanId × BitVec 6)
  | .rdSad n => some (n, regOp false n .sad)
  | .rdDad n => some (n, regOp false n .dad)
  | .rdCnt n => some (n, regOp false n .cnt)
  | .rdFill n => some (n, regOp false n .fill)
  | .wrSad n _ => some (n, regOp true n .sad)
  | .wrDad n _ => some (n, regOp true n .dad)
  | .wrCnt n _ => some (n, regOp true n .cnt)
  | .wrFill n _ => some (n, regOp true n .fill)
  | _ => none

/-- The operand of a register write; a read has none (R82). -/
def registerOperand : Instr → Option Word
  | .wrSad _ d => some d
  | .wrDad _ d => some d
  | .wrCnt _ d => some d
  | .wrFill _ d => some d
  | _ => none

/-- The registers of a channel as the requester wrote them: SAD, DAD, FILL and CNT[30:0], and their written bits. -/
def ChannelState.sameRegisters (c d : ChannelState) : Prop :=
  d.sad = c.sad ∧ d.dad = c.dad ∧ d.fill = c.fill ∧ d.conf = c.conf ∧ d.sadW = c.sadW ∧ d.dadW = c.dadW ∧
    d.fillW = c.fillW

/-- `k` turns of the requester with no other agent's turn between them. -/
def requesterTurns : Nat → State → Host.Outcome State Fault Refusal
  | 0, s => .next s
  | k + 1, s =>
    match requesterStep s with
    | .next t => requesterTurns k t
    | .fault r => .fault r
    | .refused r => .refused r

/-- The requester is at work on a statement: not halted, not blocked. -/
def State.requesterFree (s : State) : Prop := s.halted = false ∧ s.waiting = none

end Sys2Proof.Machine
end

