-- ==== Sys2Proof/Certificates/Slice0/Obligations.lean ====
section
/-!
DEFINITION. The statements for the provers. Each is a claim of spec/ about the block, its engine, the requester's
protocol or the machine as a whole; its docstring names the rule or rules it formalises.
-/
open Sys2Proof Sys2Proof.Machine Host

/-! ### Encoding -/

/-- R90: words written out from the opcode map decode to the instructions they stand for (the vectors OP-1 to OP-11,
with the operand bytes of log 8, and the word R97 writes out), a read with and without a name to bind (R95). -/
def Obligations.TransactionWordsDecode : Prop :=
  ∀ (p : Params) (x : Option LocalName),
    decodeStatement p (.code [0x00] x) = .ok (.rdSad 0) ∧
    decodeStatement p (.code [0x09] x) = .ok (.rdDad 2) ∧
    decodeStatement p (.code [0x0E] x) = .ok (.rdCnt 3) ∧
    decodeStatement p (.code [0x07] x) = .ok (.rdFill 1) ∧
    decodeStatement p (.code [0x1C, 0x00, 0x00, 0x00, 0x02] none) = .ok (.wrSad 3 0x02000000) ∧
    decodeStatement p (.code [0x16, 0x01, 0x00, 0x00, 0x80] none) = .ok (.wrCnt 1 0x80000001) ∧
    decodeStatement p (.code [0x1E, 0x0A, 0x00, 0x00, 0xC1] none) = .ok (.wrCnt 3 0xC100000A) ∧
    decodeStatement p (.code [0x13, 0xEF, 0xBE, 0xAD, 0xDE] none) = .ok (.wrFill 0 0xDEADBEEF) ∧
    decodeStatement p (.code [0x21] none) = .ok .trigVblank ∧
    decodeStatement p (.code [0x27] none) = .ok .trigGxfifo ∧
    decodeStatement p (.code [0x28] none) = .ok .tick

/-- R90, R94, R95, R97-R101: the statement that spells an instruction, and binds `x`, decodes to that instruction, for
every instruction and every operand; it keeps the name; and a name before an instruction that returns no value spells
none (log 18). -/
def Obligations.DecodeEncodeRoundTrip : Prop :=
  ∀ (p : Params) (i : Instr) (x : Option LocalName), (encode i x).name = x ∧
    (x = none ∨ returnsValue i = true → decodeStatement p (encode i x) = .ok i) ∧
    (∀ y, x = some y → returnsValue i = false → decodeStatement p (encode i x) = .error (.nothingToBind y))

/-- R91, R94, R95: an instruction has one code: bytes that decode to it, with whatever name they bind, are the bytes the
encoder gives it. -/
def Obligations.EncodeDecodeRoundTrip : Prop :=
  ∀ (p : Params) (bs : List Byte) (x : Option LocalName) (i : Instr),
    decodeStatement p (.code bs x) = .ok i → encode i x = .code bs x

/-- R92: the reserved transaction codes are 0x20 and 0x29–0x3F and no other, and the reserved code of the control word
is SMODE = 3 and no other. -/
def Obligations.ReservedCodes : Prop :=
  (∀ (p : Params) (op : BitVec 6) (rest : List Byte) (x : Option LocalName), op = 0x20 ∨ 0x29 ≤ op →
    decodeStatement p (.code (op.zeroExtend 8 :: rest) x) = .error (.reserved op)) ∧
  (∀ (p : Params) (op : BitVec 6), ¬ (op = 0x20 ∨ 0x29 ≤ op) →
    ∃ operand i, decodeStatement p (.code (codeBytes op operand) none) = .ok i) ∧
  (∀ v : Word, decodeControl v = none ↔ v.extractLsb' 23 2 = 3)

/-- R88: `decode(encode(w)) = w` for every control word, and `encode(decode(v)) = v` for every `v` with
`v[24:23] ≠ 3`. -/
def Obligations.ControlWordRoundTrip : Prop :=
  (∀ w : ControlWord, decodeControl (encodeControl w) = some w) ∧
  (∀ v : Word, v.extractLsb' 23 2 ≠ 3 → (decodeControl v).map encodeControl = some v)

/-- R54, R83: through the byte-address front end, a 4-byte access at a register's address is the register transaction;
any other access that touches a block register is refused; an access that touches none is not the block's (an access of
zero bytes touches the register it begins in: log 17). -/
def Obligations.BusFrontEnd : Prop :=
  ∀ p : Params, p.wf = true →
    (∀ n r, decodeBus p { addr := p.regAddr n r, size := 4, wdata := none } = .ok (readInstr n r) ∧
      ∀ d, decodeBus p { addr := p.regAddr n r, size := 4, wdata := some d } = .ok (writeInstr n r d)) ∧
    (∀ acc : BusAccess, (∃ n r, touches (p.regAddr n r) acc.addr acc.size = true) →
      ¬ (acc.size = 4 ∧ ∃ n r, p.regAddr n r = acc.addr) →
      decodeBus p acc = .error (.refusedAccess acc.addr acc.size)) ∧
    (∀ acc : BusAccess, (∀ n r, touches (p.regAddr n r) acc.addr acc.size = false) →
      decodeBus p acc = .error (.notTheBlocks acc.addr))

/-! ### Register transactions -/

/-- R105, R106: outside a settle period, `RD n.SAD` and `RD n.DAD` return a drawn value and change nothing but the record
of the transaction. The value is free (log 4): the statement holds of every one. -/
def Obligations.AddressReadsAreDrawn : Prop :=
  ∀ (s : State) (n : ChanId), s.settleHit n = false →
    exec (.rdSad n) s = .next { s with
      draws := s.draws + 1
      lastRead := some (Config.freeWord s.draws)
      events := s.events ++ [.transaction (regOp false n .sad) none (some (Config.freeWord s.draws)) []] } ∧
    exec (.rdDad n) s = .next { s with
      draws := s.draws + 1
      lastRead := some (Config.freeWord s.draws)
      events := s.events ++ [.transaction (regOp false n .dad) none (some (Config.freeWord s.draws)) []] }

/-- R107: outside a settle period, `RD n.CNT` returns a word whose bit 31 is the live ENABLE bit, whose bits 30:21 are
those of CNT[n] and whose bits 20:0 are drawn, and changes nothing but the record of the transaction. -/
def Obligations.CntReadShowsBusy : Prop :=
  ∀ (s : State) (n : ChanId), s.settleHit n = false →
    ∃ x : Word,
      exec (.rdCnt n) s = .next { s with
        draws := s.draws + 1
        lastRead := some x
        events := s.events ++ [.transaction (regOp false n .cnt) none (some x) []] } ∧
      x.getLsbD 31 = (s.chan n).enabled ∧
      (∀ i, 21 ≤ i → i < 31 → x.getLsbD i = (s.chan n).cnt.getLsbD i) ∧
      (∀ i, i < 21 → x.getLsbD i = (Config.freeWord s.draws).getLsbD i)

/-- R107 ("Idempotence of status read"): two reads of CNT in a row return the same bits 31:21 and leave every channel,
memory, the pending unit, the platform bits and the fault record as they were. -/
def Obligations.StatusReadIdempotent : Prop :=
  ∀ (s : State) (n : ChanId), s.settleHit n = false →
    ∃ t u x y, exec (.rdCnt n) s = .next t ∧ exec (.rdCnt n) t = .next u ∧
      t.lastRead = some x ∧ u.lastRead = some y ∧ (∀ i, 21 ≤ i → x.getLsbD i = y.getLsbD i) ∧
      u.chans = s.chans ∧ u.mem = s.mem ∧ u.unitCh = s.unitCh ∧ u.unitData = s.unitData ∧
      u.platIe = s.platIe ∧ u.platIf = s.platIf ∧ u.names = s.names ∧ u.faults = s.faults

/-- R108: outside a settle period, `RD n.FILL` returns the last value written, or raises UnwrittenRegister and returns
none; nothing else changes but the record of the transaction. -/
def Obligations.FillReadReturnsStored : Prop :=
  ∀ (s : State) (n : ChanId), s.settleHit n = false →
    ((s.chan n).fillW = true →
      exec (.rdFill n) s = .next { s with
        lastRead := some (s.chan n).fill
        events := s.events ++ [.transaction (regOp false n .fill) none (some (s.chan n).fill) []] }) ∧
    ((s.chan n).fillW = false →
      exec (.rdFill n) s = .next { s with
        lastRead := none
        faults := s.faults ++ [{ info := .unwrittenRegister n .fill, step := s.clock }]
        events := s.events ++ [.transaction (regOp false n .fill) none none
          [{ info := .unwrittenRegister n .fill, step := s.clock }]] })

/-- R109, R111: outside a settle period, `WR n.SAD, d`, `WR n.DAD, d` and `WR n.FILL, d` store all 32 bits of `d` and mark
the register written, on an Idle channel without a fault and on an Armed one with IssueOnBusy; no other field of the
channel changes (the transfer in flight keeps its addresses), no other channel, no memory, and nothing else. -/
def Obligations.RegisterWritesStore : Prop :=
  ∀ (s : State) (n : ChanId) (d : Word), s.settleHit n = false →
    (∃ t, exec (.wrSad n d) s = .next t ∧ t.chan n = { s.chan n with sad := d, sadW := true } ∧
      t.faults = s.faults ++ (if (s.chan n).enabled then [{ info := .issueOnBusy n .sad, step := s.clock }] else []) ∧
      t.irq = s.irq ∧ t.platIf = s.platIf ∧ SameUnit s t ∧ OnlyChannel n s t) ∧
    (∃ t, exec (.wrDad n d) s = .next t ∧ t.chan n = { s.chan n with dad := d, dadW := true } ∧
      t.faults = s.faults ++ (if (s.chan n).enabled then [{ info := .issueOnBusy n .dad, step := s.clock }] else []) ∧
      t.irq = s.irq ∧ t.platIf = s.platIf ∧ SameUnit s t ∧ OnlyChannel n s t) ∧
    (∃ t, exec (.wrFill n d) s = .next t ∧ t.chan n = { s.chan n with fill := d, fillW := true } ∧
      t.faults = s.faults ++ (if (s.chan n).enabled then [{ info := .issueOnBusy n .fill, step := s.clock }] else []) ∧
      t.irq = s.irq ∧ t.platIf = s.platIf ∧ SameUnit s t ∧ OnlyChannel n s t)

/-- R110: `WR n.CNT, d` with bit 31 = 0 on an Idle channel stores the configuration: CNT[n] reads as `d`, the channel
stays Idle, and nothing else of it or of the machine changes. -/
def Obligations.CntWriteConfigures : Prop :=
  ∀ (s : State) (n : ChanId) (d : Word), s.settleHit n = false → (s.chan n).enabled = false → cntEnable d = false →
    ∃ t, exec (.wrCnt n d) s = .next t ∧ (t.chan n).cnt = d ∧
      t.chan n = { s.chan n with conf := d.extractLsb' 0 31 } ∧ t.faults = s.faults ∧
      t.irq = s.irq ∧ t.platIf = s.platIf ∧ SameUnit s t ∧ OnlyChannel n s t

/-- R110, R126, R127: `WR n.CNT, d` with bit 31 = 1 on an Idle channel, with Immediate timing and none of the arming
faults. With a block of `count ≥ 1` units the channel is armed, latched, running and has its whole budget; with an empty
block (ZERO_COUNT = empty) it completes in the same step and is Idle. -/
def Obligations.ImmediateArming : Prop :=
  ∀ (s : State) (n : ChanId) (d : Word) (count : Nat), s.settleHit n = false → (s.chan n).enabled = false →
    cntEnable d = true → cntSrcMode d ≠ none → (s.chan n).sadW = true → (s.chan n).dadW = true →
    (cntRepeat d = false ∨ s.params.repeatImmediate = .oneShot) → cntTiming d = .immediate →
    countOf s.params d = some count →
    misaligned ((s.chan n).sad &&& s.params.addrMask) (cntWidth d) = false →
    misaligned ((s.chan n).dad &&& s.params.addrMask) (cntWidth d) = false →
    ∃ t, exec (.wrCnt n d) s = .next t ∧ t.faults = s.faults ∧ SameUnit s t ∧ OnlyChannel n s t ∧
      (count ≠ 0 → (t.chan n).cnt = d ∧ t.irq = s.irq ∧ t.platIf = s.platIf ∧
        t.chan n = { s.chan n with
          conf := d.extractLsb' 0 31
          enabled := true
          settle := s.params.settleCycles
          curSrc := (s.chan n).sad &&& s.params.addrMask
          curDst := (s.chan n).dad &&& s.params.addrMask
          remaining := count
          running := true
          budget := count
          armOk := true }) ∧
      (count = 0 →
        t.irq = (if cntIrq d then s.irq.set n true else s.irq) ∧
        t.platIf = (if cntIrq d then s.platIf.set n true else s.platIf) ∧
        t.chan n = { s.chan n with
          conf := d.extractLsb' 0 31
          enabled := false
          settle := s.params.settleCycles
          curSrc := (s.chan n).sad &&& s.params.addrMask
          curDst := (s.chan n).dad &&& s.params.addrMask
          remaining := 0
          running := false
          budget := 0
          armOk := true })

/-- R110, R126: the same arming with a trigger other than Immediate leaves the channel Armed and latched, not running:
it waits for its trigger. -/
def Obligations.TriggeredArmingWaits : Prop :=
  ∀ (s : State) (n : ChanId) (d : Word) (count : Nat), s.settleHit n = false → (s.chan n).enabled = false →
    cntEnable d = true → cntSrcMode d ≠ none → (s.chan n).sadW = true → (s.chan n).dadW = true →
    cntTiming d ≠ .immediate → countOf s.params d = some count →
    misaligned ((s.chan n).sad &&& s.params.addrMask) (cntWidth d) = false →
    misaligned ((s.chan n).dad &&& s.params.addrMask) (cntWidth d) = false →
    ∃ t, exec (.wrCnt n d) s = .next t ∧ t.faults = s.faults ∧ SameUnit s t ∧ OnlyChannel n s t ∧
      t.irq = s.irq ∧ t.platIf = s.platIf ∧ (t.chan n).cnt = d ∧
      t.chan n = { s.chan n with
        conf := d.extractLsb' 0 31
        enabled := true
        settle := s.params.settleCycles
        curSrc := (s.chan n).sad &&& s.params.addrMask
        curDst := (s.chan n).dad &&& s.params.addrMask
        remaining := count
        running := false
        budget := 0
        armOk := true }

/-- R126: an arming write on an Idle channel raises the first fault that applies, in the order reserved source mode,
unwritten SAD, unwritten DAD, repeat with Immediate, zero length, misaligned address, and only that one; the channel is
then Armed with `arm_ok = 0`, its settle delay set, and it is not started. -/
def Obligations.ArmingFaultOrder : Prop :=
  ∀ (s : State) (n : ChanId) (d : Word), s.settleHit n = false → (s.chan n).enabled = false → cntEnable d = true →
    let src := (s.chan n).sad &&& s.params.addrMask
    let dst := (s.chan n).dad &&& s.params.addrMask
    let raises := fun f : FaultInfo => ∃ t, exec (.wrCnt n d) s = .next t ∧
      t.faults = s.faults ++ [{ info := f, step := s.clock }] ∧ (t.chan n).cnt = d ∧ (t.chan n).enabled = true ∧
      (t.chan n).armOk = false ∧ (t.chan n).settle = s.params.settleCycles ∧
      (t.chan n).running = (s.chan n).running ∧ SameUnit s t ∧ OnlyChannel n s t
    if cntSrcMode d = none then raises (.reservedSourceMode n)
    else if (s.chan n).sadW = false then raises (.unwrittenRegister n .sad)
    else if (s.chan n).dadW = false then raises (.unwrittenRegister n .dad)
    else if cntRepeat d = true ∧ cntTiming d = .immediate ∧ s.params.repeatImmediate = .fault then
      raises (.repeatImmediate n)
    else if cntCount d = 0 ∧ s.params.zeroCount = .fault then raises (.zeroLengthIssue n)
    else misaligned src (cntWidth d) = true ∨ misaligned dst (cntWidth d) = true →
      raises (.misalignedTransfer n src dst)

/-- R110, R141: `WR n.CNT, d` with bit 31 = 0 on an Armed channel halts it in every case, without an interrupt pulse,
and raises UnsafeCancel exactly when the armed word had REPEAT = 0. A pending unit of another channel stays. One of this
channel is pending no more, and the next draw decides on it: on 1 it is written, to admitted memory, or with
DmaSelfAccess to a block register; on 0 it is dropped. The draw is free (log 4), a destination that is not admitted drops
the unit (log 14), and the write's entry precedes the transaction's (log 16). -/
def Obligations.CancellationHalts : Prop :=
  ∀ (s : State) (n : ChanId) (d : Word), s.settleHit n = false → (s.chan n).enabled = true → cntEnable d = false →
    ∃ t, exec (.wrCnt n d) s = .next t ∧ (t.chan n).cnt = d ∧
      t.chan n = { s.chan n with
        conf := d.extractLsb' 0 31
        enabled := false
        running := false
        budget := 0
        remaining := 0 } ∧
      t.irq = s.irq ∧ t.platIf = s.platIf ∧ OnlyChannel n s t ∧
      (let unsafeFaults := if cntRepeat (s.chan n).cnt then []
          else [({ info := .unsafeCancel n, step := s.clock } : FaultRecord)];
        let toMemory := Config.freeBit s.draws && decide (route s.params (s.chan n).curDst = .memory) &&
          memAdmits s.params (s.chan n).curDst (s.chan n).width;
        let toRegister := Config.freeBit s.draws && decide (route s.params (s.chan n).curDst ≠ .memory);
        let selfAccess := if toRegister then
            [({ info := .dmaSelfAccess (s.chan n).curDst, step := s.clock } : FaultRecord)] else [];
        let entry := Event.transaction (regOp true n .cnt) (some d) none (t.faults.drop s.faults.length);
        (s.unitCh ≠ some n → t.unitCh = s.unitCh ∧ t.mem = s.mem ∧ t.draws = s.draws ∧
          t.faults = s.faults ++ unsafeFaults ∧ t.events = s.events ++ [entry]) ∧
        (s.unitCh = some n → t.unitCh = none ∧ t.draws = s.draws + 1 ∧
          t.mem = (if toMemory then memWrite s.mem (s.chan n).curDst (s.chan n).width s.unitData else s.mem) ∧
          t.faults = s.faults ++ unsafeFaults ++ selfAccess ∧
          t.events = s.events ++
            (if toMemory then [.masterWrite (s.chan n).curDst (s.chan n).width s.unitData] else []) ++ [entry]))

/-- R110, R126, R141: `WR n.CNT, d` with bit 31 = 1 on an Armed channel records IssueOnBusy and overwrites the transfer:
the channel is armed anew, and left, signalled and faulted, as the same write leaves it on the Idle channel. A pending
unit of the channel is first decided on by the next draw: on 1 it is written, to admitted memory, or with DmaSelfAccess to
a block register; on 0 it is dropped (the draw is free, log 4; a destination that is not admitted, log 14). -/
def Obligations.RearmOverwrites : Prop :=
  ∀ (s : State) (n : ChanId) (d : Word), s.settleHit n = false → (s.chan n).enabled = true → cntEnable d = true →
    ∃ t u, exec (.wrCnt n d) s = .next t ∧
      exec (.wrCnt n d) (s.setChan n { s.chan n with enabled := false, running := false, budget := 0 }) = .next u ∧
      t.chan n = u.chan n ∧ t.irq = u.irq ∧ t.platIf = u.platIf ∧ OnlyChannel n s t ∧
      (let busy : List FaultRecord := [{ info := .issueOnBusy n .cnt, step := s.clock }];
        let arming := u.faults.drop s.faults.length;
        let toMemory := Config.freeBit s.draws && decide (route s.params (s.chan n).curDst = .memory) &&
          memAdmits s.params (s.chan n).curDst (s.chan n).width;
        let toRegister := Config.freeBit s.draws && decide (route s.params (s.chan n).curDst ≠ .memory);
        let selfAccess := if toRegister then
            [({ info := .dmaSelfAccess (s.chan n).curDst, step := s.clock } : FaultRecord)] else [];
        (s.unitCh ≠ some n → SameUnit s t ∧ t.faults = s.faults ++ busy ++ arming) ∧
        (s.unitCh = some n → t.unitCh = none ∧ t.draws = s.draws + 1 ∧
          t.mem = (if toMemory then memWrite s.mem (s.chan n).curDst (s.chan n).width s.unitData else s.mem) ∧
          t.faults = s.faults ++ busy ++ selfAccess ++ arming))

/-- R116: a register transaction with channel field n always answers a next state, and changes only channel n, the
pending unit when it belongs to n, the fault record and events: no other channel, no platform bit of another channel,
nothing of the requester but the value that a read returns. Memory and the pending unit change at most under `WR n.CNT`, with a unit
of n pending, and then at most the bytes of that unit at the channel's current destination. -/
def Obligations.RegisterTransactionIsolation : Prop :=
  ∀ (s : State) (i : Instr) (n : ChanId) (op : BitVec 6), registerAccess i = some (n, op) →
    ∃ t, exec i s = .next t ∧ OnlyChannel n s t ∧ t.unitData = s.unitData ∧
      ((registerOperand i).isSome = true → t.lastRead = s.lastRead) ∧
      (s.unitCh ≠ some n ∨ (∀ d, i ≠ .wrCnt n d) → t.unitCh = s.unitCh ∧ t.mem = s.mem) ∧
      (∀ b, (∀ k, k < widthBytes (s.chan n).width → b ≠ byteAddr (s.chan n).curDst k) →
        byteAt t.mem b = byteAt s.mem b)

/-- R114: a register transaction made while a settle delay covers it raises SettleViolation with its channel and
opcode, and has no other effect: it is recorded, and a read returns nothing to bind. -/
def Obligations.SettleViolationBlocks : Prop :=
  ∀ (s : State) (i : Instr) (n : ChanId) (op : BitVec 6), registerAccess i = some (n, op) →
    (s.params.settleScope = .sameChannel ∧ 0 < (s.chan n).settle ∨
      s.params.settleScope = .allChannels ∧ ∃ k, 0 < (s.chan k).settle) →
    exec i s = .next { s with
      faults := s.faults ++ [{ info := .settleViolation n op, step := s.clock }]
      events := s.events ++
        [.transaction op (registerOperand i) none [{ info := .settleViolation n op, step := s.clock }]]
      lastRead := if (registerOperand i).isSome then s.lastRead else none }

/-- R191, R117: one register transaction records at most three faults, and its entry, with its opcode, its operand or
result and the faults it raised, is the last one it adds to `events` (last: the model's choice, log 16). -/
def Obligations.TransactionFaultsRecorded : Prop :=
  ∀ (s : State) (i : Instr) (n : ChanId) (op : BitVec 6), registerAccess i = some (n, op) →
    ∃ t, exec i s = .next t ∧ s.faults <+: t.faults ∧ t.faults.length ≤ s.faults.length + 3 ∧
      ∃ caused, t.events = s.events ++ caused ++
        [.transaction op (registerOperand i) (if (registerOperand i).isSome then none else t.lastRead)
          (t.faults.drop s.faults.length)]

/-! ### Events -/

/-- R113: TICK takes one from every channel's settle counter that is not 0, raises nothing, and changes nothing else but
the record of the event. -/
def Obligations.TickCountsDown : Prop :=
  ∀ s : State, ∃ t, exec .tick s = .next t ∧
    (∀ k, t.chan k = { s.chan k with settle := max 0 ((s.chan k).settle - 1) }) ∧
    t = { s with chans := t.chans, events := s.events ++ [.transaction tickOp none none []] }

/-- R113, R142: TICK is the only thing that counts a settle delay down: in a step of any agent in which a settle counter
falls, it falls by one and the step ran a TICK. -/
def Obligations.OnlyTickSettles : Prop :=
  ∀ (s t : State) (a : Agent) (k : ChanId), agentStep a s = .next t → (t.chan k).settle < (s.chan k).settle →
    (t.chan k).settle + 1 = (s.chan k).settle ∧ t.events = s.events ++ [.transaction tickOp none none []]

/-- R112, R127, R128, R139: `TRIG t`, each of the seven trigger instructions, starts exactly the channels that are Armed,
armed without fault, waiting on `t` and not running, each with the units the trigger allows; a waiting channel with an
empty block completes instead, and pulses its interrupt if IRQ = 1. Nothing is written to memory or to the pending unit.
The pulses, in the order of the channels, and then the event, with the faults it raised, are recorded (the place of the
event's entry: log 16); it raises none unless a waiting channel reloads an empty block. A reload whose new destination is
misaligned raises, and that it is finished all the same is the model's reading (log 12). -/
def Obligations.TriggerStartsWaiting : Prop :=
  ∀ (s : State) (t : Trigger), ∃ u, exec t.instr s = .next u ∧
    (∀ n, ¬ ((s.chan n).enabled = true ∧ (s.chan n).armOk = true ∧ (s.chan n).timing = .on t ∧
        (s.chan n).running = false) →
      u.chan n = s.chan n ∧ u.irq.get n = s.irq.get n ∧ u.platIf.get n = s.platIf.get n) ∧
    (∀ n, (s.chan n).enabled = true → (s.chan n).armOk = true → (s.chan n).timing = .on t →
      (s.chan n).running = false →
      u.irq.get n = (s.irq.get n || (decide ((s.chan n).remaining = 0) && cntIrq (s.chan n).cnt)) ∧
      u.platIf.get n = (s.platIf.get n || (decide ((s.chan n).remaining = 0) && cntIrq (s.chan n).cnt)) ∧
      ((s.chan n).remaining ≠ 0 → u.chan n = { s.chan n with
        running := true
        budget := match s.params.unitsPerTrigger.get t with
          | .all => (s.chan n).remaining
          | .atMost k => min (s.chan n).remaining k }) ∧
      ((s.chan n).remaining = 0 → cntRepeat (s.chan n).cnt = false → u.chan n = (s.chan n).halt) ∧
      ((s.chan n).remaining = 0 → cntRepeat (s.chan n).cnt = true → ∀ count,
        countOf s.params (s.chan n).cnt = some count → u.chan n = { s.chan n with
          remaining := count
          curDst := if cntDstMode (s.chan n).cnt = .incrementReload then (s.chan n).dad &&& s.params.addrMask
            else (s.chan n).curDst
          running := false
          budget := 0 })) ∧
    SameUnit s u ∧ u.params = s.params ∧ u.program = s.program ∧ u.rpc = s.rpc ∧ u.todo = s.todo ∧
    u.halted = s.halted ∧ u.refused = s.refused ∧ u.platIe = s.platIe ∧ u.names = s.names ∧
    u.events = s.events ++
      ((allChannels.filter fun n =>
        (s.chan n).waitsOn t && decide ((s.chan n).remaining = 0) && cntIrq (s.chan n).cnt).map Event.irq) ++
      [.transaction (trigOp t) none none (u.faults.drop s.faults.length)] ∧
    s.faults <+: u.faults ∧
    ((∀ n, (s.chan n).waitsOn t = true → (s.chan n).remaining = 0 → cntRepeat (s.chan n).cnt = false) →
      u.faults = s.faults)

/-- R129: a `TRIG t` that finds no channel waiting on `t` has no effect but its record (and the end of a wait for the
vertical blank), so no later arming can see it; and a channel that is already running is left as it is. -/
def Obligations.TriggersAreNotLatched : Prop :=
  (∀ (s : State) (t : Trigger), (∀ n, (s.chan n).waitsOn t = false) →
    exec t.instr s = .next { s with
      events := s.events ++ [.transaction (trigOp t) none none []]
      waiting := if t = .vblank ∧ s.waiting = some .vblank then none else s.waiting }) ∧
  (∀ (s : State) (t : Trigger) (n : ChanId), (s.chan n).running = true →
    ∃ u, exec t.instr s = .next u ∧ u.chan n = s.chan n)

/-! ### The engine -/

/-- R131: with no unit pending, the channel served is the running channel with the lowest number, and a turn of the
engine leaves no unit pending but one of that channel; with none running the engine has no step. -/
def Obligations.LowestRunningIsServed : Prop :=
  ∀ s : State, s.unitCh = none →
    (∀ n, s.selected = some n ↔ (s.chan n).running = true ∧ ∀ m, m < n → (s.chan m).running = false) ∧
    ((engineStep s).unitCh = none ∨ (engineStep s).unitCh = s.selected) ∧
    ((∀ n, (s.chan n).running = false) → s.engineEnabled = false ∧ engineStep s = s)

/-- R133, R63: a `UNIT_READ` of the selected channel latches the memory value, or the bytes of a FILL register its
source address names; it raises UnwrittenRegister or DmaSelfAccess and does nothing else when the source is an unwritten
FILL or another block register. -/
def Obligations.UnitReadOutcomes : Prop :=
  ∀ (s : State) (n : ChanId), s.unitCh = none → s.selected = some n →
    let a := (s.chan n).curSrc
    let w := (s.chan n).width
    let latches := fun v : Word => engineStep s = { s with
      unitCh := some n, unitData := v, events := s.events ++ [.masterRead a w v] }
    (route s.params a = .memory → memAdmits s.params a w = true → latches (memRead s.mem a w)) ∧
    (∀ m, route s.params a = .fill m → (s.chan m).fillW = true →
      latches (fillBytes (s.chan m).fill (a.toNat - (s.params.regAddr m .fill).toNat) w)) ∧
    (∀ m, route s.params a = .fill m → (s.chan m).fillW = false →
      engineStep s = s.raise (.unwrittenRegister m .fill)) ∧
    (route s.params a = .ownRegister → engineStep s = s.raise (.dmaSelfAccess a))

/-- R63, R133: a source address that is `ADDR_MAP(m, FILL)` is routed to FILL[m], and its first unit is the low
halfword or the whole word of it, little-endian; the address two above gives the high halfword. -/
def Obligations.FillRouteReadsCell : Prop :=
  ∀ (p : Params) (m : ChanId), p.wf = true →
    let base := p.regAddr m .fill
    route p base = .fill m ∧ route p (base + 2) = .fill m ∧
    ∀ f : Word, fillBytes f (base.toNat - base.toNat) .half = (f.extractLsb' 0 16).zeroExtend 32 ∧
      fillBytes f (base.toNat - base.toNat) .word = f ∧
      fillBytes f ((base + 2).toNat - base.toNat) .half = (f.extractLsb' 16 16).zeroExtend 32

/-- R134, R130, R63: a `UNIT_WRITE` that is not the last of its block writes the pending value to memory at `cur_dst`,
steps both addresses, takes one from `remaining` and `budget`, and leaves the channel running unless the budget is out;
a destination that is a block register raises DmaSelfAccess and does nothing else. -/
def Obligations.UnitWriteOutcomes : Prop :=
  ∀ (s : State) (n : ChanId) (m : SrcMode), s.unitCh = some n → cntSrcMode (s.chan n).cnt = some m →
    let c := s.chan n
    (route s.params c.curDst = .memory → memAdmits s.params c.curDst c.width = true → 2 ≤ c.remaining →
      ∃ t, engineStep s = t ∧ t.mem = memWrite s.mem c.curDst c.width s.unitData ∧
        t.events = s.events ++ [.masterWrite c.curDst c.width s.unitData] ∧ t.unitCh = none ∧
        t.chan n = { c with
          curSrc := stepSrc s.params m c.width c.curSrc
          curDst := stepDst s.params (cntDstMode c.cnt) c.width c.curDst
          remaining := c.remaining - 1
          budget := c.budget - 1
          running := if c.budget - 1 = 0 then false else c.running } ∧
        t.faults = s.faults ∧ t.irq = s.irq ∧ t.platIf = s.platIf ∧ OnlyChannel n s t) ∧
    (route s.params c.curDst ≠ .memory → engineStep s = s.raise (.dmaSelfAccess c.curDst))

/-- R134, R135, R136, R139: the `UNIT_WRITE` of the last unit of a block writes memory and completes in the same step:
the interrupt output pulses exactly if IRQ = 1, and the channel is Idle, or, with REPEAT = 1 and a trigger other than
Immediate, stays Armed with its count reloaded (and its destination, for IncrementReload, with MisalignedTransfer when
the new one is misaligned), waiting for its trigger. -/
def Obligations.LastUnitCompletes : Prop :=
  ∀ (s : State) (n : ChanId) (m : SrcMode), s.unitCh = some n → cntSrcMode (s.chan n).cnt = some m →
    let c := s.chan n
    route s.params c.curDst = .memory → memAdmits s.params c.curDst c.width = true → c.remaining = 1 →
    ∃ t, engineStep s = t ∧ t.mem = memWrite s.mem c.curDst c.width s.unitData ∧ t.unitCh = none ∧ OnlyChannel n s t ∧
      t.irq = (if cntIrq c.cnt then s.irq.set n true else s.irq) ∧
      t.platIf = (if cntIrq c.cnt then s.platIf.set n true else s.platIf) ∧
      t.events = s.events ++ [.masterWrite c.curDst c.width s.unitData] ++ (if cntIrq c.cnt then [.irq n] else []) ∧
      (cntRepeat c.cnt = false ∨ c.timing = .immediate → t.faults = s.faults ∧ t.chan n = { c with
        curSrc := stepSrc s.params m c.width c.curSrc
        curDst := stepDst s.params (cntDstMode c.cnt) c.width c.curDst
        enabled := false
        running := false
        budget := 0
        remaining := 0 }) ∧
      (cntRepeat c.cnt = true → c.timing ≠ .immediate → ∀ count, countOf s.params c.cnt = some count →
        t.faults = s.faults ++ (if cntDstMode c.cnt = .incrementReload ∧
            misaligned (c.dad &&& s.params.addrMask) c.width = true
          then [{ info := .misalignedTransfer n (stepSrc s.params m c.width c.curSrc) (c.dad &&& s.params.addrMask)
                  step := s.clock }] else []) ∧
        t.chan n = { c with
          curSrc := stepSrc s.params m c.width c.curSrc
          curDst := if cntDstMode c.cnt = .incrementReload then c.dad &&& s.params.addrMask
            else stepDst s.params (cntDstMode c.cnt) c.width c.curDst
          remaining := count
          running := false
          budget := 0 })

/-- R57, R66, R53: the two steps of a unit, with nothing between them, move the unit: every byte of the destination unit
is then the byte of the source unit as it was, and every other byte of memory is as before. -/
def Obligations.UnitMovesItsBytes : Prop :=
  ∀ (s : State) (n : ChanId), s.unitCh = none → s.selected = some n → cntSrcMode (s.chan n).cnt ≠ none →
    let c := s.chan n
    route s.params c.curSrc = .memory → memAdmits s.params c.curSrc c.width = true →
    route s.params c.curDst = .memory → memAdmits s.params c.curDst c.width = true →
    let t := engineStep (engineStep s)
    (∀ k, k < widthBytes c.width → byteAt t.mem (byteAddr c.curDst k) = byteAt s.mem (byteAddr c.curSrc k)) ∧
    (∀ b, (∀ k, k < widthBytes c.width → b ≠ byteAddr c.curDst k) → byteAt t.mem b = byteAt s.mem b)

/-- R143, R132: a turn of the engine changes only the channel it serves (the pending unit's, or else the selected one),
the pending unit, memory, events and the fault record: a preempted channel keeps its whole state, and nothing of the
requester changes. With neither a pending unit nor a running channel nothing changes at all. -/
def Obligations.EngineIsolation : Prop :=
  ∀ s : State,
    (∀ n, s.unitCh = some n ∨ s.unitCh = none ∧ s.selected = some n →
      OnlyChannel n s (engineStep s) ∧ (engineStep s).draws = s.draws ∧ (engineStep s).lastRead = s.lastRead) ∧
    (s.unitCh = none → s.selected = none → engineStep s = s)

/-- R155, R134: no turn of the engine writes a register, touches a settle counter or sets ENABLE: only the requester
writes CNT, and the engine can only clear bit 31. -/
def Obligations.EngineNeverArms : Prop :=
  ∀ (s : State) (k : ChanId), (s.chan k).sameRegisters ((engineStep s).chan k) ∧
    ((engineStep s).chan k).settle = (s.chan k).settle ∧
    (((engineStep s).chan k).enabled = true → (s.chan k).enabled = true)

/-- R61, R140: the engine has a step exactly when a unit is pending and its write is admitted, or none is pending and
the selected channel's read is admitted, where an access to a block register counts as admitted; with a step a turn of
the engine changes the state, and without one it changes nothing. (A pending unit's source mode is not the reserved code,
R126, log 13.) -/
def Obligations.EngineEnabledness : Prop :=
  ∀ s : State,
    (∀ n, s.unitCh = some n → cntSrcMode (s.chan n).cnt ≠ none →
      (s.engineEnabled = true ↔ route s.params (s.chan n).curDst ≠ .memory ∨
        memAdmits s.params (s.chan n).curDst (s.chan n).width = true)) ∧
    (s.unitCh = none → (s.engineEnabled = true ↔ ∃ n, s.selected = some n ∧
      (route s.params (s.chan n).curSrc ≠ .memory ∨ memAdmits s.params (s.chan n).curSrc (s.chan n).width = true))) ∧
    (s.engineEnabled = true → engineStep s ≠ s) ∧
    (s.engineEnabled = false → engineStep s = s)

/-- R53: byte order is little-endian: byte k of a value stands at address a + k in a write and in a read of either
width, a write leaves every other byte alone, and a 2-byte read of a register gives bits 15:0 at its base and bits
31:16 two above. -/
def Obligations.LittleEndianAccesses : Prop :=
  (∀ (m : Memory) (a : Word) (w : Width) (v : Word),
    (∀ k, k < widthBytes w → byteAt (memWrite m a w v) (byteAddr a k) = byteOf v k) ∧
    (∀ b, (∀ k, k < widthBytes w → b ≠ byteAddr a k) → byteAt (memWrite m a w v) b = byteAt m b) ∧
    (∀ k, k < widthBytes w → byteOf (memRead m a w) k = byteAt m (byteAddr a k)) ∧
    memRead (memWrite m a w v) a w = (match w with | .half => (v.extractLsb' 0 16).zeroExtend 32 | .word => v)) ∧
  (∀ f : Word, fillBytes f 0 .half = (f.extractLsb' 0 16).zeroExtend 32 ∧
    fillBytes f 2 .half = (f.extractLsb' 16 16).zeroExtend 32)

/-! ### Invariants and whole-machine rules -/

/-- The invariant holds at reset (R200; the parameters at reset are their defaults, log 6 and 7). -/
def Obligations.ResetSatisfiesInvariant : Prop := State.reset.Inv

/-- R38: the invariants the rules keep. For every state with the invariant (the three clauses of R38, the ranges of R37,
a pending unit belongs to a running channel, memory in its canonical form), whatever step it takes, the state after it
has the invariant, and the three clauses of R38 hold of every channel there. -/
def Obligations.StepsKeepInvariant : Prop :=
  ∀ s t : State, s.Inv → step s = .next t → t.Inv ∧
    ∀ n, ((t.chan n).running = true → (t.chan n).enabled = true) ∧
      ((t.chan n).enabled = false → (t.chan n).running = false ∧ (t.chan n).budget = 0) ∧
      ((t.chan n).running = true → 1 ≤ (t.chan n).remaining ∧ 1 ≤ (t.chan n).budget)

/-- R43: no step changes any parameter, nor the requester's program. -/
def Obligations.ParametersAreConstant : Prop :=
  ∀ s t : State, step s = .next t → t.params = s.params ∧ t.program = s.program

/-- R180, R182, R40: the fault record and the event history only grow, and the refused mark is sticky: so a faulted or
refused state is followed by faulted or refused states only, and none of them is final. -/
def Obligations.FaultsAreSticky : Prop :=
  ∀ s t : State, step s = .next t →
    s.faults <+: t.faults ∧ s.events <+: t.events ∧ (s.refused = true → t.refused = true) ∧
    (s.faulted = true ∨ s.refused = true → t.final = false)

/-- R58, R67: address stepping keeps alignment: an address that is a multiple of the width stays one, in every mode and
under every mask. -/
def Obligations.SteppingKeepsAlignment : Prop :=
  ∀ (p : Params) (w : Width) (a : Word), misaligned a w = false →
    (∀ m, misaligned (stepSrc p m w a) w = false) ∧ (∀ m, misaligned (stepDst p m w a) w = false)

/-! ### The driver protocol -/

/-- R150: outside a settle period, `IS_BUSY n` reads CNT[n] once and returns bit 31 of what the read returned, the live
ENABLE bit; nothing else changes but the record of the read. Inside a settle period that covers it the read raises
SettleViolation and is recorded, neither the read nor `IS_BUSY` returns a value (log 11), and nothing else changes. -/
def Obligations.IsBusyReadsEnable : Prop :=
  ∀ (s : State) (n : ChanId),
    (s.settleHit n = false → ∃ x : Word, x.getLsbD 31 = (s.chan n).enabled ∧
      exec (.isBusy n) s = .next { s with
        draws := s.draws + 1
        lastRead := some x
        lastBusy := some (s.chan n).enabled
        events := s.events ++ [.transaction (regOp false n .cnt) none (some x) []] }) ∧
    (s.params.settleScope = .sameChannel ∧ 0 < (s.chan n).settle ∨
        s.params.settleScope = .allChannels ∧ (∃ k, 0 < (s.chan k).settle) →
      exec (.isBusy n) s = .next { s with
        faults := s.faults ++ [{ info := .settleViolation n (regOp false n .cnt), step := s.clock }]
        lastRead := none
        lastBusy := none
        events := s.events ++ [.transaction (regOp false n .cnt) none none
          [{ info := .settleViolation n (regOp false n .cnt), step := s.clock }]] })

/-- R151: `SETTLE_DELAY` is SETTLE_CYCLES TICKs: after as many turns of the requester every settle counter has fallen by
SETTLE_CYCLES, so every one set before it is 0, and no fault has been raised. -/
def Obligations.SettleDelayElapses : Prop :=
  ∀ s : State, s.requesterFree →
    ∃ t u, exec .settleDelay s = .next t ∧ requesterTurns s.params.settleCycles t = .next u ∧
      (∀ k, u.chan k = { s.chan k with settle := (s.chan k).settle - s.params.settleCycles }) ∧
      u.todo = s.todo ∧ u.faults = s.faults ∧ SameOutside s u

/-- R152, R155: `WAIT_POLL n`: its read and its decision take two turns of the requester. Outside a settle period it
returns exactly if the read showed ENABLE = 0, and else goes on to VBLANK_WAIT and the loop again. Inside one its read
raises SettleViolation, shows no bit, and the loop goes on (log 11). No channel changes. And whatever the state, its
decision lets it return only after a read that showed 0. -/
def Obligations.WaitPollReturnsWhenIdle : Prop :=
  (∀ (s : State) (n : ChanId), s.requesterFree →
    ∃ t u, exec (.waitPoll n) s = .next t ∧ requesterTurns 2 t = .next u ∧ u.chans = s.chans ∧ SameOutside s u ∧
      u.faults = s.faults ++
        (if s.settleHit n then [{ info := .settleViolation n (regOp false n .cnt), step := s.clock }] else []) ∧
      u.todo = (if s.settleHit n = false ∧ (s.chan n).enabled = false then []
        else [.run .vblankWait, .run (.isBusy n), .pollCheck n]) ++ s.todo) ∧
  (∀ (s u : State) (n : ChanId), runMicro (.pollCheck n) s = .next u →
    (u.todo = s.todo ∧ s.lastBusy = some false) ∨ u.todo = [.run .vblankWait, .run (.isBusy n), .pollCheck n] ++ s.todo)

/-- R153: `WAIT_IRQ n` raises IrqWaitMisconfigured and returns when the platform's enable bit is clear. Otherwise its read
and its decision take two turns. Outside a settle period it returns if the channel is Idle, raises IrqWaitMisconfigured
and returns if it was armed without an interrupt request, and else waits for the interrupt and loops. Inside one its read
raises SettleViolation, neither test can end the wait (R155), and it waits for the interrupt and loops (log 11). -/
def Obligations.WaitIrqChecksAndLoops : Prop :=
  ∀ (s : State) (n : ChanId),
    (s.platIe.get n = false → exec (.waitIrq n) s = .next (s.raise (.irqWaitMisconfigured n .platform))) ∧
    (s.platIe.get n = true → s.requesterFree → s.settleHit n = true →
      ∃ t u, exec (.waitIrq n) s = .next t ∧ requesterTurns 2 t = .next u ∧ u.chans = s.chans ∧ SameOutside s u ∧
        u.faults = s.faults ++ [{ info := .settleViolation n (regOp false n .cnt), step := s.clock }] ∧
        u.todo = [.run (.waitInt n false), .run (.rdCnt n), .irqCheck n] ++ s.todo) ∧
    (s.platIe.get n = true → s.requesterFree → s.settleHit n = false →
      ∃ t u, exec (.waitIrq n) s = .next t ∧ requesterTurns 2 t = .next u ∧ u.chans = s.chans ∧ SameOutside s u ∧
        ((s.chan n).enabled = false → u.todo = s.todo ∧ u.faults = s.faults) ∧
        ((s.chan n).enabled = true → cntIrq (s.chan n).cnt = false → u.todo = s.todo ∧
          u.faults = s.faults ++ [{ info := .irqWaitMisconfigured n .noRequest, step := s.clock }]) ∧
        ((s.chan n).enabled = true → cntIrq (s.chan n).cnt = true → u.faults = s.faults ∧
          u.todo = [.run (.waitInt n false), .run (.rdCnt n), .irqCheck n] ++ s.todo))

/-- R154: `WAIT_FOR n` is `WAIT_POLL n` under WAIT_STRATEGY = poll and `WAIT_IRQ n` under irq: the requester's next turn
runs that instruction on the state `WAIT_FOR` found, and ends the statement if nothing is left of it. -/
def Obligations.WaitForFollowsStrategy : Prop :=
  ∀ (s : State) (n : ChanId), s.requesterFree →
    ∃ t, exec (.waitFor n) s = .next t ∧
      (s.params.waitStrategy = .poll → requesterStep t = thenDo (exec (.waitPoll n) s) retire) ∧
      (s.params.waitStrategy = .irq → requesterStep t = thenDo (exec (.waitIrq n) s) retire)

/-- R157: the issuer rejects a width other than 2 or 4 with BadWidth, and a length above 0x1FFFFF with LengthOutOfRange,
before any register is written: nothing but the fault record changes, and nothing is left to run. -/
def Obligations.IssuerRejectsBadRequests : Prop :=
  ∀ (s : State) (n : ChanId) (req : Request),
    (req.width ≠ 2 → req.width ≠ 4 → exec (.issue n req) s = .next (s.raise (.badWidth n req.width))) ∧
    (req.width = 2 ∨ req.width = 4 → 0x1FFFFF < req.len →
      exec (.issue n req) s = .next (s.raise (.lengthOutOfRange n req.len)))

/-- R156, R158, R162: an accepted `ISSUE` goes on to the register writes in the order FILL (fill only), SAD, DAD, CNT
and then the settle delay; the control word has ENABLE and IRQ set, no repeat, Immediate timing, and the request's
width, modes and length. -/
def Obligations.IssueWritesInOrder : Prop :=
  ∀ (s : State) (n : ChanId) (req : Request) (w : Width),
    (w = .half ∧ req.width = 2 ∨ w = .word ∧ req.width = 4) → req.len ≤ 0x1FFFFF →
    ∃ word : Word,
      decodeControl word = some
        { enabled := true, interruptRequest := true, repeats := false, startTrigger := .immediate, transferWidth := w,
          sourceMode := req.srcMode, destinationMode := req.dstMode, length := BitVec.ofNat 21 req.len } ∧
      (req.kind = .copy → exec (.issue n req) s = .next { s with
        todo := [.run (.wrSad n req.srcOrValue), .run (.wrDad n req.dst), .run (.wrCnt n word), .run .settleDelay]
          ++ s.todo }) ∧
      (req.kind = .fill → ∃ value : Word,
        (w = .half → value = (req.srcOrValue.extractLsb' 0 16).zeroExtend 32) ∧ (w = .word → value = req.srcOrValue) ∧
        exec (.issue n req) s = .next { s with
          todo := [.run (.wrFill n value), .run (.wrSad n (s.params.regAddr n .fill)), .run (.wrDad n req.dst),
            .run (.wrCnt n word), .run .settleDelay] ++ s.todo })

/-- R159, R156, R126: `ISSUE_COPY n, src, dst, len, w` is the ISSUE of a copy request: the requester's next turn runs it
on the state found. On an Idle channel outside a settle period, with an admissible width, length and aligned addresses:
after the four turns of its expansion up to the arming write, the channel is armed and running with the addresses and
the count of the request, in Increment/Increment mode, and no fault has been raised. -/
def Obligations.IssueCopyArmsTransfer : Prop :=
  (∀ (s : State) (n : ChanId) (src dst : Word) (len w : Nat), s.requesterFree →
    ∃ t, exec (.issueCopy n src dst len w) s = .next t ∧
      requesterStep t = thenDo (exec (.issue n
        { kind := .copy, srcOrValue := src, dst := dst, len := len, width := w, srcMode := .increment,
          dstMode := .increment }) s) retire) ∧
  (∀ (s : State) (n : ChanId) (src dst : Word) (len : Nat) (w : Width), s.requesterFree → s.settleHit n = false →
    (s.chan n).enabled = false → 1 ≤ len → len ≤ 0x1FFFFF →
    misaligned (src &&& s.params.addrMask) w = false → misaligned (dst &&& s.params.addrMask) w = false →
    ∃ t u, exec (.issueCopy n src dst len (widthBytes w)) s = .next t ∧ requesterTurns 4 t = .next u ∧
      u.faults = s.faults ∧ SameOutside s u ∧ (∀ m, m ≠ n → u.chan m = s.chan m) ∧
      u.todo = .run .settleDelay :: s.todo ∧
      (u.chan n).enabled = true ∧ (u.chan n).armOk = true ∧ (u.chan n).running = true ∧
      (u.chan n).sad = src ∧ (u.chan n).dad = dst ∧
      (u.chan n).curSrc = src &&& s.params.addrMask ∧ (u.chan n).curDst = dst &&& s.params.addrMask ∧
      (u.chan n).remaining = len ∧ (u.chan n).budget = len ∧ (u.chan n).settle = s.params.settleCycles ∧
      (u.chan n).width = w ∧ cntSrcMode (u.chan n).cnt = some .increment ∧ cntDstMode (u.chan n).cnt = .increment ∧
      cntIrq (u.chan n).cnt = true ∧ cntRepeat (u.chan n).cnt = false)

/-- R161, R162, R158: `ISSUE_FILL n, value, dst, len, w` is the ISSUE of a fill request: the requester's next turn runs it
on the state found. On an Idle channel outside a settle period, with an admissible width and length, an aligned
destination and an aligned FILL address: after the five turns of its expansion up to the arming write, FILL[n] holds the
fill word, SAD[n] the address of FILL[n], and the channel is armed and running in Fixed/Increment mode, with no fault
raised. -/
def Obligations.IssueFillArmsTransfer : Prop :=
  (∀ (s : State) (n : ChanId) (value dst : Word) (len w : Nat), s.requesterFree →
    ∃ t, exec (.issueFill n value dst len w) s = .next t ∧
      requesterStep t = thenDo (exec (.issue n
        { kind := .fill, srcOrValue := value, dst := dst, len := len, width := w, srcMode := .fixed,
          dstMode := .increment }) s) retire) ∧
  (∀ (s : State) (n : ChanId) (value dst : Word) (len : Nat) (w : Width), s.requesterFree → s.settleHit n = false →
    (s.chan n).enabled = false → 1 ≤ len → len ≤ 0x1FFFFF →
    misaligned (s.params.regAddr n .fill &&& s.params.addrMask) w = false →
    misaligned (dst &&& s.params.addrMask) w = false →
    ∃ t u, exec (.issueFill n value dst len (widthBytes w)) s = .next t ∧ requesterTurns 5 t = .next u ∧
      u.faults = s.faults ∧ SameOutside s u ∧ (∀ m, m ≠ n → u.chan m = s.chan m) ∧
      u.todo = .run .settleDelay :: s.todo ∧
      (u.chan n).enabled = true ∧ (u.chan n).armOk = true ∧ (u.chan n).running = true ∧
      (u.chan n).fill = (match w with | .half => (value.extractLsb' 0 16).zeroExtend 32 | .word => value) ∧
      (u.chan n).fillW = true ∧ (u.chan n).sad = s.params.regAddr n .fill ∧ (u.chan n).dad = dst ∧
      (u.chan n).curSrc = s.params.regAddr n .fill &&& s.params.addrMask ∧
      (u.chan n).curDst = dst &&& s.params.addrMask ∧
      (u.chan n).remaining = len ∧ (u.chan n).budget = len ∧ (u.chan n).settle = s.params.settleCycles ∧
      (u.chan n).width = w ∧ cntSrcMode (u.chan n).cnt = some .fixed ∧ cntDstMode (u.chan n).cnt = .increment ∧
      cntIrq (u.chan n).cnt = true ∧ cntRepeat (u.chan n).cnt = false)

/-- R165: an element size other than 2 or 4 makes `COPY` and `FILL` raise `BadWidth(3, esize)` before they wait or
write anything. -/
def Obligations.FacadeRejectsElementSize : Prop :=
  ∀ (s : State) (esize : Nat), esize ≠ 2 → esize ≠ 4 →
    (∀ src dst nsrc ndst, exec (.copy src dst nsrc ndst esize) s = .next (s.raise (.badWidth 3 esize))) ∧
    (∀ value dst ndst, exec (.fill value dst ndst esize) s = .next (s.raise (.badWidth 3 esize)))

/-- R163, R164, R166: with an element size of 2 or 4, `COPY` waits for channel 3, flushes the source, flushes and
invalidates the destination, and issues a copy of `min(nsrc, ndst)` units on channel 3; `FILL` waits, flushes and
invalidates the destination, and issues a fill of `ndst` units. -/
def Obligations.FacadeSequences : Prop :=
  ∀ (s : State) (esize : Nat), esize = 2 ∨ esize = 4 →
    (∀ src dst nsrc ndst, exec (.copy src dst nsrc ndst esize) s = .next { s with
      todo := [.run (.waitFor 3), .run (.flushRange src (min nsrc ndst * esize)),
        .run (.flushRange dst (min nsrc ndst * esize)), .run (.invalidateRange dst (min nsrc ndst * esize)),
        .run (.issueCopy 3 src dst (min nsrc ndst) esize)] ++ s.todo }) ∧
    (∀ value dst ndst, exec (.fill value dst ndst esize) s = .next { s with
      todo := [.run (.waitFor 3), .run (.flushRange dst (ndst * esize)), .run (.invalidateRange dst (ndst * esize)),
        .run (.issueFill 3 value dst ndst esize)] ++ s.todo })

/-- R168: `CANCEL n` is `WR n.CNT, 0x00000000`: outside a settle period it leaves the channel Idle with CNT[n] = 0,
raises UnsafeCancel exactly on an Armed channel whose word had REPEAT = 0 (and, with no unit of n pending, nothing
else), and pulses no interrupt. -/
def Obligations.CancelWritesZero : Prop :=
  ∀ (s : State) (n : ChanId),
    ∃ t, exec (.cancel n) s = .next t ∧ exec (.wrCnt n 0) s = .next t ∧ OnlyChannel n s t ∧
      (s.settleHit n = false → (t.chan n).enabled = false ∧ (t.chan n).cnt = 0 ∧ t.irq = s.irq ∧ t.platIf = s.platIf ∧
        (s.unitCh ≠ some n → t.faults = s.faults ++
          (if (s.chan n).enabled = true ∧ cntRepeat (s.chan n).cnt = false
            then [{ info := .unsafeCancel n, step := s.clock }] else [])))

/-- R99, R199: `HALT` ends the requester's program and changes nothing else; a state is at the end of a run exactly if
the requester has executed HALT, every channel is Idle, no unit is pending, no fault is recorded and `refused` is
clear; and a halted requester takes no further step. -/
def Obligations.HaltAndFinalState : Prop :=
  (∀ s : State, exec .halt s = .next { s with halted := true }) ∧
  (∀ s : State, s.final = true ↔ s.halted = true ∧ (∀ n, (s.chan n).enabled = false) ∧ s.unitCh = none ∧
    s.faults = [] ∧ s.refused = false) ∧
  (∀ s : State, s.halted = true → requesterStep s = .next s)

/-! ### Platform calls -/

/-- R187: `IRQ_ENABLE n` sets `plat_ie[n]` and `IRQ_DISABLE n` clears it; neither changes `plat_if` or anything else. -/
def Obligations.IrqEnableBits : Prop :=
  ∀ (s : State) (n : ChanId),
    (∃ t, exec (.irqEnable n) s = .next t ∧ t = { s with platIe := t.platIe } ∧ t.platIe.get n = true ∧
      ∀ m, m ≠ n → t.platIe.get m = s.platIe.get m) ∧
    (∃ t, exec (.irqDisable n) s = .next t ∧ t = { s with platIe := t.platIe } ∧ t.platIe.get n = false ∧
      ∀ m, m ≠ n → t.platIe.get m = s.platIe.get m)

/-- R188, R183: `WAIT_INT n, false` with the flag set ends at once and clears it. With the flag clear, or with
`next = true` (which clears it first), the requester blocks with the flag clear; blocked, it has no step while the flag
is clear, and when the flag is set its next turn ends the wait and clears the flag. -/
def Obligations.WaitIntConsumesFlag : Prop :=
  (∀ (s : State) (n : ChanId), s.platIf.get n = true →
    exec (.waitInt n false) s = .next { s with platIf := s.platIf.set n false }) ∧
  (∀ (s : State) (n : ChanId) (next : Bool), next = true ∨ s.platIf.get n = false →
    ∃ t, exec (.waitInt n next) s = .next t ∧ t = { s with platIf := t.platIf, waiting := some (.int n) } ∧
      t.platIf.get n = false ∧ ∀ m, m ≠ n → t.platIf.get m = s.platIf.get m) ∧
  (∀ (s : State) (n : ChanId), s.halted = false → s.waiting = some (.int n) →
    (s.platIf.get n = false → requesterStep s = .next s) ∧
    (s.platIf.get n = true → ∃ t, requesterStep s = .next t ∧ t.waiting = none ∧ t.platIf.get n = false ∧
      t.chans = s.chans ∧ t.mem = s.mem ∧ t.todo = s.todo))

/-- R189, R198: `VBLANK_WAIT` blocks the requester and changes nothing else; blocked, it has no step; the first `TRIG 1`
ends the wait, and no other trigger does. -/
def Obligations.VblankWaitEndsAtTrigger : Prop :=
  (∀ s : State, exec .vblankWait s = .next { s with waiting := some .vblank }) ∧
  (∀ s : State, s.halted = false → s.waiting = some .vblank →
    requesterStep s = .next s ∧
    (∃ t, agentStep (.environment .vblank) s = .next t ∧ t.waiting = none) ∧
    (∀ tr, tr ≠ .vblank → ∃ t, agentStep (.environment tr) s = .next t ∧ t.waiting = some .vblank))

/-- R190: `FLUSH_RANGE` and `INVALIDATE_RANGE` change no block state and no memory: each only adds its entry to
`events`. -/
def Obligations.CacheCallsOnlyRecord : Prop :=
  ∀ (s : State) (a : Word) (len : Nat),
    exec (.flushRange a len) s = .next { s with events := s.events ++ [.flush a len] } ∧
    exec (.invalidateRange a len) s = .next { s with events := s.events ++ [.invalidate a len] }

/-! ### Steps and reset -/

/-- R33, R99, R17: a step runs the decoded instruction. When the next turn is the requester's, it is neither halted nor
blocked, nothing is left of an expansion, and the statement at `rpc` decodes to `i`, the step is `exec i` on the state
whose turn has been taken, followed by the binding of its result to the statement's name (R95) and by the end of the
statement if nothing is left to run; a piece of an expansion runs
in the same way; and the turns of the other agents are the engine's step and the trigger's event. At the end of a
statement `rpc` advances by 1: exactly when a statement is in progress, nothing of it is left, and the requester is not
blocked (log 10); otherwise nothing changes. -/
def Obligations.StepRunsDecodedInstruction : Prop :=
  (∀ (s : State) (st : Statement) (i : Instr), s.nextAgent = .requester → s.halted = false → s.waiting = none →
    s.todo = [] → s.program[s.rpc]? = some st → decodeStatement s.params st = .ok i →
    step s = thenDo (exec i { s.takeTurn with active := true }) fun t => retire (t.bindName st.name i)) ∧
  (∀ (s : State) (i : Instr) (rest : List Micro), s.nextAgent = .requester → s.halted = false → s.waiting = none →
    s.todo = .run i :: rest → step s = thenDo (exec i { s.takeTurn with todo := rest }) retire) ∧
  (∀ s : State, s.nextAgent = .engine → step s = .next (engineStep s.takeTurn)) ∧
  (∀ (s : State) (t : Trigger), s.nextAgent = .environment t → step s = thenDo (exec t.instr s.takeTurn) retire) ∧
  (∀ s : State, s.active = true → s.todo = [] → s.waiting = none →
    retire s = { s with active := false, rpc := s.rpc + 1 }) ∧
  (∀ s : State, s.active = false ∨ s.todo ≠ [] ∨ s.waiting ≠ none → retire s = s)

/-- R95, R98, R99: the step that runs the statement `RD n.REG -> x` binds the word that the read returned to the name `x`,
and the one that runs `IS_BUSY n -> b` binds its bit to `b`; every other name keeps what it was bound to, and where the
read raised, every name does (log 11). Nothing else binds a name: a name whose value changes in a step is the one that
stands in the statement that the step has run, which reads a register or is `IS_BUSY`; so a value once bound stays until
the same name is bound again. -/
def Obligations.ResultsAreBoundToNames : Prop :=
  (∀ (s : State) (st : Statement) (i : Instr), s.nextAgent = .requester → s.halted = false → s.waiting = none →
    s.todo = [] → s.program[s.rpc]? = some st → decodeStatement s.params st = .ok i →
    (∀ n r, i = readInstr n r → ∃ t u, exec i { s.takeTurn with active := true } = .next t ∧ step s = .next u ∧
      (∀ y w, st.name = some y → t.lastRead = some w → u.value y = some (.word w)) ∧
      (∀ y, st.name ≠ some y ∨ t.lastRead = none → u.value y = s.value y)) ∧
    (∀ n, i = .isBusy n → ∃ t u, exec i { s.takeTurn with active := true } = .next t ∧ step s = .next u ∧
      (∀ y b, st.name = some y → t.lastBusy = some b → u.value y = some (.bit b)) ∧
      (∀ y, st.name ≠ some y ∨ t.lastBusy = none → u.value y = s.value y))) ∧
  (∀ (s u : State) (y : LocalName), step s = .next u → u.value y ≠ s.value y →
    s.nextAgent = .requester ∧ s.todo = [] ∧ ∃ st i, s.program[s.rpc]? = some st ∧ st.name = some y ∧
      decodeStatement s.params st = .ok i ∧ ((∃ n r, i = readInstr n r) ∨ ∃ n, i = .isBusy n))

/-- R93, R54, R40: a statement that decodes to no instruction sets `refused` and has no other effect: a reserved
transaction code, a front-end access that is refused, bytes that are no transaction, or a name with nothing to bind
(log 18). Every field but
`refused`, `rpc` and the model's own turn bookkeeping is as before. That `rpc` advances by 1, so that the program goes on
with the next statement, is the model's choice (log 25). -/
def Obligations.ReservedStatementRefused : Prop :=
  ∀ (s : State) (st : Statement), s.nextAgent = .requester → s.halted = false → s.waiting = none → s.todo = [] →
    s.program[s.rpc]? = some st →
    (∃ e, decodeStatement s.params st = .error e ∧ ∀ a, e ≠ .notTheBlocks a) →
    step s = .next { s.takeTurn with refused := true, rpc := s.rpc + 1 }

/-- R200, R201: the values the spec gives for reset: every control word 0 and every channel Idle, SAD, DAD and FILL
unwritten, every counter and bit 0, no unit pending, no interrupt pulse, the platform bits 0, nothing recorded, and
`rpc` 0. -/
def Obligations.ResetValues : Prop :=
  (∀ n, (State.reset.chan n).cnt = 0 ∧ (State.reset.chan n).enabled = false ∧ (State.reset.chan n).sadW = false ∧
    (State.reset.chan n).dadW = false ∧ (State.reset.chan n).fillW = false ∧ (State.reset.chan n).remaining = 0 ∧
    (State.reset.chan n).budget = 0 ∧ (State.reset.chan n).running = false ∧ (State.reset.chan n).settle = 0 ∧
    (State.reset.chan n).armOk = false ∧ State.reset.irq.get n = false ∧ State.reset.platIe.get n = false ∧
    State.reset.platIf.get n = false) ∧
  State.reset.unitCh = none ∧ State.reset.faults = [] ∧ State.reset.events = [] ∧ State.reset.refused = false ∧
  State.reset.rpc = 0
end

