-- ==== Sys2Proof/Laws/State.lean ====
section
/-!
SUPPORT. One lemma per field per update: what each named update of the state leaves and what it writes. Proofs about
the machine use these and unfold no record update.
-/
namespace Sys2Proof

@[simp] theorem PerChannel.get_set {α : Type} (v : PerChannel α) (n m : ChanId) (x : α) :
    (v.set n x).get m = if m = n then x else v.get m := by
  fin_cases n <;> fin_cases m <;> rfl

theorem PerChannel.ext_get {α : Type} {u v : PerChannel α} (h : ∀ n, u.get n = v.get n) : u = v := by
  have h0 := h 0; have h1 := h 1; have h2 := h 2; have h3 := h 3
  cases u; cases v; simp_all [PerChannel.get]

@[simp] theorem PerChannel.set_set {α : Type} (v : PerChannel α) (n : ChanId) (x y : α) :
    (v.set n x).set n y = v.set n y := by
  fin_cases n <;> rfl

@[simp] theorem PerChannel.set_get {α : Type} (v : PerChannel α) (n : ChanId) : v.set n (v.get n) = v := by
  fin_cases n <;> rfl

theorem mem_allChannels (n : ChanId) : n ∈ allChannels := by fin_cases n <;> decide

theorem mem_allRegisters (n : ChanId) (r : Reg) : (n, r) ∈ allRegisters := by fin_cases n <;> cases r <;> decide

namespace Machine

section chans
variable (s : State) (n m : ChanId) (c : ChannelState) (f : ChannelState → ChannelState)

@[simp] theorem chan_setChan : (s.setChan n c).chan m = if m = n then c else s.chan m := by
  simp [State.setChan, State.chan]

@[simp] theorem chan_modChan : (s.modChan n f).chan m = if m = n then f (s.chan n) else s.chan m := by
  simp [State.modChan]

@[simp] theorem setChan_params : (s.setChan n c).params = s.params := rfl
@[simp] theorem setChan_program : (s.setChan n c).program = s.program := rfl
@[simp] theorem setChan_unitCh : (s.setChan n c).unitCh = s.unitCh := rfl
@[simp] theorem setChan_unitData : (s.setChan n c).unitData = s.unitData := rfl
@[simp] theorem setChan_mem : (s.setChan n c).mem = s.mem := rfl
@[simp] theorem setChan_irq : (s.setChan n c).irq = s.irq := rfl
@[simp] theorem setChan_platIe : (s.setChan n c).platIe = s.platIe := rfl
@[simp] theorem setChan_platIf : (s.setChan n c).platIf = s.platIf := rfl
@[simp] theorem setChan_faults : (s.setChan n c).faults = s.faults := rfl
@[simp] theorem setChan_events : (s.setChan n c).events = s.events := rfl
@[simp] theorem setChan_refused : (s.setChan n c).refused = s.refused := rfl
@[simp] theorem setChan_rpc : (s.setChan n c).rpc = s.rpc := rfl
@[simp] theorem setChan_active : (s.setChan n c).active = s.active := rfl
@[simp] theorem setChan_todo : (s.setChan n c).todo = s.todo := rfl
@[simp] theorem setChan_waiting : (s.setChan n c).waiting = s.waiting := rfl
@[simp] theorem setChan_halted : (s.setChan n c).halted = s.halted := rfl
@[simp] theorem setChan_names : (s.setChan n c).names = s.names := rfl
@[simp] theorem setChan_lastRead : (s.setChan n c).lastRead = s.lastRead := rfl
@[simp] theorem setChan_lastBusy : (s.setChan n c).lastBusy = s.lastBusy := rfl
@[simp] theorem setChan_turns : (s.setChan n c).turns = s.turns := rfl
@[simp] theorem setChan_clock : (s.setChan n c).clock = s.clock := rfl
@[simp] theorem setChan_draws : (s.setChan n c).draws = s.draws := rfl

@[simp] theorem modChan_params : (s.modChan n f).params = s.params := rfl
@[simp] theorem modChan_program : (s.modChan n f).program = s.program := rfl
@[simp] theorem modChan_unitCh : (s.modChan n f).unitCh = s.unitCh := rfl
@[simp] theorem modChan_unitData : (s.modChan n f).unitData = s.unitData := rfl
@[simp] theorem modChan_mem : (s.modChan n f).mem = s.mem := rfl
@[simp] theorem modChan_irq : (s.modChan n f).irq = s.irq := rfl
@[simp] theorem modChan_platIe : (s.modChan n f).platIe = s.platIe := rfl
@[simp] theorem modChan_platIf : (s.modChan n f).platIf = s.platIf := rfl
@[simp] theorem modChan_faults : (s.modChan n f).faults = s.faults := rfl
@[simp] theorem modChan_events : (s.modChan n f).events = s.events := rfl
@[simp] theorem modChan_refused : (s.modChan n f).refused = s.refused := rfl
@[simp] theorem modChan_rpc : (s.modChan n f).rpc = s.rpc := rfl
@[simp] theorem modChan_active : (s.modChan n f).active = s.active := rfl
@[simp] theorem modChan_todo : (s.modChan n f).todo = s.todo := rfl
@[simp] theorem modChan_waiting : (s.modChan n f).waiting = s.waiting := rfl
@[simp] theorem modChan_halted : (s.modChan n f).halted = s.halted := rfl
@[simp] theorem modChan_names : (s.modChan n f).names = s.names := rfl
@[simp] theorem modChan_lastRead : (s.modChan n f).lastRead = s.lastRead := rfl
@[simp] theorem modChan_lastBusy : (s.modChan n f).lastBusy = s.lastBusy := rfl
@[simp] theorem modChan_turns : (s.modChan n f).turns = s.turns := rfl
@[simp] theorem modChan_clock : (s.modChan n f).clock = s.clock := rfl
@[simp] theorem modChan_draws : (s.modChan n f).draws = s.draws := rfl
end chans

section faultsAndEvents
variable (s b : State) (f : FaultInfo) (e : Event) (n m : ChanId) (op : BitVec 6) (x y : Option Word) (l : List Micro)

@[simp] theorem raise_chan : (s.raise f).chan m = s.chan m := rfl
@[simp] theorem raise_faults : (s.raise f).faults = s.faults ++ [{ info := f, step := s.clock }] := rfl
@[simp] theorem raise_params : (s.raise f).params = s.params := rfl
@[simp] theorem raise_program : (s.raise f).program = s.program := rfl
@[simp] theorem raise_chans : (s.raise f).chans = s.chans := rfl
@[simp] theorem raise_unitCh : (s.raise f).unitCh = s.unitCh := rfl
@[simp] theorem raise_unitData : (s.raise f).unitData = s.unitData := rfl
@[simp] theorem raise_mem : (s.raise f).mem = s.mem := rfl
@[simp] theorem raise_irq : (s.raise f).irq = s.irq := rfl
@[simp] theorem raise_platIe : (s.raise f).platIe = s.platIe := rfl
@[simp] theorem raise_platIf : (s.raise f).platIf = s.platIf := rfl
@[simp] theorem raise_events : (s.raise f).events = s.events := rfl
@[simp] theorem raise_refused : (s.raise f).refused = s.refused := rfl
@[simp] theorem raise_rpc : (s.raise f).rpc = s.rpc := rfl
@[simp] theorem raise_active : (s.raise f).active = s.active := rfl
@[simp] theorem raise_todo : (s.raise f).todo = s.todo := rfl
@[simp] theorem raise_waiting : (s.raise f).waiting = s.waiting := rfl
@[simp] theorem raise_halted : (s.raise f).halted = s.halted := rfl
@[simp] theorem raise_names : (s.raise f).names = s.names := rfl
@[simp] theorem raise_lastRead : (s.raise f).lastRead = s.lastRead := rfl
@[simp] theorem raise_lastBusy : (s.raise f).lastBusy = s.lastBusy := rfl
@[simp] theorem raise_turns : (s.raise f).turns = s.turns := rfl
@[simp] theorem raise_clock : (s.raise f).clock = s.clock := rfl
@[simp] theorem raise_draws : (s.raise f).draws = s.draws := rfl

@[simp] theorem log_chan : (s.log e).chan m = s.chan m := rfl
@[simp] theorem log_events : (s.log e).events = s.events ++ [e] := rfl
@[simp] theorem log_params : (s.log e).params = s.params := rfl
@[simp] theorem log_program : (s.log e).program = s.program := rfl
@[simp] theorem log_chans : (s.log e).chans = s.chans := rfl
@[simp] theorem log_unitCh : (s.log e).unitCh = s.unitCh := rfl
@[simp] theorem log_unitData : (s.log e).unitData = s.unitData := rfl
@[simp] theorem log_mem : (s.log e).mem = s.mem := rfl
@[simp] theorem log_irq : (s.log e).irq = s.irq := rfl
@[simp] theorem log_platIe : (s.log e).platIe = s.platIe := rfl
@[simp] theorem log_platIf : (s.log e).platIf = s.platIf := rfl
@[simp] theorem log_faults : (s.log e).faults = s.faults := rfl
@[simp] theorem log_refused : (s.log e).refused = s.refused := rfl
@[simp] theorem log_rpc : (s.log e).rpc = s.rpc := rfl
@[simp] theorem log_active : (s.log e).active = s.active := rfl
@[simp] theorem log_todo : (s.log e).todo = s.todo := rfl
@[simp] theorem log_waiting : (s.log e).waiting = s.waiting := rfl
@[simp] theorem log_halted : (s.log e).halted = s.halted := rfl
@[simp] theorem log_names : (s.log e).names = s.names := rfl
@[simp] theorem log_lastRead : (s.log e).lastRead = s.lastRead := rfl
@[simp] theorem log_lastBusy : (s.log e).lastBusy = s.lastBusy := rfl
@[simp] theorem log_turns : (s.log e).turns = s.turns := rfl
@[simp] theorem log_clock : (s.log e).clock = s.clock := rfl
@[simp] theorem log_draws : (s.log e).draws = s.draws := rfl

theorem logTransaction_eq : s.logTransaction op x y b =
    s.log (.transaction op x y (s.faults.drop b.faults.length)) := rfl

@[simp] theorem drawn_chan : s.drawn.chan m = s.chan m := rfl
@[simp] theorem drawn_draws : s.drawn.draws = s.draws + 1 := rfl
@[simp] theorem drawn_params : s.drawn.params = s.params := rfl
@[simp] theorem drawn_program : s.drawn.program = s.program := rfl
@[simp] theorem drawn_chans : s.drawn.chans = s.chans := rfl
@[simp] theorem drawn_unitCh : s.drawn.unitCh = s.unitCh := rfl
@[simp] theorem drawn_unitData : s.drawn.unitData = s.unitData := rfl
@[simp] theorem drawn_mem : s.drawn.mem = s.mem := rfl
@[simp] theorem drawn_irq : s.drawn.irq = s.irq := rfl
@[simp] theorem drawn_platIe : s.drawn.platIe = s.platIe := rfl
@[simp] theorem drawn_platIf : s.drawn.platIf = s.platIf := rfl
@[simp] theorem drawn_faults : s.drawn.faults = s.faults := rfl
@[simp] theorem drawn_events : s.drawn.events = s.events := rfl
@[simp] theorem drawn_refused : s.drawn.refused = s.refused := rfl
@[simp] theorem drawn_rpc : s.drawn.rpc = s.rpc := rfl
@[simp] theorem drawn_active : s.drawn.active = s.active := rfl
@[simp] theorem drawn_todo : s.drawn.todo = s.todo := rfl
@[simp] theorem drawn_waiting : s.drawn.waiting = s.waiting := rfl
@[simp] theorem drawn_halted : s.drawn.halted = s.halted := rfl
@[simp] theorem drawn_names : s.drawn.names = s.names := rfl
@[simp] theorem drawn_lastRead : s.drawn.lastRead = s.lastRead := rfl
@[simp] theorem drawn_lastBusy : s.drawn.lastBusy = s.lastBusy := rfl
@[simp] theorem drawn_turns : s.drawn.turns = s.turns := rfl
@[simp] theorem drawn_clock : s.drawn.clock = s.clock := rfl

@[simp] theorem pulseIrq_chan : (s.pulseIrq n).chan m = s.chan m := rfl
@[simp] theorem pulseIrq_irq : (s.pulseIrq n).irq = s.irq.set n true := rfl
@[simp] theorem pulseIrq_platIf : (s.pulseIrq n).platIf = s.platIf.set n true := rfl
@[simp] theorem pulseIrq_events : (s.pulseIrq n).events = s.events ++ [.irq n] := rfl
@[simp] theorem pulseIrq_params : (s.pulseIrq n).params = s.params := rfl
@[simp] theorem pulseIrq_program : (s.pulseIrq n).program = s.program := rfl
@[simp] theorem pulseIrq_chans : (s.pulseIrq n).chans = s.chans := rfl
@[simp] theorem pulseIrq_unitCh : (s.pulseIrq n).unitCh = s.unitCh := rfl
@[simp] theorem pulseIrq_unitData : (s.pulseIrq n).unitData = s.unitData := rfl
@[simp] theorem pulseIrq_mem : (s.pulseIrq n).mem = s.mem := rfl
@[simp] theorem pulseIrq_platIe : (s.pulseIrq n).platIe = s.platIe := rfl
@[simp] theorem pulseIrq_faults : (s.pulseIrq n).faults = s.faults := rfl
@[simp] theorem pulseIrq_refused : (s.pulseIrq n).refused = s.refused := rfl
@[simp] theorem pulseIrq_rpc : (s.pulseIrq n).rpc = s.rpc := rfl
@[simp] theorem pulseIrq_active : (s.pulseIrq n).active = s.active := rfl
@[simp] theorem pulseIrq_todo : (s.pulseIrq n).todo = s.todo := rfl
@[simp] theorem pulseIrq_waiting : (s.pulseIrq n).waiting = s.waiting := rfl
@[simp] theorem pulseIrq_halted : (s.pulseIrq n).halted = s.halted := rfl
@[simp] theorem pulseIrq_names : (s.pulseIrq n).names = s.names := rfl
@[simp] theorem pulseIrq_lastRead : (s.pulseIrq n).lastRead = s.lastRead := rfl
@[simp] theorem pulseIrq_lastBusy : (s.pulseIrq n).lastBusy = s.lastBusy := rfl
@[simp] theorem pulseIrq_turns : (s.pulseIrq n).turns = s.turns := rfl
@[simp] theorem pulseIrq_clock : (s.pulseIrq n).clock = s.clock := rfl
@[simp] theorem pulseIrq_draws : (s.pulseIrq n).draws = s.draws := rfl

@[simp] theorem push_chan : (s.push l).chan m = s.chan m := rfl
@[simp] theorem push_todo : (s.push l).todo = l ++ s.todo := rfl
@[simp] theorem push_params : (s.push l).params = s.params := rfl
@[simp] theorem push_chans : (s.push l).chans = s.chans := rfl
@[simp] theorem push_waiting : (s.push l).waiting = s.waiting := rfl
@[simp] theorem push_halted : (s.push l).halted = s.halted := rfl
@[simp] theorem push_active : (s.push l).active = s.active := rfl
@[simp] theorem push_faults : (s.push l).faults = s.faults := rfl
@[simp] theorem push_events : (s.push l).events = s.events := rfl
@[simp] theorem push_clock : (s.push l).clock = s.clock := rfl
@[simp] theorem push_mem : (s.push l).mem = s.mem := rfl
@[simp] theorem push_program : (s.push l).program = s.program := rfl
@[simp] theorem push_unitCh : (s.push l).unitCh = s.unitCh := rfl
@[simp] theorem push_unitData : (s.push l).unitData = s.unitData := rfl
@[simp] theorem push_irq : (s.push l).irq = s.irq := rfl
@[simp] theorem push_platIe : (s.push l).platIe = s.platIe := rfl
@[simp] theorem push_platIf : (s.push l).platIf = s.platIf := rfl
@[simp] theorem push_refused : (s.push l).refused = s.refused := rfl
@[simp] theorem push_rpc : (s.push l).rpc = s.rpc := rfl
@[simp] theorem push_names : (s.push l).names = s.names := rfl
@[simp] theorem push_lastRead : (s.push l).lastRead = s.lastRead := rfl
@[simp] theorem push_lastBusy : (s.push l).lastBusy = s.lastBusy := rfl
@[simp] theorem push_turns : (s.push l).turns = s.turns := rfl
@[simp] theorem push_draws : (s.push l).draws = s.draws := rfl
end faultsAndEvents

section channel
variable (c : ChannelState) (p : Params) (m : SrcMode) (k : Nat) (d : Word)

/-- The control word's bits 30:0 do not depend on ENABLE. -/
theorem cnt_eq_append : c.cnt = BitVec.ofBool c.enabled ++ c.conf := rfl

@[simp] theorem halt_enabled : c.halt.enabled = false := rfl
@[simp] theorem halt_running : c.halt.running = false := rfl
@[simp] theorem halt_budget : c.halt.budget = 0 := rfl
@[simp] theorem halt_remaining : c.halt.remaining = 0 := rfl
@[simp] theorem halt_conf : c.halt.conf = c.conf := rfl
@[simp] theorem halt_settle : c.halt.settle = c.settle := rfl
@[simp] theorem pause_enabled : c.pause.enabled = c.enabled := rfl
@[simp] theorem pause_running : c.pause.running = false := rfl
@[simp] theorem pause_budget : c.pause.budget = 0 := rfl
@[simp] theorem pause_remaining : c.pause.remaining = c.remaining := rfl
@[simp] theorem pause_conf : c.pause.conf = c.conf := rfl
@[simp] theorem pause_settle : c.pause.settle = c.settle := rfl
@[simp] theorem pause_armOk : c.pause.armOk = c.armOk := rfl
@[simp] theorem pause_cnt : c.pause.cnt = c.cnt := rfl
@[simp] theorem beginArm_enabled : (c.beginArm p).enabled = true := rfl
@[simp] theorem beginArm_settle : (c.beginArm p).settle = p.settleCycles := rfl
@[simp] theorem beginArm_armOk : (c.beginArm p).armOk = false := rfl
@[simp] theorem beginArm_conf : (c.beginArm p).conf = c.conf := rfl
@[simp] theorem beginArm_sadW : (c.beginArm p).sadW = c.sadW := rfl
@[simp] theorem beginArm_dadW : (c.beginArm p).dadW = c.dadW := rfl
@[simp] theorem beginArm_remaining : (c.beginArm p).remaining = c.remaining := rfl
@[simp] theorem beginArm_running : (c.beginArm p).running = c.running := rfl
@[simp] theorem beginArm_budget : (c.beginArm p).budget = c.budget := rfl
@[simp] theorem latch_cnt : (c.latch p).cnt = c.cnt := rfl
@[simp] theorem latch_width : (c.latch p).width = c.width := rfl
@[simp] theorem latch_timing : (c.latch p).timing = c.timing := rfl
@[simp] theorem latch_curSrc : (c.latch p).curSrc = c.sad &&& p.addrMask := rfl
@[simp] theorem latch_curDst : (c.latch p).curDst = c.dad &&& p.addrMask := rfl
@[simp] theorem latch_enabled : (c.latch p).enabled = c.enabled := rfl
@[simp] theorem latch_running : (c.latch p).running = c.running := rfl
@[simp] theorem latch_budget : (c.latch p).budget = c.budget := rfl
@[simp] theorem latch_remaining : (c.latch p).remaining = c.remaining := rfl
@[simp] theorem latch_settle : (c.latch p).settle = c.settle := rfl
@[simp] theorem latch_armOk : (c.latch p).armOk = c.armOk := rfl
@[simp] theorem armFor_cnt : (c.armFor k).cnt = c.cnt := rfl
@[simp] theorem armFor_remaining : (c.armFor k).remaining = k := rfl
@[simp] theorem armFor_running : (c.armFor k).running = false := rfl
@[simp] theorem armFor_budget : (c.armFor k).budget = 0 := rfl
@[simp] theorem armFor_armOk : (c.armFor k).armOk = true := rfl
@[simp] theorem armFor_enabled : (c.armFor k).enabled = c.enabled := rfl
@[simp] theorem advance_cnt : (c.advance p m).cnt = c.cnt := rfl
@[simp] theorem advance_remaining : (c.advance p m).remaining = c.remaining - 1 := rfl
@[simp] theorem advance_budget : (c.advance p m).budget = c.budget - 1 := rfl
@[simp] theorem advance_enabled : (c.advance p m).enabled = c.enabled := rfl
@[simp] theorem advance_running : (c.advance p m).running = c.running := rfl
@[simp] theorem advance_settle : (c.advance p m).settle = c.settle := rfl
@[simp] theorem advance_armOk : (c.advance p m).armOk = c.armOk := rfl
@[simp] theorem storeCnt_conf : (c.storeCnt d).conf = d.extractLsb' 0 31 := rfl
@[simp] theorem storeCnt_enabled : (c.storeCnt d).enabled = c.enabled := rfl
@[simp] theorem storeCnt_sad : (c.storeCnt d).sad = c.sad := rfl
@[simp] theorem storeCnt_dad : (c.storeCnt d).dad = c.dad := rfl
@[simp] theorem storeCnt_fill : (c.storeCnt d).fill = c.fill := rfl
@[simp] theorem storeCnt_sadW : (c.storeCnt d).sadW = c.sadW := rfl
@[simp] theorem storeCnt_dadW : (c.storeCnt d).dadW = c.dadW := rfl
@[simp] theorem storeCnt_fillW : (c.storeCnt d).fillW = c.fillW := rfl
@[simp] theorem storeCnt_curSrc : (c.storeCnt d).curSrc = c.curSrc := rfl
@[simp] theorem storeCnt_curDst : (c.storeCnt d).curDst = c.curDst := rfl
@[simp] theorem storeCnt_running : (c.storeCnt d).running = c.running := rfl
@[simp] theorem storeCnt_budget : (c.storeCnt d).budget = c.budget := rfl
@[simp] theorem storeCnt_remaining : (c.storeCnt d).remaining = c.remaining := rfl
@[simp] theorem storeCnt_settle : (c.storeCnt d).settle = c.settle := rfl
@[simp] theorem storeCnt_armOk : (c.storeCnt d).armOk = c.armOk := rfl
@[simp] theorem pause_sad : c.pause.sad = c.sad := rfl
@[simp] theorem pause_dad : c.pause.dad = c.dad := rfl
@[simp] theorem pause_fill : c.pause.fill = c.fill := rfl
@[simp] theorem pause_sadW : c.pause.sadW = c.sadW := rfl
@[simp] theorem pause_dadW : c.pause.dadW = c.dadW := rfl
@[simp] theorem pause_fillW : c.pause.fillW = c.fillW := rfl
@[simp] theorem pause_curSrc : c.pause.curSrc = c.curSrc := rfl
@[simp] theorem pause_curDst : c.pause.curDst = c.curDst := rfl
@[simp] theorem beginArm_sad : (c.beginArm p).sad = c.sad := rfl
@[simp] theorem beginArm_dad : (c.beginArm p).dad = c.dad := rfl
@[simp] theorem beginArm_fill : (c.beginArm p).fill = c.fill := rfl
@[simp] theorem beginArm_fillW : (c.beginArm p).fillW = c.fillW := rfl
@[simp] theorem beginArm_curSrc : (c.beginArm p).curSrc = c.curSrc := rfl
@[simp] theorem beginArm_curDst : (c.beginArm p).curDst = c.curDst := rfl
end channel

end Machine

end Sys2Proof
end

