-- ==== Sys2Proof/Laws/Encoding.lean ====
section
/-!
SUPPORT. Codes (spec/30_encoding.md): each enumeration and its codes, the bytes of an operand, the bits of a composed
control word, and what class each opcode of the encoder has.
-/
namespace Sys2Proof

/-! ### Enumerations -/

@[simp] theorem SrcMode.ofCode_code (m : SrcMode) : SrcMode.ofCode m.code = some m := by cases m <;> decide

@[simp] theorem DstMode.ofCode_code (m : DstMode) : DstMode.ofCode m.code = m := by cases m <;> decide

@[simp] theorem Timing.ofCode_code (t : Timing) : Timing.ofCode t.code = t := by
  cases t with
  | immediate => decide
  | on t => cases t <;> decide

theorem SrcMode.code_ofCode {c : BitVec 2} {m : SrcMode} (h : SrcMode.ofCode c = some m) : m.code = c := by
  revert m; revert c; decide

@[simp] theorem DstMode.code_ofCode (c : BitVec 2) : (DstMode.ofCode c).code = c := by revert c; decide

@[simp] theorem Timing.code_ofCode (c : BitVec 3) : (Timing.ofCode c).code = c := by revert c; decide

/-- The source mode is the reserved one exactly for code 3 (R30). -/
theorem SrcMode.ofCode_eq_none {c : BitVec 2} : SrcMode.ofCode c = none ↔ c = 3 := by revert c; decide

/-! ### Bytes of a word -/

theorem getLsbD_wordOfBytes (b0 b1 b2 b3 : Byte) (i : Nat) :
    (wordOfBytes b0 b1 b2 b3).getLsbD i =
      if i < 8 then b0.getLsbD i else if i < 16 then b1.getLsbD (i - 8)
      else if i < 24 then b2.getLsbD (i - 16) else b3.getLsbD (i - 24) := by
  have h : (wordOfBytes b0 b1 b2 b3).getLsbD i = BitVec.getLsbD (b3 ++ b2 ++ b1 ++ b0) i := rfl
  rw [h, BitVec.getLsbD_append, BitVec.getLsbD_append, BitVec.getLsbD_append]
  split_ifs <;> first | rfl | omega

section bytes
variable (b0 b1 b2 b3 : Byte)

@[simp] theorem byteOf_wordOfBytes_zero : byteOf (wordOfBytes b0 b1 b2 b3) 0 = b0 := by
  apply BitVec.eq_of_getLsbD_eq
  intro i hi
  simp [byteOf, getLsbD_wordOfBytes, hi]

@[simp] theorem byteOf_wordOfBytes_one : byteOf (wordOfBytes b0 b1 b2 b3) 1 = b1 := by
  apply BitVec.eq_of_getLsbD_eq
  intro i hi
  simp [byteOf, getLsbD_wordOfBytes, hi, show 8 + i < 16 by omega]

@[simp] theorem byteOf_wordOfBytes_two : byteOf (wordOfBytes b0 b1 b2 b3) 2 = b2 := by
  apply BitVec.eq_of_getLsbD_eq
  intro i hi
  simp [byteOf, getLsbD_wordOfBytes, hi, show ¬ 16 + i < 8 by omega,
    show 16 + i < 24 by omega]

@[simp] theorem byteOf_wordOfBytes_three : byteOf (wordOfBytes b0 b1 b2 b3) 3 = b3 := by
  apply BitVec.eq_of_getLsbD_eq
  intro i hi
  simp [byteOf, getLsbD_wordOfBytes, hi, show ¬ 24 + i < 8 by omega,
    show ¬ 24 + i < 16 by omega]

end bytes

/-- A word is made of its four bytes. -/
@[simp] theorem wordOfBytes_byteOf (w : Word) :
    wordOfBytes (byteOf w 0) (byteOf w 1) (byteOf w 2) (byteOf w 3) = w := by
  apply BitVec.eq_of_getLsbD_eq
  intro i hi
  simp only [byteOf, BitVec.getLsbD_extractLsb', getLsbD_wordOfBytes]
  split_ifs
  · simp [*]
  all_goals rw [decide_eq_true (by omega), Bool.true_and]; congr 1; omega

/-! ### The control word (R85) -/

/-- Bit `i` of a composed control word is a bit of the field that covers it. -/
theorem bit_encodeControl (w : ControlWord) (i : Nat) (hi : i < 32) :
    (encodeControl w).getLsbD i =
      if i < 21 then w.length.getLsbD i else if i < 23 then w.destinationMode.code.getLsbD (i - 21)
      else if i < 25 then w.sourceMode.code.getLsbD (i - 23) else if i < 26 then w.repeats
      else if i < 27 then w.transferWidth.code.getLsbD (i - 26)
      else if i < 30 then w.startTrigger.code.getLsbD (i - 27)
      else if i < 31 then w.interruptRequest else w.enabled := by
  have hb : ∀ (b : Bool) j, (BitVec.ofBool b).getLsbD j = (decide (j = 0) && b) := by
    intro b j; cases b <;> cases j <;> simp [BitVec.ofBool]
  simp only [encodeControl, BitVec.getLsbD_or, BitVec.getLsbD_shiftLeft, BitVec.truncate_eq_setWidth,
    BitVec.getLsbD_setWidth, hi, decide_true, Bool.true_and, hb]
  interval_cases i <;> simp

/-- Every field of a composed control word reads back as it was given. -/
theorem fields_encodeControl (w : ControlWord) :
    cntCount (encodeControl w) = w.length ∧ cntDstMode (encodeControl w) = w.destinationMode ∧
    cntSrcMode (encodeControl w) = some w.sourceMode ∧ cntRepeat (encodeControl w) = w.repeats ∧
    cntWidth (encodeControl w) = w.transferWidth ∧ cntTiming (encodeControl w) = w.startTrigger ∧
    cntIrq (encodeControl w) = w.interruptRequest ∧ cntEnable (encodeControl w) = w.enabled := by
  have field : ∀ (lo : Nat) {k : Nat} (x : BitVec k), lo + k ≤ 32 →
      (∀ i, i < k → (encodeControl w).getLsbD (lo + i) = x.getLsbD i) →
      (encodeControl w).extractLsb' lo k = x := fun lo k x _ h => by
    apply BitVec.eq_of_getLsbD_eq
    intro i hi
    rw [BitVec.getLsbD_extractLsb', h i hi]; simp [hi]
  refine ⟨?_, ?_, ?_, ?_, ?_, ?_, ?_, ?_⟩
  · refine field 0 _ (by omega) fun i hi => ?_
    rw [bit_encodeControl w _ (by omega)]; simp [hi]
  · unfold cntDstMode
    rw [field 21 w.destinationMode.code (by omega) fun i hi => by
      rw [bit_encodeControl w _ (by omega)]; interval_cases i <;> simp]
    simp
  · unfold cntSrcMode
    rw [field 23 w.sourceMode.code (by omega) fun i hi => by
      rw [bit_encodeControl w _ (by omega)]; interval_cases i <;> simp]
    simp
  · rw [cntRepeat, bit_encodeControl w _ (by omega)]; rfl
  · unfold cntWidth
    rw [bit_encodeControl w _ (by omega)]
    cases w.transferWidth <;> simp [Width.code]
  · unfold cntTiming
    rw [field 27 w.startTrigger.code (by omega) fun i hi => by
      rw [bit_encodeControl w _ (by omega)]; interval_cases i <;> simp]
    simp
  · rw [cntIrq, bit_encodeControl w _ (by omega)]; rfl
  · rw [cntEnable, bit_encodeControl w _ (by omega)]; rfl

/-! ### Opcodes (R80, R81, R91) -/

@[simp] theorem classify_read (n : ChanId) (r : Reg) : classify (regOp false n r) = .read n r := by
  fin_cases n <;> cases r <;> decide

@[simp] theorem classify_write (n : ChanId) (r : Reg) : classify (regOp true n r) = .write n r := by
  fin_cases n <;> cases r <;> decide

@[simp] theorem classify_trig (t : Trigger) : classify (trigOp t) = .trig t := by cases t <;> decide

@[simp] theorem classify_tick : classify tickOp = .tick := by decide

/-- Does a class say the opcode `op`? -/
def OpClass.says (op : BitVec 6) : OpClass → Bool
  | .read n r => decide (op = regOp false n r)
  | .write n r => decide (op = regOp true n r)
  | .trig t => decide (op = trigOp t)
  | .tick => decide (op = tickOp)
  | .reserved => decide (op = 0x20) || decide (0x29 ≤ op)

/-- An opcode is determined by its class, but for the reserved ones (R90, R92). -/
theorem classify_says (op : BitVec 6) : (classify op).says op = true := by revert op; decide

/-- An opcode byte holds its opcode and nothing above it. -/
theorem opByte (op : BitVec 6) :
    (op.zeroExtend 8).extractLsb' 0 6 = op ∧ (op.zeroExtend 8).extractLsb' 6 2 = 0#2 := by
  revert op; decide

/-- A byte with nothing above bit 5 is the byte of its opcode. -/
theorem byte_of_op (b : Byte) (h : b.extractLsb' 6 2 = 0#2) : (b.extractLsb' 0 6).zeroExtend 8 = b := by
  revert b; decide

/-- The code of an instruction decodes to it, and nothing is left. -/
theorem decodeBytes_codeOf (i : Instr) (op : BitVec 6) (w : Option Word) (h : codeOf i = some (op, w)) :
    decodeBytes (codeBytes op w) = .ok (i, []) := by
  cases i <;> simp [codeOf] at h <;> obtain ⟨rfl, rfl⟩ := h <;>
    simp [codeBytes, decodeBytes, opByte, readInstr, writeInstr, Trigger.instr]

end Sys2Proof
end

