-- ==== Sys2Proof/Laws/Memory.lean ====
section
/-!
SUPPORT. Tables, and what is held in them: the names of a program (spec/30_encoding.md R95) and memory (20_memory.md R53,
R62). A lookup after a write, the canonical form that every write keeps, and the bytes of a wide access.
-/
namespace Sys2Proof.Machine

/-! ### Tables -/

section table
variable {α : Type}

/-- Looking up a key gives what was last put under it, and putting leaves every other key alone. -/
theorem rowGet_rowSet (m : List (Nat × α)) (a b : Nat) (v : α) :
    rowGet (rowSet m a v) b = if a = b then some v else rowGet m b := by
  induction m with
  | nil => simp [rowSet, rowGet]
  | cons c m ih =>
    obtain ⟨k, u⟩ := c
    by_cases h1 : a < k
    · simp [rowSet, h1, rowGet]
    · by_cases h2 : a = k
      · subst h2
        by_cases hb : a = b <;> simp [rowSet, rowGet, hb]
      · by_cases hb : a = b
        · subst hb
          simp [rowSet, h1, h2, rowGet, ih, Ne.symm h2]
        · simp [rowSet, h1, h2, rowGet, ih, hb]

theorem mem_rowSet {m : List (Nat × α)} {a : Nat} {v : α} {c : Nat × α} (h : c ∈ rowSet m a v) :
    c = (a, v) ∨ c ∈ m := by
  induction m with
  | nil => simp_all [rowSet]
  | cons x m ih =>
    obtain ⟨k, u⟩ := x
    unfold rowSet at h
    split at h
    · simpa using h
    · split at h
      · simp only [List.mem_cons] at h ⊢; tauto
      · simp only [List.mem_cons] at h ⊢
        rcases h with h | h
        · exact .inr (.inl h)
        · rcases ih h with h | h
          · exact .inl h
          · exact .inr (.inr h)

/-- Putting a value keeps the keys strictly rising. -/
theorem rowSet_sorted {m : List (Nat × α)} (a : Nat) (v : α) (hs : rowsSorted m) : rowsSorted (rowSet m a v) := by
  induction m with
  | nil => simp [rowSet, rowsSorted]
  | cons x m ih =>
    obtain ⟨k, u⟩ := x
    have hkm : ∀ c ∈ m, k < c.1 := (List.pairwise_cons.1 hs).1
    unfold rowSet
    split
    · rename_i hlt
      refine List.pairwise_cons.2 ⟨fun c hc => ?_, hs⟩
      rcases List.mem_cons.1 hc with rfl | hc
      · exact hlt
      · exact lt_trans hlt (hkm c hc)
    · split
      · rename_i heq
        subst heq
        exact List.pairwise_cons.2 ⟨hkm, hs.of_cons⟩
      · refine List.pairwise_cons.2 ⟨fun c hc => ?_, ih hs.of_cons⟩
        rcases mem_rowSet hc with rfl | hc
        · show k < a; omega
        · exact hkm c hc

end table

/-! ### Names (R95) -/

/-- The name bound has the result, where there is one; every other name, and a name with nothing to bind, what it had. -/
theorem value_bindName (s : State) (x : Option LocalName) (i : Instr) (y : LocalName) :
    (s.bindName x i).value y = if x = some y then (s.resultOf i).or (s.value y) else s.value y := by
  cases x with
  | none => simp [State.bindName]
  | some z =>
    cases h : s.resultOf i with
    | none => simp [State.bindName, h]
    | some v => simp [State.bindName, h, State.value, rowGet_rowSet]

/-- A binding keeps the table of names in its form. -/
theorem bindName_sorted {s : State} (h : rowsSorted s.names) (x : Option LocalName) (i : Instr) :
    rowsSorted (s.bindName x i).names := by
  unfold State.bindName
  split
  · exact rowSet_sorted _ _ h
  · exact h

/-- A binding changes the names alone. -/
theorem bindName_eq (s : State) (x : Option LocalName) (i : Instr) :
    s.bindName x i = { s with names := (s.bindName x i).names } := by
  unfold State.bindName; split <;> rfl

@[simp] theorem bindName_nameless (s : State) (i : Instr) : s.bindName none i = s := rfl

/-! ### Bytes -/

/-- Reading a byte gives what was last written there, and a write leaves every other byte alone. -/
theorem byteAt_rowSet (m : Memory) (a b : Nat) (v : Byte) :
    byteAt (rowSet m a v) b = if a = b then v else byteAt m b := by
  unfold byteAt; rw [rowGet_rowSet]; split <;> rfl

/-- A write keeps the canonical form. -/
theorem rowSet_wf {m : Memory} {a : Nat} {v : Byte} (hm : m.wf) (ha : a < 2 ^ 32) : Memory.wf (rowSet m a v) := by
  refine ⟨rowSet_sorted a v hm.1, fun c hc => ?_⟩
  rcases mem_rowSet hc with rfl | hc
  · exact ha
  · exact hm.2 c hc

theorem byteAddr_lt (a : Word) (k : Nat) : byteAddr a k < 2 ^ 32 := (a + BitVec.ofNat 32 k).isLt

/-- A master write keeps the canonical form. -/
theorem memWrite_wf {m : Memory} (hm : m.wf) (a : Word) (w : Width) (v : Word) : (memWrite m a w v).wf := by
  cases w
  · exact rowSet_wf (rowSet_wf hm (byteAddr_lt _ _)) (byteAddr_lt _ _)
  · exact rowSet_wf (rowSet_wf (rowSet_wf (rowSet_wf hm (byteAddr_lt _ _)) (byteAddr_lt _ _)) (byteAddr_lt _ _))
      (byteAddr_lt _ _)

/-- The bytes of one access are different bytes. -/
theorem byteAddr_inj {a : Word} {j k : Nat} (hj : j < 4) (hk : k < 4) (h : byteAddr a j = byteAddr a k) : j = k := by
  unfold byteAddr at h
  have : a + BitVec.ofNat 32 j = a + BitVec.ofNat 32 k := BitVec.eq_of_toNat_eq h
  have h2 : BitVec.ofNat 32 j = BitVec.ofNat 32 k := by simpa using this
  have h3 := congrArg BitVec.toNat h2
  simp only [BitVec.toNat_ofNat] at h3
  omega

/-- A byte outside the bytes of a write reads as before. -/
theorem byteAt_memWrite_other {m : Memory} {a : Word} {w : Width} {v : Word} {b : Nat}
    (h : ∀ k, k < widthBytes w → b ≠ byteAddr a k) : byteAt (memWrite m a w v) b = byteAt m b := by
  cases w with
  | half =>
    have h0 := h 0 (by decide); have h1 := h 1 (by decide)
    simp [memWrite, byteAt_rowSet, Ne.symm h0, Ne.symm h1]
  | word =>
    have h0 := h 0 (by decide); have h1 := h 1 (by decide); have h2 := h 2 (by decide); have h3 := h 3 (by decide)
    simp [memWrite, byteAt_rowSet, Ne.symm h0, Ne.symm h1, Ne.symm h2, Ne.symm h3]

/-- Byte `k` of a write holds byte `k` of the value: little-endian. -/
theorem byteAt_memWrite_same {m : Memory} {a : Word} {w : Width} {v : Word} {k : Nat} (hk : k < widthBytes w) :
    byteAt (memWrite m a w v) (byteAddr a k) = byteOf v k := by
  have hne : ∀ i j, i < 4 → j < 4 → i ≠ j → byteAddr a i ≠ byteAddr a j :=
    fun i j hi hj hij h => hij (byteAddr_inj hi hj h)
  cases w with
  | half =>
    have : k = 0 ∨ k = 1 := by simp only [widthBytes] at hk; omega
    rcases this with rfl | rfl <;> simp [memWrite, byteAt_rowSet, hne]
  | word =>
    have : k = 0 ∨ k = 1 ∨ k = 2 ∨ k = 3 := by simp only [widthBytes] at hk; omega
    rcases this with rfl | rfl | rfl | rfl <;> simp [memWrite, byteAt_rowSet, hne]

/-- Byte `k` of a value read is the byte at that address. -/
theorem byteOf_memRead {m : Memory} {a : Word} {w : Width} {k : Nat} (hk : k < widthBytes w) :
    byteOf (memRead m a w) k = byteAt m (byteAddr a k) := by
  cases w with
  | half =>
    have : k = 0 ∨ k = 1 := by simp only [widthBytes] at hk; omega
    rcases this with rfl | rfl <;> simp [memRead]
  | word =>
    have : k = 0 ∨ k = 1 ∨ k = 2 ∨ k = 3 := by simp only [widthBytes] at hk; omega
    rcases this with rfl | rfl | rfl | rfl <;> simp [memRead]

end Sys2Proof.Machine
end

