-- ==== Sys2Proof/Laws/Isolation.lean ====
section
/-!
SUPPORT. Channel isolation (spec/10_state.md R25, 40_register_access.md R116, 41_engine.md R143): every operation of
channel n changes nothing of another channel, of the requester or of the platform's enable bits. Said once per
operation as `OnlyChannel n s (op s)`; every frame is a field of it.
-/
namespace Sys2Proof.Machine

theorem OnlyChannel.refl (n : ChanId) (s : State) : OnlyChannel n s s := by
  constructor <;> first | rfl | exact List.prefix_refl _ | (intros; rfl)

theorem OnlyChannel.trans {n : ChanId} {s t u : State} (h : OnlyChannel n s t) (g : OnlyChannel n t u) :
    OnlyChannel n s u where
  params := g.params.trans h.params
  program := g.program.trans h.program
  others m hm := (g.others m hm).trans (h.others m hm)
  irqOthers m hm := (g.irqOthers m hm).trans (h.irqOthers m hm)
  platIe := g.platIe.trans h.platIe
  platIfOthers m hm := (g.platIfOthers m hm).trans (h.platIfOthers m hm)
  faults := h.faults.trans g.faults
  events := h.events.trans g.events
  refused := g.refused.trans h.refused
  rpc := g.rpc.trans h.rpc
  active := g.active.trans h.active
  todo := g.todo.trans h.todo
  waiting := g.waiting.trans h.waiting
  halted := g.halted.trans h.halted
  names := g.names.trans h.names
  lastBusy := g.lastBusy.trans h.lastBusy
  turns := g.turns.trans h.turns
  clock := g.clock.trans h.clock

section updates
variable (n : ChanId) (s : State)

theorem onlyChannel_setChan (c : ChannelState) : OnlyChannel n s (s.setChan n c) := by
  constructor <;> first | rfl | exact List.prefix_refl _ | (intro m hm; simp [hm])

theorem onlyChannel_modChan (f : ChannelState → ChannelState) : OnlyChannel n s (s.modChan n f) :=
  onlyChannel_setChan n s _

theorem onlyChannel_raise (f : FaultInfo) : OnlyChannel n s (s.raise f) := by
  constructor <;> first | rfl | exact List.prefix_refl _ | exact List.prefix_append _ _ | (intros; rfl)

theorem onlyChannel_log (e : Event) : OnlyChannel n s (s.log e) := by
  constructor <;> first | rfl | exact List.prefix_refl _ | exact List.prefix_append _ _ | (intros; rfl)

theorem onlyChannel_drawn : OnlyChannel n s s.drawn := by
  constructor <;> first | rfl | exact List.prefix_refl _ | (intros; rfl)

theorem onlyChannel_pulseIrq : OnlyChannel n s (s.pulseIrq n) := by
  constructor <;>
    first | rfl | exact List.prefix_refl _ | exact List.prefix_append _ _ | (intro m hm; simp [hm])

theorem onlyChannel_unit (u : Option ChanId) (v : Word) : OnlyChannel n s { s with unitCh := u, unitData := v } := by
  constructor <;> first | rfl | exact List.prefix_refl _ | (intros; rfl)

theorem onlyChannel_mem (m : Memory) : OnlyChannel n s { s with mem := m } := by
  constructor <;> first | rfl | exact List.prefix_refl _ | (intros; rfl)

theorem onlyChannel_lastRead (x : Option Word) : OnlyChannel n s { s with lastRead := x } := by
  constructor <;> first | rfl | exact List.prefix_refl _ | (intros; rfl)

end updates

section engine
variable (n : ChanId) (s : State)

theorem onlyChannel_reloadDst : OnlyChannel n s (reloadDst n s) := by
  unfold reloadDst
  dsimp only
  split
  · split
    · exact (onlyChannel_setChan n s _).trans (onlyChannel_raise n _ _)
    · exact onlyChannel_setChan n s _
  · exact .refl n s

theorem onlyChannel_reload : OnlyChannel n s (reload n s) := by
  unfold reload
  split
  · exact onlyChannel_raise n s _
  · exact ((onlyChannel_modChan n s _).trans (onlyChannel_reloadDst n _)).trans (onlyChannel_modChan n _ _)

theorem onlyChannel_complete : OnlyChannel n s (complete n s) := by
  unfold complete
  dsimp only
  have h : OnlyChannel n s (if cntIrq (s.chan n).cnt then s.pulseIrq n else s) := by
    split
    · exact onlyChannel_pulseIrq n s
    · exact .refl n s
  split
  · exact h.trans (onlyChannel_reload n _)
  · exact h.trans (onlyChannel_modChan n _ _)

theorem onlyChannel_start (k : Units) : OnlyChannel n s (start n k s) := by
  unfold start
  split
  · exact onlyChannel_complete n s
  · exact onlyChannel_modChan n s _

theorem onlyChannel_arm : OnlyChannel n s (arm n s) := by
  unfold arm
  dsimp only
  have h1 := onlyChannel_modChan n s fun c => c.beginArm s.params
  split
  · exact h1.trans (onlyChannel_raise n _ _)
  · have h2 := h1.trans (onlyChannel_modChan n _ fun c =>
      c.latch (s.modChan n fun c => c.beginArm s.params).params)
    split
    · exact h2.trans (onlyChannel_raise n _ _)
    · split
      · exact (h2.trans (onlyChannel_modChan n _ _)).trans (onlyChannel_start n _ _)
      · exact h2.trans (onlyChannel_modChan n _ _)

/-- What a master write that succeeds answers. -/
theorem masterWrite_ok {a : Word} {w : Width} {v : Word} {t : State} (h : s.masterWrite a w v = .ok t) :
    route s.params a = .memory ∧ t = { s with mem := memWrite s.mem a w v }.log (.masterWrite a w v) := by
  unfold State.masterWrite at h
  split at h
  · exact ⟨‹_›, by cases h; rfl⟩
  · cases h

theorem onlyChannel_masterWrite {a : Word} {w : Width} {v : Word} {t : State} (h : s.masterWrite a w v = .ok t) :
    OnlyChannel n s t := by
  obtain ⟨-, rfl⟩ := masterWrite_ok s h
  exact (onlyChannel_mem n s _).trans (onlyChannel_log n _ _)

theorem onlyChannel_abort : OnlyChannel n s (abortPendingUnit n s) := by
  unfold abortPendingUnit
  split
  · have h : OnlyChannel n s { s.drawn with unitCh := none } :=
      (onlyChannel_drawn n s).trans (onlyChannel_unit n _ none _)
    dsimp only
    split
    · split
      · exact h.trans (onlyChannel_masterWrite n _ ‹_›)
      · exact h.trans (onlyChannel_raise n _ _)
    · exact h
  · exact .refl n s

theorem onlyChannel_unitRead : OnlyChannel n s (unitRead n s) := by
  unfold unitRead
  dsimp only
  split
  · exact onlyChannel_raise n s _
  · exact (onlyChannel_log n s _).trans (onlyChannel_unit n _ _ _)

theorem onlyChannel_afterUnit : OnlyChannel n s (afterUnit n s) := by
  unfold afterUnit
  split
  · exact onlyChannel_complete n s
  · split
    · exact onlyChannel_modChan n s _
    · exact .refl n s

theorem onlyChannel_unitWrite (m : SrcMode) : OnlyChannel n s (unitWrite n m s) := by
  unfold unitWrite
  dsimp only
  split
  · exact onlyChannel_raise n s _
  · exact (((onlyChannel_masterWrite n s ‹_›).trans (onlyChannel_modChan n _ _)).trans
      (onlyChannel_unit n _ none _)).trans (onlyChannel_afterUnit n _)

/-- One turn of the engine does nothing, or is a `UNIT_READ` of the selected channel, or is the `UNIT_WRITE` of the
channel whose unit is pending (R131, R133, R134). -/
theorem engineStep_cases :
    engineStep s = s ∨
    (∃ k, s.unitCh = none ∧ s.selected = some k ∧ s.admitted (s.chan k).curSrc (s.chan k).width = true ∧
      engineStep s = unitRead k s) ∨
    (∃ k m, s.unitCh = some k ∧ cntSrcMode (s.chan k).cnt = some m ∧
      s.admitted (s.chan k).curDst (s.chan k).width = true ∧ engineStep s = unitWrite k m s) := by
  unfold engineStep
  split
  · split
    · split
      · exact .inr (.inr ⟨_, _, ‹_›, ‹_›, ‹_›, rfl⟩)
      · exact .inl rfl
    · exact .inl rfl
  · split
    · split
      · exact .inr (.inl ⟨_, ‹_›, ‹_›, ‹_›, rfl⟩)
      · exact .inl rfl
    · exact .inl rfl

end engine

section registers
variable (n : ChanId) (s : State)

theorem onlyChannel_noteBusy (r : Reg) : OnlyChannel n s (s.noteBusy n r) := by
  unfold State.noteBusy
  split
  · exact onlyChannel_raise n s _
  · exact .refl n s

theorem onlyChannel_writeCnt (d : Word) : OnlyChannel n s (writeCnt n d s) := by
  unfold writeCnt
  split
  · unfold writeCntIdle
    dsimp only
    split
    · exact (onlyChannel_modChan n s _).trans (onlyChannel_arm n _)
    · exact onlyChannel_modChan n s _
  · split
    · exact (((onlyChannel_raise n s _).trans (onlyChannel_abort n _)).trans (onlyChannel_modChan n _ _)).trans
        (onlyChannel_arm n _)
    · unfold cancelArmed
      dsimp only
      have h : OnlyChannel n s (if cntRepeat (s.chan n).cnt = true then s else s.raise (.unsafeCancel n)) := by
        split
        · exact .refl n s
        · exact onlyChannel_raise n s _
      exact (h.trans (onlyChannel_abort n _)).trans (onlyChannel_modChan n _ _)

theorem onlyChannel_registerWrite (r : Reg) (d : Word) (body : State → State) (hb : OnlyChannel n s (body s)) :
    OnlyChannel n s (registerWrite n r d body s) := by
  unfold registerWrite
  dsimp only
  refine OnlyChannel.trans (t := if s.settleHit n then s.raise (.settleViolation n (regOp true n r)) else body s) ?_
    (onlyChannel_log n _ _)
  split
  · exact onlyChannel_raise n s _
  · exact hb

theorem onlyChannel_registerRead (r : Reg) (body : State → State × Option Word) (hb : OnlyChannel n s (body s).1) :
    OnlyChannel n s (registerRead n r body s) := by
  unfold registerRead
  dsimp only
  split
  · exact ((onlyChannel_raise n s _).trans (onlyChannel_log n _ _)).trans (onlyChannel_lastRead n _ _)
  · exact (hb.trans (onlyChannel_log n _ _)).trans (onlyChannel_lastRead n _ _)

end registers

/-! ### What lies outside the channels and the requester -/

theorem SameOutside.refl (s : State) : SameOutside s s := by constructor <;> rfl

theorem SameOutside.trans {s t u : State} (h : SameOutside s t) (g : SameOutside t u) : SameOutside s u where
  params := g.params.trans h.params
  program := g.program.trans h.program
  unitCh := g.unitCh.trans h.unitCh
  unitData := g.unitData.trans h.unitData
  mem := g.mem.trans h.mem
  irq := g.irq.trans h.irq
  platIe := g.platIe.trans h.platIe
  platIf := g.platIf.trans h.platIf
  refused := g.refused.trans h.refused
  waiting := g.waiting.trans h.waiting
  halted := g.halted.trans h.halted
  names := g.names.trans h.names
  turns := g.turns.trans h.turns
  clock := g.clock.trans h.clock

/-- An operation of one channel that moves no unit and pulses nothing leaves everything outside as it was. -/
theorem sameOutside_of {n : ChanId} {s t : State} (ho : OnlyChannel n s t) (hu : SameUnit s t) (hi : t.irq = s.irq)
    (hf : t.platIf = s.platIf) : SameOutside s t where
  params := ho.params
  program := ho.program
  unitCh := hu.unitCh
  unitData := hu.unitData
  mem := hu.mem
  irq := hi
  platIe := ho.platIe
  platIf := hf
  refused := ho.refused
  waiting := ho.waiting
  halted := ho.halted
  names := ho.names
  turns := ho.turns
  clock := ho.clock

/-- A change of the channels, the records and the requester's progress alone. -/
theorem sameOutside_rest (s : State) (cs : PerChannel ChannelState) (fs : List FaultRecord) (es : List Event)
    (rpc : Nat) (active : Bool) (todo : List Micro) (x : Option Word) (b : Option Bool) (k : Nat) :
    SameOutside s { s with
      chans := cs, faults := fs, events := es, rpc := rpc, active := active, todo := todo, lastRead := x, lastBusy := b,
      draws := k } := by
  constructor <;> rfl

end Sys2Proof.Machine
end

