-- ==== Sys2Proof/Laws/Engine.lean ====
section
/-!
SUPPORT. What the engine's procedures do to the channel they serve (spec/41_engine.md): the channel after `reload`,
`complete`, `start` and `arm`; what they leave of the pending unit and memory; and that no engine procedure writes a
register or sets ENABLE.
-/
namespace Sys2Proof.Machine

/-! ### The control word of a channel -/

theorem getLsbD_cnt (c : ChannelState) (i : Nat) (hi : i < 31) : c.cnt.getLsbD i = c.conf.getLsbD i := by
  have h : c.cnt.getLsbD i = BitVec.getLsbD (BitVec.ofBool c.enabled ++ c.conf) i := rfl
  rw [h, BitVec.getLsbD_append, if_pos hi]

theorem extract_cnt (c : ChannelState) (lo k : Nat) (h : lo + k ≤ 31) :
    c.cnt.extractLsb' lo k = c.conf.extractLsb' lo k := by
  apply BitVec.eq_of_getLsbD_eq
  intro i hi
  rw [BitVec.getLsbD_extractLsb', BitVec.getLsbD_extractLsb', getLsbD_cnt c _ (by omega)]

/-- Bit 31 of CNT is the live ENABLE bit (R32). -/
@[simp] theorem cntEnable_cnt (c : ChannelState) : cntEnable c.cnt = c.enabled := by
  have h : cntEnable c.cnt = BitVec.getLsbD (BitVec.ofBool c.enabled ++ c.conf) 31 := rfl
  rw [h, BitVec.getLsbD_append, if_neg (by omega)]
  cases c.enabled <;> rfl

/-- The fields below bit 31 are those of the stored word. -/
theorem cnt_fields_of_conf {c d : ChannelState} (h : c.conf = d.conf) :
    cntCount c.cnt = cntCount d.cnt ∧ cntDstMode c.cnt = cntDstMode d.cnt ∧ cntSrcMode c.cnt = cntSrcMode d.cnt ∧
    cntRepeat c.cnt = cntRepeat d.cnt ∧ c.width = d.width ∧ c.timing = d.timing ∧ cntIrq c.cnt = cntIrq d.cnt := by
  refine ⟨?_, ?_, ?_, ?_, ?_, ?_, ?_⟩ <;>
    simp (disch := omega) only [cntCount, cntDstMode, cntSrcMode, cntRepeat, ChannelState.width, cntWidth,
      ChannelState.timing, cntTiming, cntIrq, extract_cnt, getLsbD_cnt, h]

/-- After `CNT[n] <- d` the register holds `d`, when ENABLE is set to bit 31 of `d` (R32, R110). -/
theorem cnt_storeCnt (c : ChannelState) (d : Word) (b : Bool) (h : b = cntEnable d) :
    ({ c.storeCnt d with enabled := b } : ChannelState).cnt = d := by
  apply BitVec.eq_of_getLsbD_eq
  intro i hi
  rcases Nat.lt_or_ge i 31 with h31 | h31
  · rw [getLsbD_cnt _ _ h31]
    show (d.extractLsb' 0 31).getLsbD i = _
    rw [BitVec.getLsbD_extractLsb']; simp [h31]
  · obtain rfl : i = 31 := by omega
    have := cntEnable_cnt ({ c.storeCnt d with enabled := b } : ChannelState)
    simpa [cntEnable, h] using this

/-! ### What the procedures leave alone -/

theorem SameUnit.refl (s : State) : SameUnit s s := ⟨rfl, rfl, rfl, rfl, rfl⟩

theorem SameUnit.trans {s t u : State} (h : SameUnit s t) (g : SameUnit t u) : SameUnit s u :=
  ⟨g.unitCh.trans h.unitCh, g.unitData.trans h.unitData, g.mem.trans h.mem, g.draws.trans h.draws,
    g.lastRead.trans h.lastRead⟩

section sameUnit
variable (n : ChanId) (s : State)

theorem sameUnit_modChan (f : ChannelState → ChannelState) : SameUnit s (s.modChan n f) := ⟨rfl, rfl, rfl, rfl, rfl⟩

theorem sameUnit_raise (f : FaultInfo) : SameUnit s (s.raise f) := ⟨rfl, rfl, rfl, rfl, rfl⟩

theorem sameUnit_reloadDst : SameUnit s (reloadDst n s) := by
  unfold reloadDst
  dsimp only
  split
  · split <;> exact ⟨rfl, rfl, rfl, rfl, rfl⟩
  · exact .refl s

theorem sameUnit_reload : SameUnit s (reload n s) := by
  unfold reload
  split
  · exact sameUnit_raise s _
  · exact ((sameUnit_modChan n s _).trans (sameUnit_reloadDst n _)).trans (sameUnit_modChan n _ _)

theorem sameUnit_complete : SameUnit s (complete n s) := by
  unfold complete
  dsimp only
  have h : SameUnit s (if cntIrq (s.chan n).cnt then s.pulseIrq n else s) := by
    split <;> exact ⟨rfl, rfl, rfl, rfl, rfl⟩
  split
  · exact h.trans (sameUnit_reload n _)
  · exact h.trans (sameUnit_modChan n _ _)

theorem sameUnit_start (k : Units) : SameUnit s (start n k s) := by
  unfold start
  split
  · exact sameUnit_complete n s
  · exact sameUnit_modChan n s _

theorem sameUnit_arm : SameUnit s (arm n s) := by
  unfold arm
  dsimp only
  have h1 := sameUnit_modChan n s fun c => c.beginArm s.params
  split
  · exact h1.trans (sameUnit_raise _ _)
  · have h2 := h1.trans (sameUnit_modChan n _ fun c =>
      c.latch (s.modChan n fun c => c.beginArm s.params).params)
    split
    · exact h2.trans (sameUnit_raise _ _)
    · split
      · exact (h2.trans (sameUnit_modChan n _ _)).trans (sameUnit_start n _ _)
      · exact h2.trans (sameUnit_modChan n _ _)

theorem sameUnit_triggerChannel (t : Trigger) : SameUnit s (triggerChannel t s n) := by
  unfold triggerChannel
  split
  · exact sameUnit_start n s _
  · exact .refl s

theorem sameUnit_afterUnit : SameUnit s (afterUnit n s) := by
  unfold afterUnit
  split
  · exact sameUnit_complete n s
  · split
    · exact sameUnit_modChan n s _
    · exact .refl s

end sameUnit

/-! ### The channel after each procedure -/

/-- The channel after `reload` (R136), for a block of `count` units. -/
def ChannelState.reloaded (c : ChannelState) (p : Params) (count : Nat) : ChannelState :=
  { c with
    remaining := count
    curDst := if cntDstMode c.cnt = .incrementReload then c.dad &&& p.addrMask else c.curDst
    running := false
    budget := 0 }

section after
variable (n : ChanId) (s : State)

theorem chan_reload {count : Nat} (h : countOf s.params (s.chan n).cnt = some count) :
    (reload n s).chan n = (s.chan n).reloaded s.params count := by
  unfold reload
  simp only [h]
  unfold reloadDst ChannelState.reloaded
  dsimp only
  have hc : ({ s.chan n with remaining := count } : ChannelState).cnt = (s.chan n).cnt := rfl
  by_cases hd : cntDstMode (s.chan n).cnt = .incrementReload
  · split_ifs with h1 h2 <;>
      simp_all [ChannelState.pause]
  · simp [hc, hd, ChannelState.pause]

/-- The channel after `complete` (R135). -/
theorem chan_complete_idle (h : repeats (s.chan n).cnt = false) : (complete n s).chan n = (s.chan n).halt := by
  unfold complete
  dsimp only
  rw [if_neg (by simp [h])]
  split <;> simp

theorem chan_complete_repeat {count : Nat} (h : repeats (s.chan n).cnt = true)
    (hc : countOf s.params (s.chan n).cnt = some count) :
    (complete n s).chan n = (s.chan n).reloaded s.params count := by
  unfold complete
  dsimp only
  rw [if_pos h]
  split
  · rw [chan_reload n _ (count := count) (by simpa using hc)]; simp
  · exact chan_reload n s hc

theorem chan_start_zero (k : Units) (h : (s.chan n).remaining = 0) : start n k s = complete n s := by
  simp [start, h]

theorem chan_start_pos (k : Units) (h : (s.chan n).remaining ≠ 0) :
    start n k s = s.modChan n fun c => { c with running := true, budget := budgetFor k c.remaining } := by
  simp [start, h]

end after

/-! ### No engine procedure writes a register or sets ENABLE -/

/-- Registers, settle counters and `arm_ok` are as before, and no channel becomes Armed. -/
def KeepsSetup (s t : State) : Prop :=
  ∀ k, (s.chan k).sameRegisters (t.chan k) ∧ (t.chan k).settle = (s.chan k).settle ∧
    (t.chan k).armOk = (s.chan k).armOk ∧ ((t.chan k).enabled = true → (s.chan k).enabled = true)

theorem KeepsSetup.refl (s : State) : KeepsSetup s s :=
  fun _ => ⟨⟨rfl, rfl, rfl, rfl, rfl, rfl, rfl⟩, rfl, rfl, id⟩

theorem KeepsSetup.trans {s t u : State} (h : KeepsSetup s t) (g : KeepsSetup t u) : KeepsSetup s u := fun k => by
  obtain ⟨⟨h1, h2, h3, h4, h5, h6, h7⟩, h8, h9, h10⟩ := h k
  obtain ⟨⟨g1, g2, g3, g4, g5, g6, g7⟩, g8, g9, g10⟩ := g k
  exact ⟨⟨g1.trans h1, g2.trans h2, g3.trans h3, g4.trans h4, g5.trans h5, g6.trans h6, g7.trans h7⟩,
    g8.trans h8, g9.trans h9, fun h => h10 (g10 h)⟩

theorem KeepsSetup.of_chans {s t : State} (h : ∀ k, t.chan k = s.chan k) : KeepsSetup s t := fun k => by
  rw [h k]; exact KeepsSetup.refl s k

theorem keepsSetup_modChan (n : ChanId) (s : State) (f : ChannelState → ChannelState)
    (h : (s.chan n).sameRegisters (f (s.chan n)) ∧ (f (s.chan n)).settle = (s.chan n).settle ∧
      (f (s.chan n)).armOk = (s.chan n).armOk ∧ ((f (s.chan n)).enabled = true → (s.chan n).enabled = true)) :
    KeepsSetup s (s.modChan n f) := fun k => by
  rw [chan_modChan]
  split
  · subst_vars; exact h
  · exact KeepsSetup.refl s k

theorem sameRegisters_refl (c : ChannelState) : c.sameRegisters c := ⟨rfl, rfl, rfl, rfl, rfl, rfl, rfl⟩

section keepsSetup
variable (n : ChanId) (s : State)

theorem keepsSetup_setChan (c : ChannelState)
    (h : (s.chan n).sameRegisters c ∧ c.settle = (s.chan n).settle ∧ c.armOk = (s.chan n).armOk ∧
      (c.enabled = true → (s.chan n).enabled = true)) : KeepsSetup s (s.setChan n c) :=
  keepsSetup_modChan n s (fun _ => c) h

theorem keepsSetup_reloadDst : KeepsSetup s (reloadDst n s) := by
  unfold reloadDst
  dsimp only
  split
  · have h := keepsSetup_setChan n s { s.chan n with curDst := (s.chan n).dad &&& s.params.addrMask }
      ⟨sameRegisters_refl _, rfl, rfl, id⟩
    split
    · exact h.trans (.of_chans fun _ => rfl)
    · exact h
  · exact .refl _

theorem keepsSetup_reload : KeepsSetup s (reload n s) := by
  unfold reload
  split
  · exact .of_chans fun _ => rfl
  · rename_i count _
    exact ((keepsSetup_modChan n s (fun c => { c with remaining := count }) ⟨sameRegisters_refl _, rfl, rfl, id⟩).trans
      (keepsSetup_reloadDst n _)).trans (keepsSetup_modChan n _ _ ⟨sameRegisters_refl _, rfl, rfl, id⟩)

theorem keepsSetup_complete : KeepsSetup s (complete n s) := by
  unfold complete
  dsimp only
  have h : KeepsSetup s (if cntIrq (s.chan n).cnt then s.pulseIrq n else s) := by
    split <;> exact .of_chans fun _ => rfl
  split
  · exact h.trans (keepsSetup_reload n _)
  · exact h.trans (keepsSetup_modChan n _ _ ⟨sameRegisters_refl _, rfl, rfl, fun h => by cases h⟩)

theorem keepsSetup_start (k : Units) : KeepsSetup s (start n k s) := by
  unfold start
  split
  · exact keepsSetup_complete n s
  · exact keepsSetup_modChan n s _ ⟨sameRegisters_refl _, rfl, rfl, id⟩

theorem keepsSetup_triggerChannel (t : Trigger) : KeepsSetup s (triggerChannel t s n) := by
  unfold triggerChannel
  split
  · exact keepsSetup_start n s _
  · exact .refl s

theorem keepsSetup_deliverTrigger (t : Trigger) : KeepsSetup s (deliverTrigger t s) := by
  show KeepsSetup s (triggerChannel t (triggerChannel t (triggerChannel t (triggerChannel t s 0) 1) 2) 3)
  exact (((keepsSetup_triggerChannel 0 s t).trans (keepsSetup_triggerChannel 1 _ t)).trans
    (keepsSetup_triggerChannel 2 _ t)).trans (keepsSetup_triggerChannel 3 _ t)

theorem keepsSetup_unitRead : KeepsSetup s (unitRead n s) := by
  unfold unitRead
  dsimp only
  split <;> exact .of_chans fun _ => rfl

theorem keepsSetup_afterUnit : KeepsSetup s (afterUnit n s) := by
  unfold afterUnit
  split
  · exact keepsSetup_complete n s
  · split
    · exact keepsSetup_modChan n s _ ⟨sameRegisters_refl _, rfl, rfl, id⟩
    · exact .refl s

theorem keepsSetup_masterWrite {a : Word} {w : Width} {v : Word} {t : State} (h : s.masterWrite a w v = .ok t) :
    KeepsSetup s t := by
  obtain ⟨-, rfl⟩ := masterWrite_ok s h
  exact .of_chans fun _ => rfl

theorem keepsSetup_unitWrite (m : SrcMode) : KeepsSetup s (unitWrite n m s) := by
  unfold unitWrite
  dsimp only
  split
  · exact .of_chans fun _ => rfl
  · refine KeepsSetup.trans (KeepsSetup.trans (keepsSetup_masterWrite s ‹_›) ?_) (keepsSetup_afterUnit n _)
    exact (keepsSetup_modChan n _ (fun c => c.advance s.params m) ⟨sameRegisters_refl _, rfl, rfl, id⟩).trans
      (.of_chans fun _ => rfl)

/-- The engine never writes a register and never sets ENABLE (R155). -/
theorem keepsSetup_engineStep : KeepsSetup s (engineStep s) := by
  rcases engineStep_cases s with h | ⟨k, -, -, -, h⟩ | ⟨k, m, -, -, -, h⟩ <;> rw [h]
  · exact .refl s
  · exact keepsSetup_unitRead k s
  · exact keepsSetup_unitWrite k s m

theorem keepsSetup_abort : KeepsSetup s (abortPendingUnit n s) := by
  unfold abortPendingUnit
  split
  · dsimp only
    split
    · split
      · exact KeepsSetup.trans (t := { s.drawn with unitCh := none }) (.of_chans fun _ => rfl)
          (keepsSetup_masterWrite _ ‹_›)
      · exact .of_chans fun _ => rfl
    · exact .of_chans fun _ => rfl
  · exact .refl s

end keepsSetup

/-! ### Triggers (R128) -/

section triggers
variable (s : State) (t : Trigger) (n m : ChanId)

theorem onlyChannel_triggerChannel : OnlyChannel m s (triggerChannel t s m) := by
  unfold triggerChannel
  split
  · exact onlyChannel_start m s _
  · exact .refl m s

theorem sameUnit_deliverTrigger : SameUnit s (deliverTrigger t s) := by
  show SameUnit s (triggerChannel t (triggerChannel t (triggerChannel t (triggerChannel t s 0) 1) 2) 3)
  exact (((sameUnit_triggerChannel 0 s t).trans (sameUnit_triggerChannel 1 _ t)).trans
    (sameUnit_triggerChannel 2 _ t)).trans (sameUnit_triggerChannel 3 _ t)

/-- What one observer of channel n sees of a trigger: its turn of the loop, on a state in which the channel and its
signals are as they were, and nothing after it. -/
theorem deliverTrigger_chan : ∃ u, u.chan n = s.chan n ∧ u.params = s.params ∧ u.irq.get n = s.irq.get n ∧
    u.platIf.get n = s.platIf.get n ∧ (deliverTrigger t s).chan n = (triggerChannel t u n).chan n ∧
    (deliverTrigger t s).irq.get n = (triggerChannel t u n).irq.get n ∧
    (deliverTrigger t s).platIf.get n = (triggerChannel t u n).platIf.get n := by
  have before : ∀ x m, n ≠ m → (triggerChannel t x m).chan n = x.chan n ∧ (triggerChannel t x m).params = x.params ∧
      (triggerChannel t x m).irq.get n = x.irq.get n ∧ (triggerChannel t x m).platIf.get n = x.platIf.get n :=
    fun x m hm => have o := onlyChannel_triggerChannel x t m
      ⟨o.others n hm, o.params, o.irqOthers n hm, o.platIfOthers n hm⟩
  have key : deliverTrigger t s =
    triggerChannel t (triggerChannel t (triggerChannel t (triggerChannel t s 0) 1) 2) 3 := rfl
  rw [key]
  by_cases h3 : n = 3
  · subst h3
    refine ⟨_, ?_, ?_, ?_, ?_, rfl, rfl, rfl⟩ <;> simp only [before _ 2 (by decide), before _ 1 (by decide),
      before _ 0 (by decide)]
  · simp only [before _ 3 h3]
    by_cases h2 : n = 2
    · subst h2
      refine ⟨_, ?_, ?_, ?_, ?_, rfl, rfl, rfl⟩ <;> simp only [before _ 1 (by decide), before _ 0 (by decide)]
    · simp only [before _ 2 h2]
      by_cases h1 : n = 1
      · subst h1
        refine ⟨_, ?_, ?_, ?_, ?_, rfl, rfl, rfl⟩ <;> simp only [before _ 0 (by decide)]
      · simp only [before _ 1 h1]
        have h0 : n = 0 := by clear before; revert h1 h2 h3; revert n; decide
        subst h0
        exact ⟨s, rfl, rfl, rfl, rfl, rfl, rfl, rfl⟩

/-- A relation that every turn of the loop keeps holds across a trigger. -/
theorem deliverTrigger_induction {P : State → State → Prop} (trans : ∀ s t u, P s t → P t u → P s u)
    (h : ∀ s m, P s (triggerChannel t s m)) : P s (deliverTrigger t s) := by
  show P s (triggerChannel t (triggerChannel t (triggerChannel t (triggerChannel t s 0) 1) 2) 3)
  exact trans _ _ _ (trans _ _ _ (trans _ _ _ (h _ _) (h _ _)) (h _ _)) (h _ _)

end triggers

/-! ### The engine's turn (R131-R134) -/

theorem selected_iff (s : State) (n : ChanId) :
    s.selected = some n ↔ (s.chan n).running = true ∧ ∀ m, m < n → (s.chan m).running = false := by
  unfold State.selected allChannels
  have h4 : ∀ m : ChanId, m = 0 ∨ m = 1 ∨ m = 2 ∨ m = 3 := by decide
  constructor
  · intro h
    refine ⟨by simpa using List.find?_some h, fun m hm => ?_⟩
    simp only [List.find?] at h
    cases h0 : (s.chan 0).running <;> cases h1 : (s.chan 1).running <;> cases h2 : (s.chan 2).running <;>
      cases h3 : (s.chan 3).running <;> simp [h0, h1, h2, h3] at h <;> subst h <;>
      rcases h4 m with rfl | rfl | rfl | rfl <;> first | assumption | (exact absurd hm (by decide))
  · rintro ⟨h, hm⟩
    simp only [List.find?]
    have a0 := hm 0; have a1 := hm 1; have a2 := hm 2
    rcases h4 n with rfl | rfl | rfl | rfl <;> simp_all

section unit
variable {s : State} {n : ChanId} {m : SrcMode}

theorem engineStep_read (hu : s.unitCh = none) (hs : s.selected = some n) :
    engineStep s = if s.admitted (s.chan n).curSrc (s.chan n).width then unitRead n s else s := by
  simp [engineStep, hu, hs]

theorem engineStep_write (hu : s.unitCh = some n) (hm : cntSrcMode (s.chan n).cnt = some m) :
    engineStep s = if s.admitted (s.chan n).curDst (s.chan n).width then unitWrite n m s else s := by
  simp [engineStep, hu, hm]

/-- The state after a unit has been written to memory, before its end is handled (R134). -/
def State.unitWritten (s : State) (n : ChanId) (m : SrcMode) : State :=
  { s with
    mem := memWrite s.mem (s.chan n).curDst (s.chan n).width s.unitData
    events := s.events ++ [.masterWrite (s.chan n).curDst (s.chan n).width s.unitData]
    unitCh := none
    chans := s.chans.set n ((s.chan n).advance s.params m) }

theorem unitWritten_chan (k : ChanId) :
    (s.unitWritten n m).chan k = if k = n then (s.chan n).advance s.params m else s.chan k := by
  show (s.chans.set n _).get k = _
  simp [State.chan]

/-- A unit whose destination is memory (R134). -/
theorem unitWrite_memory (hr : route s.params (s.chan n).curDst = .memory) :
    unitWrite n m s = afterUnit n (s.unitWritten n m) := by
  simp only [unitWrite, State.masterWrite, hr]; rfl

/-- A unit whose destination is a block register raises, and does nothing else (R63). -/
theorem unitWrite_register (hr : route s.params (s.chan n).curDst ≠ .memory) :
    unitWrite n m s = s.raise (.dmaSelfAccess (s.chan n).curDst) := by
  unfold unitWrite State.masterWrite
  cases h : route s.params (s.chan n).curDst <;> simp_all

/-- A reload changes no interrupt output and records no event. -/
theorem reload_signals (n : ChanId) (s : State) :
    (reload n s).irq = s.irq ∧ (reload n s).platIf = s.platIf ∧ (reload n s).events = s.events := by
  unfold reload reloadDst
  dsimp only
  split
  · exact ⟨rfl, rfl, rfl⟩
  · split
    · split <;> exact ⟨rfl, rfl, rfl⟩
    · exact ⟨rfl, rfl, rfl⟩

/-- A completion pulses exactly if IRQ = 1 (R139, R184). -/
theorem complete_signals (n : ChanId) (s : State) :
    (complete n s).irq = (if cntIrq (s.chan n).cnt then s.irq.set n true else s.irq) ∧
    (complete n s).platIf = (if cntIrq (s.chan n).cnt then s.platIf.set n true else s.platIf) ∧
    (complete n s).events = s.events ++ (if cntIrq (s.chan n).cnt then [.irq n] else []) := by
  unfold complete
  dsimp only
  split <;> split <;> simp [reload_signals, State.pulseIrq, State.log]

/-- A completion that reloads raises only for a misaligned destination taken again (R136). -/
theorem complete_faults {n : ChanId} {s : State} {count : Nat} (h : repeats (s.chan n).cnt = true)
    (hc : countOf s.params (s.chan n).cnt = some count) :
    (complete n s).faults = s.faults ++ (if cntDstMode (s.chan n).cnt = .incrementReload ∧
        misaligned ((s.chan n).dad &&& s.params.addrMask) (s.chan n).width = true
      then [{ info := .misalignedTransfer n (s.chan n).curSrc ((s.chan n).dad &&& s.params.addrMask), step := s.clock }]
      else []) := by
  have key : ∀ x : State, x.chan n = s.chan n → x.params = s.params → x.clock = s.clock → x.faults = s.faults →
      (reload n x).faults = s.faults ++ (if cntDstMode (s.chan n).cnt = .incrementReload ∧
        misaligned ((s.chan n).dad &&& s.params.addrMask) (s.chan n).width = true
      then [{ info := .misalignedTransfer n (s.chan n).curSrc ((s.chan n).dad &&& s.params.addrMask), step := s.clock }]
      else []) := by
    intro x h1 h2 h3 h4
    have hn : ({ s.chan n with remaining := count } : ChannelState).cnt = (s.chan n).cnt := rfl
    have hw : ({ s.chan n with remaining := count } : ChannelState).width = (s.chan n).width := rfl
    simp only [reload, h1, h2, hc, modChan_faults, reloadDst, chan_modChan, if_pos, modChan_params, hn, hw]
    by_cases hd : cntDstMode (s.chan n).cnt = .incrementReload
    · by_cases hm : misaligned ((s.chan n).dad &&& s.params.addrMask) (s.chan n).width = true
      · simp [hd, hm, h3, h4]
      · simp [hd, hm, h4]
    · simp [hd, h4]
  unfold complete
  dsimp only
  rw [if_pos h]
  split
  · exact key _ (by simp) rfl rfl rfl
  · exact key s rfl rfl rfl rfl

end unit

/-- What one turn of the loop of R128 adds to `events`: the pulse of an empty block that asks for it. -/
def ChannelState.pulsesOn (c : ChannelState) (t : Trigger) : Bool :=
  c.waitsOn t && decide (c.remaining = 0) && cntIrq c.cnt

theorem triggerChannel_events (t : Trigger) (s : State) (n : ChanId) : (triggerChannel t s n).events =
    s.events ++ (if (s.chan n).pulsesOn t then [.irq n] else []) := by
  unfold triggerChannel ChannelState.pulsesOn
  by_cases hw : (s.chan n).waitsOn t = true
  · by_cases h0 : (s.chan n).remaining = 0
    · rw [if_pos hw, chan_start_zero _ _ _ h0, (complete_signals n s).2.2]; simp [hw, h0]
    · rw [if_pos hw, chan_start_pos _ _ _ h0]; simp [h0]
  · rw [if_neg hw]; simp [hw]

/-- A turn of the loop raises nothing, unless it reloads an empty block. -/
theorem triggerChannel_faults (t : Trigger) (s : State) (n : ChanId)
    (h : (s.chan n).waitsOn t = true → (s.chan n).remaining = 0 → cntRepeat (s.chan n).cnt = false) :
    (triggerChannel t s n).faults = s.faults := by
  unfold triggerChannel
  by_cases hw : (s.chan n).waitsOn t = true
  · by_cases h0 : (s.chan n).remaining = 0
    · have hr : repeats (s.chan n).cnt = false := by simp [repeats, h hw h0]
      rw [if_pos hw, chan_start_zero _ _ _ h0]
      simp only [complete, hr, Bool.false_eq_true, if_false, modChan_faults]
      split <;> rfl
    · rw [if_pos hw, chan_start_pos _ _ _ h0]; rfl
  · rw [if_neg hw]

/-- The entries of a whole delivery: the pulses, in the order of the channels (R128); and its faults. -/
theorem deliverTrigger_records (t : Trigger) (s : State) :
    (deliverTrigger t s).events =
      s.events ++ (allChannels.filter fun n => (s.chan n).pulsesOn t).map Event.irq ∧
    ((∀ n, (s.chan n).waitsOn t = true → (s.chan n).remaining = 0 → cntRepeat (s.chan n).cnt = false) →
      (deliverTrigger t s).faults = s.faults) := by
  have key : deliverTrigger t s =
    triggerChannel t (triggerChannel t (triggerChannel t (triggerChannel t s 0) 1) 2) 3 := rfl
  have other : ∀ x n m, n ≠ m → (triggerChannel t x m).chan n = x.chan n :=
    fun x n m hm => (onlyChannel_triggerChannel x t m).others n hm
  rw [key]
  refine ⟨?_, fun h => ?_⟩
  · rw [triggerChannel_events, triggerChannel_events, triggerChannel_events, triggerChannel_events,
      other _ 3 2 (by decide), other _ 3 1 (by decide), other _ 3 0 (by decide), other _ 2 1 (by decide),
      other _ 2 0 (by decide), other _ 1 0 (by decide)]
    cases h0 : (s.chan 0).pulsesOn t <;> cases h1 : (s.chan 1).pulsesOn t <;> cases h2 : (s.chan 2).pulsesOn t <;>
      cases h3 : (s.chan 3).pulsesOn t <;> simp [allChannels, h0, h1, h2, h3]
  · rw [triggerChannel_faults, triggerChannel_faults, triggerChannel_faults, triggerChannel_faults]
    · exact h 0
    · rw [other _ 1 0 (by decide)]; exact h 1
    · rw [other _ 2 1 (by decide), other _ 2 0 (by decide)]; exact h 2
    · rw [other _ 3 2 (by decide), other _ 3 1 (by decide), other _ 3 0 (by decide)]; exact h 3

end Sys2Proof.Machine
end

