-- ==== Sys2Proof/Laws/Routing.lean ====
section
/-!
SUPPORT. What the constraints on `ADDR_MAP` give (spec/20_memory.md R60): register addresses are told apart, and the
routing of a master access (R63) and of a front-end access (30_encoding.md R83) finds the one register it names.
-/
namespace Sys2Proof

section wf
variable {p : Params} (h : p.wf = true)
include h

/-- Two registers are the same, or their 4-byte ranges do not overlap. -/
theorem wf_disjoint (n m : ChanId) (r q : Reg) :
    (n, r) = (m, q) ∨ (p.regAddr n r).toNat + 4 ≤ (p.regAddr m q).toNat ∨
      (p.regAddr m q).toNat + 4 ≤ (p.regAddr n r).toNat := by
  have h1 : p.addrsDisjoint = true := by simp only [Params.wf, Bool.and_eq_true] at h; exact h.1.2
  simp only [Params.addrsDisjoint, List.all_eq_true, Bool.or_eq_true, decide_eq_true_eq] at h1
  have := h1 (n, r) (mem_allRegisters n r) (m, q) (mem_allRegisters m q)
  tauto

theorem wf_aligned (n : ChanId) (r : Reg) : (p.regAddr n r).toNat % 4 = 0 := by
  have h1 : p.addrsAligned = true := by simp only [Params.wf, Bool.and_eq_true] at h; exact h.1.1.2
  simp only [Params.addrsAligned, List.all_eq_true, decide_eq_true_eq] at h1
  exact h1 (n, r) (mem_allRegisters n r)

/-- `ADDR_MAP` is injective. -/
theorem regAddr_inj {n m : ChanId} {r q : Reg} (he : p.regAddr n r = p.regAddr m q) : (n, r) = (m, q) := by
  rcases wf_disjoint h n m r q with h | h | h
  · exact h
  all_goals rw [he] at h; omega

/-- A 4-byte front-end access at a register's address is that register's transaction. -/
theorem decodeBus_register (n : ChanId) (r : Reg) (d : Option Word) :
    decodeBus p { addr := p.regAddr n r, size := 4, wdata := d } =
      .ok (match d with | none => readInstr n r | some d => writeInstr n r d) := by
  unfold decodeBus
  split
  · rename_i m q hf
    have := List.find?_some hf
    simp only [decide_true, Bool.and_true, decide_eq_true_eq] at this
    obtain ⟨rfl, rfl⟩ := Prod.mk.inj (regAddr_inj h this)
    cases d <;> rfl
  · rename_i hf
    have := List.find?_eq_none.1 hf _ (mem_allRegisters n r)
    simp at this

end wf

namespace Machine

/-- An address in the range of FILL[m] is routed to FILL[m]. -/
theorem route_fill {p : Params} (h : p.wf = true) {m : ChanId} {a : Word} (h1 : (p.regAddr m .fill).toNat ≤ a.toNat)
    (h2 : a.toNat < (p.regAddr m .fill).toNat + 4) : route p a = .fill m := by
  unfold route
  split
  · rename_i k hf
    have := List.find?_some hf
    simp only [inRange, Bool.and_eq_true, decide_eq_true_eq] at this
    rcases wf_disjoint h k m .fill .fill with h3 | h3 | h3
    · cases h3; rfl
    all_goals omega
  · rename_i hf
    have := List.find?_eq_none.1 hf _ (mem_allChannels m)
    simp [inRange] at this; omega

end Machine

end Sys2Proof
end

