-- ==== Sys2Proof/Laws/Registers.lean ====
section
/-!
SUPPORT. The register transactions (spec/40_register_access.md) and arming (41_engine.md R126): what each does, said
once, outside and inside a settle period, and by the outcome of the arming checks.
-/
namespace Sys2Proof.Machine

/-- Two updates of one channel are one. -/
theorem modChan_modChan (s : State) (n : ChanId) (f g : ChannelState → ChannelState) :
    (s.modChan n f).modChan n g = s.modChan n fun c => g (f c) := by
  have h : (s.modChan n f).chan n = f (s.chan n) := by simp
  rw [State.modChan, h]
  simp [State.modChan, State.setChan]

/-- A completion that does not repeat (R135). -/
theorem complete_idle {n : ChanId} {s : State} (h : repeats (s.chan n).cnt = false) :
    complete n s = (if cntIrq (s.chan n).cnt then s.pulseIrq n else s).modChan n ChannelState.halt := by
  simp [complete, h]

theorem sameUnit_log (s : State) (op : BitVec 6) (x y : Option Word) (b : State) :
    SameUnit s (s.logTransaction op x y b) := ⟨rfl, rfl, rfl, rfl, rfl⟩

/-! ### The settle pre-check (R114) -/

theorem registerRead_ok {n : ChanId} {r : Reg} {body : State → State × Option Word} {s : State}
    (h : s.settleHit n = false) :
    registerRead n r body s =
      { (body s).1.logTransaction (regOp false n r) none (body s).2 s with lastRead := (body s).2 } := by
  simp [registerRead, h]

theorem registerWrite_ok {n : ChanId} {r : Reg} {d : Word} {body : State → State} {s : State}
    (h : s.settleHit n = false) :
    registerWrite n r d body s = (body s).logTransaction (regOp true n r) (some d) none s := by
  simp [registerWrite, h]

/-- A settle delay that covers the access is a hit, in either scope. -/
theorem settleHit_iff {s : State} {n : ChanId} : s.settleHit n = true ↔
    (s.params.settleScope = .sameChannel ∧ 0 < (s.chan n).settle ∨
      s.params.settleScope = .allChannels ∧ ∃ k, 0 < (s.chan k).settle) := by
  unfold State.settleHit
  split
  · rename_i h; simp [h]
  · rename_i h
    simp only [List.any_eq_true, decide_eq_true_eq, h, reduceCtorEq, false_and, false_or, true_and]
    exact ⟨fun ⟨k, _, hk⟩ => ⟨k, hk⟩, fun ⟨k, hk⟩ => ⟨k, mem_allChannels k, hk⟩⟩

/-! ### Reads -/

/-- The word a read of CNT returns: live bits above bit 20, drawn bits below (R107). -/
theorem cntReadback_bits (c : ChannelState) (draw : Word) :
    (cntReadback c draw).getLsbD 31 = c.enabled ∧ (∀ i, 21 ≤ i → (cntReadback c draw).getLsbD i = c.cnt.getLsbD i) ∧
    (∀ i, i < 21 → (cntReadback c draw).getLsbD i = draw.getLsbD i) := by
  have hg : ∀ i, (cntReadback c draw).getLsbD i =
      if i < 21 then (draw.extractLsb' 0 21).getLsbD i else (c.cnt.extractLsb' 21 11).getLsbD (i - 21) := by
    intro i
    have h : (cntReadback c draw).getLsbD i =
      BitVec.getLsbD (c.cnt.extractLsb' 21 11 ++ draw.extractLsb' 0 21) i := rfl
    rw [h, BitVec.getLsbD_append]
  have h2 : ∀ i, 21 ≤ i → (cntReadback c draw).getLsbD i = c.cnt.getLsbD i := by
    intro i hi
    rw [hg, if_neg (by omega), BitVec.getLsbD_extractLsb']
    rcases Nat.lt_or_ge i 32 with h | h
    · rw [decide_eq_true (by omega), Bool.true_and]; congr 1; omega
    · rw [decide_eq_false (by omega), Bool.false_and, BitVec.getLsbD_of_ge _ _ h]
  refine ⟨?_, h2, ?_⟩
  · rw [h2 31 (by omega)]; exact cntEnable_cnt c
  · intro i hi
    rw [hg, if_pos hi, BitVec.getLsbD_extractLsb']; simp [hi]

/-! ### Writes of SAD, DAD and FILL -/

theorem noteBusy_faults (s : State) (n : ChanId) (r : Reg) : (s.noteBusy n r).faults =
    s.faults ++ (if (s.chan n).enabled then [{ info := .issueOnBusy n r, step := s.clock }] else []) := by
  unfold State.noteBusy State.armed; split <;> simp

/-- Storing into a channel with the busy check changes that channel by the store, and records the check (R109, R111). -/
theorem noteBusy_store (s : State) (n : ChanId) (r : Reg) (f : ChannelState → ChannelState) (op : BitVec 6)
    (x y : Option Word) (b : State) :
    let t := ((s.noteBusy n r).modChan n f).logTransaction op x y b
    t.chan n = f (s.chan n) ∧
      t.faults = s.faults ++ (if (s.chan n).enabled then [{ info := .issueOnBusy n r, step := s.clock }] else []) ∧
      t.irq = s.irq ∧ t.platIf = s.platIf ∧ SameUnit s t ∧ OnlyChannel n s t := by
  dsimp only
  refine ⟨?_, noteBusy_faults s n r, ?_, ?_, ?_, ?_⟩
  · unfold State.noteBusy State.logTransaction; split <;> simp
  · unfold State.noteBusy State.logTransaction; split <;> rfl
  · unfold State.noteBusy State.logTransaction; split <;> rfl
  · unfold State.noteBusy State.logTransaction; split <;> exact ⟨rfl, rfl, rfl, rfl, rfl⟩
  · exact ((onlyChannel_noteBusy n s r).trans (onlyChannel_modChan n _ f)).trans (onlyChannel_log n _ _)

/-! ### Arming (R126) -/

section arm
variable {n : ChanId} {s : State}

/-- An arming whose checks fail only begins, and raises. -/
theorem arm_fault {f : FaultInfo} (h : armCheck s.params n ((s.chan n).beginArm s.params) = .error f) :
    arm n s = (s.modChan n fun c => c.beginArm s.params).raise f := by
  simp [arm, h]

/-- An arming with a misaligned address latches, and raises. -/
theorem arm_misaligned {k : Nat} (h : armCheck s.params n ((s.chan n).beginArm s.params) = .ok k)
    (ha : (misaligned ((s.chan n).sad &&& s.params.addrMask) ((s.chan n).beginArm s.params).width ||
      misaligned ((s.chan n).dad &&& s.params.addrMask) ((s.chan n).beginArm s.params).width) = true) :
    arm n s = (s.modChan n fun c => (c.beginArm s.params).latch s.params).raise
      (.misalignedTransfer n ((s.chan n).sad &&& s.params.addrMask) ((s.chan n).dad &&& s.params.addrMask)) := by
  have h1 : ((s.chan n).beginArm s.params).sad = (s.chan n).sad := rfl
  have h2 : ((s.chan n).beginArm s.params).dad = (s.chan n).dad := rfl
  simp only [arm, modChan_params, chan_modChan, if_pos, h, latch_curSrc, latch_curDst, latch_width, h1, h2, ha,
    modChan_modChan]

/-- An arming that passes every check arms the channel for its count, and starts it if its timing is Immediate. -/
theorem arm_ok {k : Nat} (h : armCheck s.params n ((s.chan n).beginArm s.params) = .ok k)
    (ha : misaligned ((s.chan n).sad &&& s.params.addrMask) ((s.chan n).beginArm s.params).width = false)
    (hb : misaligned ((s.chan n).dad &&& s.params.addrMask) ((s.chan n).beginArm s.params).width = false) :
    arm n s = (let t := s.modChan n fun c => ((c.beginArm s.params).latch s.params).armFor k
      if ((s.chan n).beginArm s.params).timing = .immediate then start n (.atMost k) t else t) := by
  have h1 : ((s.chan n).beginArm s.params).sad = (s.chan n).sad := rfl
  have h2 : ((s.chan n).beginArm s.params).dad = (s.chan n).dad := rfl
  simp only [arm, modChan_params, chan_modChan, if_pos, h, latch_curSrc, latch_curDst, latch_width, latch_timing, h1,
    h2, ha, hb, Bool.or_false, modChan_modChan]
  rfl

theorem armCheck_ok {p : Params} {c : ChannelState} {count : Nat} (h1 : cntSrcMode c.cnt ≠ none)
    (h2 : c.sadW = true) (h3 : c.dadW = true)
    (h4 : ¬ (cntRepeat c.cnt = true ∧ c.timing = .immediate ∧ p.repeatImmediate = .fault))
    (h5 : countOf p c.cnt = some count) : armCheck p n c = .ok count := by
  simp only [armCheck, h1, h2, h3, if_neg h4, h5, if_false]
  simp

/-- A channel that the written word arms holds that word. -/
theorem cnt_beginArm_storeCnt (c : ChannelState) (p : Params) {d : Word} (h : cntEnable d = true) :
    ((c.storeCnt d).beginArm p).cnt = d := cnt_storeCnt c d true h.symm

/-- The fields of the word an arming reads. -/
theorem fields_beginArm_storeCnt (c : ChannelState) (p : Params) {d : Word} (h : cntEnable d = true) :
    ((c.storeCnt d).beginArm p).width = cntWidth d ∧ ((c.storeCnt d).beginArm p).timing = cntTiming d := by
  unfold ChannelState.width ChannelState.timing
  rw [cnt_beginArm_storeCnt c p h]
  exact ⟨rfl, rfl⟩

/-- An arming write with none of the arming faults. -/
theorem arm_storeCnt_ok {d : Word} {count : Nat} (hd : cntEnable d = true) (hm : cntSrcMode d ≠ none)
    (hsw : (s.chan n).sadW = true) (hdw : (s.chan n).dadW = true)
    (hr : ¬ (cntRepeat d = true ∧ cntTiming d = .immediate ∧ s.params.repeatImmediate = .fault))
    (hc : countOf s.params d = some count)
    (ha : misaligned ((s.chan n).sad &&& s.params.addrMask) (cntWidth d) = false)
    (hb : misaligned ((s.chan n).dad &&& s.params.addrMask) (cntWidth d) = false) :
    arm n (s.modChan n fun c => c.storeCnt d) =
      (let t := s.modChan n fun c => (((c.storeCnt d).beginArm s.params).latch s.params).armFor count
      if cntTiming d = .immediate then start n (.atMost count) t else t) := by
  have hcnt := cnt_beginArm_storeCnt (s.chan n) s.params hd
  obtain ⟨hw, ht⟩ := fields_beginArm_storeCnt (s.chan n) s.params hd
  rw [arm_ok (k := count)]
  · simp [ht, modChan_modChan]
  · simp only [modChan_params, chan_modChan, if_pos]
    apply armCheck_ok
    · rwa [hcnt]
    · exact hsw
    · exact hdw
    · rwa [hcnt, ht]
    · rwa [hcnt]
  · simp only [modChan_params, chan_modChan, if_pos]; rw [hw]; exact ha
  · simp only [modChan_params, chan_modChan, if_pos]; rw [hw]; exact hb

/-- An arming write on an Idle channel (R110). -/
theorem writeCnt_idle {d : Word} (he : (s.chan n).enabled = false) (hd : cntEnable d = true) :
    writeCnt n d s = arm n (s.modChan n fun c => c.storeCnt d) := by
  simp [writeCnt, State.armed, he, writeCntIdle, hd]

end arm

/-! ### The unit in flight (R141) -/

section abort
variable {n m : ChanId} {s : State}

theorem abort_other (h : s.unitCh ≠ some n) : abortPendingUnit n s = s := by simp [abortPendingUnit, h]

theorem abort_chan : (abortPendingUnit n s).chan m = s.chan m := by
  unfold abortPendingUnit
  split
  · dsimp only
    split
    · split
      · obtain ⟨-, rfl⟩ := masterWrite_ok _ ‹_›; rfl
      · rfl
    · rfl
  · rfl

/-- The unit in flight, whole: written to memory or raising when the drawn bit says so, else dropped (R141, log 14). -/
theorem abort_eq (h : s.unitCh = some n) :
    abortPendingUnit n s =
      if Config.freeBit s.draws = true ∧ route s.params (s.chan n).curDst = .memory ∧
          memAdmits s.params (s.chan n).curDst (s.chan n).width = true then
        { s.drawn with
          unitCh := none
          mem := memWrite s.mem (s.chan n).curDst (s.chan n).width s.unitData }.log
            (.masterWrite (s.chan n).curDst (s.chan n).width s.unitData)
      else if Config.freeBit s.draws = true ∧ route s.params (s.chan n).curDst ≠ .memory then
        State.raise { s.drawn with unitCh := none } (.dmaSelfAccess (s.chan n).curDst)
      else { s.drawn with unitCh := none } := by
  unfold abortPendingUnit State.masterWrite State.drawBit State.admitted
  rw [if_pos h]
  dsimp only [State.drawn]
  cases hb : Config.freeBit s.draws <;> cases hr : route s.params (s.chan n).curDst <;>
    cases hm : memAdmits s.params (s.chan n).curDst (s.chan n).width <;> simp

/-- What becomes of the unit in flight, field by field, as the drawn bit says. -/
theorem abort_fields (h : s.unitCh = some n) :
    let c := s.chan n
    let toMemory := Config.freeBit s.draws && decide (route s.params c.curDst = .memory) && memAdmits s.params c.curDst c.width
    let toRegister := Config.freeBit s.draws && decide (route s.params c.curDst ≠ .memory)
    let t := abortPendingUnit n s
    t.unitCh = none ∧ t.draws = s.draws + 1 ∧ t.unitData = s.unitData ∧
      t.mem = (if toMemory then memWrite s.mem c.curDst c.width s.unitData else s.mem) ∧
      t.faults = s.faults ++ (if toRegister then [{ info := .dmaSelfAccess c.curDst, step := s.clock }] else []) ∧
      t.events = s.events ++ (if toMemory then [.masterWrite c.curDst c.width s.unitData] else []) := by
  rw [abort_eq h]
  cases hb : Config.freeBit s.draws <;> cases hr : route s.params (s.chan n).curDst <;>
    cases hm : memAdmits s.params (s.chan n).curDst (s.chan n).width <;>
    simp [hr, hm, State.log, State.drawn, State.raise]

/-- A pending unit is dropped, written to memory, or raises. -/
theorem abort_cases (h : s.unitCh = some n) :
    abortPendingUnit n s = { s.drawn with unitCh := none } ∨
    (route s.params (s.chan n).curDst = .memory ∧ abortPendingUnit n s =
      { s.drawn with
        unitCh := none
        mem := memWrite s.mem (s.chan n).curDst (s.chan n).width s.unitData }.log
          (.masterWrite (s.chan n).curDst (s.chan n).width s.unitData)) ∨
    (route s.params (s.chan n).curDst ≠ .memory ∧ abortPendingUnit n s =
      State.raise { s.drawn with unitCh := none } (.dmaSelfAccess (s.chan n).curDst)) := by
  rw [abort_eq h]
  split
  · exact .inr (.inl ⟨‹_ ∧ _ ∧ _›.2.1, rfl⟩)
  · split
    · exact .inr (.inr ⟨‹_ ∧ _ ≠ _›.2, rfl⟩)
    · exact .inl rfl

end abort

/-- What an arming does depends on the registers of the channel alone: two states that agree on them are armed alike. -/
theorem arm_congr {a b : State} {n : ChanId} (hp : a.params = b.params) (hclk : a.clock = b.clock)
    (hirq : a.irq = b.irq) (hpf : a.platIf = b.platIf)
    (hc : (a.chan n).beginArm b.params = (b.chan n).beginArm b.params) :
    (arm n a).chan n = (arm n b).chan n ∧ (arm n a).irq = (arm n b).irq ∧ (arm n a).platIf = (arm n b).platIf ∧
    (arm n a).faults = a.faults ++ (arm n b).faults.drop b.faults.length := by
  have hsad : (a.chan n).sad = (b.chan n).sad := congrArg (·.sad) hc
  have hdad : (a.chan n).dad = (b.chan n).dad := congrArg (·.dad) hc
  cases h : armCheck a.params n ((a.chan n).beginArm a.params) with
  | error f =>
    rw [arm_fault h, arm_fault (s := b) (f := f) (by rw [← hc, ← hp]; exact h)]
    simp [hp, hc, hclk, hirq, hpf]
  | ok k =>
    have h' : armCheck b.params n ((b.chan n).beginArm b.params) = .ok k := by rw [← hc, ← hp]; exact h
    by_cases hm : (misaligned ((a.chan n).sad &&& a.params.addrMask) ((a.chan n).beginArm a.params).width ||
      misaligned ((a.chan n).dad &&& a.params.addrMask) ((a.chan n).beginArm a.params).width) = true
    · rw [arm_misaligned h hm, arm_misaligned h' (by rw [← hc, ← hp, ← hsad, ← hdad]; exact hm)]
      simp [hc, hp, hclk, hirq, hpf, hsad, hdad]
    · simp only [Bool.not_eq_true, Bool.or_eq_false_iff] at hm
      rw [arm_ok h hm.1 hm.2, arm_ok h' (by rw [← hc, ← hp, ← hsad]; exact hm.1) (by rw [← hc, ← hp, ← hdad]; exact hm.2)]
      dsimp only
      rw [hp, hc]
      split
      · rename_i ht
        have hrep : repeats ((b.chan n).beginArm b.params).cnt = false := by
          unfold ChannelState.timing at ht; simp [repeats, ht]
        by_cases h0 : k = 0
        · rw [chan_start_zero n _ _ (by simp [h0]), chan_start_zero n _ _ (by simp [h0]),
            complete_idle (by simpa [hc, hp] using hrep), complete_idle (by simpa using hrep)]
          cases hi : cntIrq ((b.chan n).beginArm b.params).cnt <;> simp [hi, hc, hirq, hpf] 
        · rw [chan_start_pos n _ _ (by simp [h0]), chan_start_pos n _ _ (by simp [h0])]
          simp [hc, hirq, hpf]
      · simp [hc, hirq, hpf]

/-- The unit in flight pulses no interrupt (R110). -/
theorem abort_signals (n : ChanId) (s : State) : (abortPendingUnit n s).irq = s.irq ∧ (abortPendingUnit n s).platIf = s.platIf ∧
    (abortPendingUnit n s).params = s.params ∧ (abortPendingUnit n s).clock = s.clock := by
  by_cases hu : s.unitCh = some n
  · rcases abort_cases hu with h | ⟨-, h⟩ | ⟨-, h⟩ <;> rw [h] <;> exact ⟨rfl, rfl, rfl, rfl⟩
  · rw [abort_other hu]; exact ⟨rfl, rfl, rfl, rfl⟩

/-! ### The shape of every register transaction -/

/-- A register transaction is a read with a body that changes little, or a write whose body stores a register or is
`WR CNT`. -/
theorem registerAccess_cases {i : Instr} {n : ChanId} {op : BitVec 6} (h : registerAccess i = some (n, op)) :
    (∃ r body, op = regOp false n r ∧ registerOperand i = none ∧ (∀ s, exec i s = .next (registerRead n r body s)) ∧
      ∀ s, OnlyChannel n s (body s).1 ∧ (body s).1.unitCh = s.unitCh ∧ (body s).1.unitData = s.unitData ∧
        (body s).1.mem = s.mem ∧ (body s).1.chans = s.chans ∧ (body s).1.faults.length ≤ s.faults.length + 1) ∨
    (∃ r d body, op = regOp true n r ∧ registerOperand i = some d ∧ (∀ s, exec i s = .next (registerWrite n r d body s)) ∧
      ((∃ f, (∀ c, (f c).settle = c.settle ∧ (f c).conf = c.conf ∧ (f c).enabled = c.enabled ∧
          (f c).running = c.running ∧ (f c).budget = c.budget ∧ (f c).remaining = c.remaining ∧
          (f c).armOk = c.armOk ∧ (c.sadW = true → (f c).sadW = true) ∧ (c.dadW = true → (f c).dadW = true)) ∧
        ∀ s, body s = (s.noteBusy n r).modChan n f) ∨ (i = .wrCnt n d ∧ body = writeCnt n d))) := by
  cases i <;> simp only [registerAccess, Option.some.injEq, Prod.mk.injEq, reduceCtorEq] at h <;> obtain ⟨rfl, rfl⟩ := h
  · exact .inl ⟨_, _, rfl, rfl, fun s => rfl, fun s => ⟨onlyChannel_drawn _ _, rfl, rfl, rfl, rfl, Nat.le_succ _⟩⟩
  · exact .inl ⟨_, _, rfl, rfl, fun s => rfl, fun s => ⟨onlyChannel_drawn _ _, rfl, rfl, rfl, rfl, Nat.le_succ _⟩⟩
  · exact .inl ⟨_, _, rfl, rfl, fun s => rfl, fun s => ⟨onlyChannel_drawn _ _, rfl, rfl, rfl, rfl, Nat.le_succ _⟩⟩
  · refine .inl ⟨_, _, rfl, rfl, fun s => rfl, fun s => ?_⟩
    unfold readFill
    split
    · exact ⟨.refl _ _, rfl, rfl, rfl, rfl, Nat.le_succ _⟩
    · exact ⟨onlyChannel_raise _ _ _, rfl, rfl, rfl, rfl, by simp⟩
  · rename_i d
    exact .inr ⟨_, _, _, rfl, rfl, fun s => rfl, .inl ⟨fun c => { c with sad := d, sadW := true },
      fun c => ⟨rfl, rfl, rfl, rfl, rfl, rfl, rfl, fun _ => rfl, id⟩, fun s => rfl⟩⟩
  · rename_i d
    exact .inr ⟨_, _, _, rfl, rfl, fun s => rfl, .inl ⟨fun c => { c with dad := d, dadW := true },
      fun c => ⟨rfl, rfl, rfl, rfl, rfl, rfl, rfl, id, fun _ => rfl⟩, fun s => rfl⟩⟩
  · exact .inr ⟨_, _, _, rfl, rfl, fun s => rfl, .inr ⟨rfl, rfl⟩⟩
  · rename_i d
    exact .inr ⟨_, _, _, rfl, rfl, fun s => rfl, .inl ⟨fun c => { c with fill := d, fillW := true },
      fun c => ⟨rfl, rfl, rfl, rfl, rfl, rfl, rfl, id, id⟩, fun s => rfl⟩⟩

/-- The unit in flight can change only its own bytes of memory. -/
theorem abort_byteAt {s : State} {n : ChanId} {b : Nat}
    (hb : ∀ k, k < widthBytes (s.chan n).width → b ≠ byteAddr (s.chan n).curDst k) :
    byteAt (abortPendingUnit n s).mem b = byteAt s.mem b := by
  by_cases hu : s.unitCh = some n
  · rcases abort_cases hu with h | ⟨-, h⟩ | ⟨-, h⟩ <;> rw [h]
    · rfl
    · exact byteAt_memWrite_other hb
    · rfl
  · rw [abort_other hu]

theorem abort_unitData {s : State} {n : ChanId} : (abortPendingUnit n s).unitData = s.unitData := by
  by_cases hu : s.unitCh = some n
  · exact (abort_fields hu).2.2.1
  · rw [abort_other hu]

theorem abort_lastRead {s : State} {n : ChanId} : (abortPendingUnit n s).lastRead = s.lastRead := by
  by_cases hu : s.unitCh = some n
  · rcases abort_cases hu with h | ⟨-, h⟩ | ⟨-, h⟩ <;> rw [h] <;> rfl
  · rw [abort_other hu]

/-- A write of CNT can change only the bytes of the channel's unit in flight (R110, R141), no unit's value, and no result
of a read. -/
theorem writeCnt_memory {s : State} {n : ChanId} {d : Word} :
    (writeCnt n d s).unitData = s.unitData ∧ (writeCnt n d s).lastRead = s.lastRead ∧
    ∀ b, (∀ k, k < widthBytes (s.chan n).width → b ≠ byteAddr (s.chan n).curDst k) →
      byteAt (writeCnt n d s).mem b = byteAt s.mem b := by
  have key : ∀ x : State, x.chan n = s.chan n → SameUnit s x → (abortPendingUnit n x).unitData = s.unitData ∧
      (abortPendingUnit n x).lastRead = s.lastRead ∧
      ∀ b, (∀ k, k < widthBytes (s.chan n).width → b ≠ byteAddr (s.chan n).curDst k) →
        byteAt (abortPendingUnit n x).mem b = byteAt s.mem b := fun x hc hx =>
    ⟨abort_unitData.trans hx.unitData, abort_lastRead.trans hx.lastRead, fun b hb => (abort_byteAt (by rw [hc]; exact hb)).trans (by rw [hx.mem])⟩
  unfold writeCnt
  split
  · have h : SameUnit s (writeCntIdle n d s) := by
      unfold writeCntIdle
      dsimp only
      split
      · exact (sameUnit_modChan n s _).trans (sameUnit_arm n _)
      · exact sameUnit_modChan n s _
    exact ⟨h.unitData, h.lastRead, fun b _ => by rw [h.mem]⟩
  · split
    · unfold rearm
      rw [(sameUnit_arm n _).unitData, (sameUnit_arm n _).mem, (sameUnit_arm n _).lastRead]
      exact key _ rfl (sameUnit_raise s _)
    · refine key _ ?_ ?_ <;> split <;> first | rfl | exact .refl s | exact sameUnit_raise s _

/-- While no unit of the channel is pending, a write of CNT leaves the latch, memory and the free values alone. -/
theorem writeCnt_otherUnit {s : State} {n : ChanId} {d : Word} (h : s.unitCh ≠ some n) :
    SameUnit s (writeCnt n d s) := by
  unfold writeCnt
  split
  · unfold writeCntIdle
    dsimp only
    split
    · exact (sameUnit_modChan n s _).trans (sameUnit_arm n _)
    · exact sameUnit_modChan n s _
  · split
    · unfold rearm
      rw [abort_other (by simpa using h)]
      exact ((sameUnit_raise s _).trans (sameUnit_modChan n _ _)).trans (sameUnit_arm n _)
    · unfold cancelArmed
      have h1 : SameUnit s (if cntRepeat (s.chan n).cnt = true then s else s.raise (.unsafeCancel n)) := by
        split
        · exact .refl s
        · exact sameUnit_raise s _
      dsimp only
      rw [abort_other (by rw [h1.unitCh]; exact h)]
      exact h1.trans (sameUnit_modChan n _ _)

/-! ### How many faults one operation records (R191) -/

section count
variable (s : State) (n : ChanId)

theorem faults_noteBusy (r : Reg) : (s.noteBusy n r).faults.length ≤ s.faults.length + 1 := by
  rw [noteBusy_faults]; split <;> simp

theorem faults_reload : (reload n s).faults.length ≤ s.faults.length + 1 := by
  unfold reload reloadDst
  dsimp only
  split
  · simp
  · split
    · split <;> simp
    · simp

/-- An arming raises at most one fault: one that starts completes without a reload, for Immediate does not repeat. -/
theorem faults_arm : (arm n s).faults.length ≤ s.faults.length + 1 := by
  cases h : armCheck s.params n ((s.chan n).beginArm s.params) with
  | error f => rw [arm_fault h]; simp
  | ok k =>
    by_cases ha : (misaligned ((s.chan n).sad &&& s.params.addrMask) ((s.chan n).beginArm s.params).width ||
      misaligned ((s.chan n).dad &&& s.params.addrMask) ((s.chan n).beginArm s.params).width) = true
    · rw [arm_misaligned h ha]; simp
    · simp only [Bool.not_eq_true, Bool.or_eq_false_iff] at ha
      rw [arm_ok h ha.1 ha.2]
      dsimp only
      split
      · rename_i ht
        unfold start
        split
        · rw [complete_idle]
          · simp only [modChan_faults]; split <;> simp
          · have : repeats ((s.chan n).beginArm s.params).cnt = false := by
              unfold ChannelState.timing at ht; simp [repeats, ht]
            simpa using this
        · simp
      · simp

theorem faults_abort : (abortPendingUnit n s).faults.length ≤ s.faults.length + 1 := by
  by_cases hu : s.unitCh = some n
  · rcases abort_cases hu with h | ⟨-, h⟩ | ⟨-, h⟩ <;> rw [h] <;> simp
  · rw [abort_other hu]; omega

theorem faults_writeCnt (d : Word) : (writeCnt n d s).faults.length ≤ s.faults.length + 3 := by
  unfold writeCnt
  split
  · unfold writeCntIdle
    dsimp only
    split
    · exact (faults_arm _ n).trans (by simp)
    · simp
  · split
    · unfold rearm
      refine (faults_arm _ n).trans ?_
      have := faults_abort (s.raise (.issueOnBusy n .cnt)) n
      simp at this ⊢; omega
    · unfold cancelArmed
      dsimp only
      have := faults_abort (if cntRepeat (s.chan n).cnt = true then s else s.raise (.unsafeCancel n)) n
      simp only [modChan_faults]
      refine this.trans ?_
      split <;> simp

end count

/-! ### TICK (R113) -/

theorem tickAll_eq (s : State) : tickAll s = { s with
    chans := ⟨s.chans.c0.tickSettle, s.chans.c1.tickSettle, s.chans.c2.tickSettle, s.chans.c3.tickSettle⟩ } := rfl

theorem tickAll_chan (s : State) (k : ChanId) : (tickAll s).chan k = (s.chan k).tickSettle := by
  rw [tickAll_eq]; fin_cases k <;> rfl

/-! ### Settle counters (R113) -/

/-- Outside a settle period the channel's own counter is 0. -/
theorem settle_zero {s : State} {n : ChanId} (h : s.settleHit n = false) : (s.chan n).settle = 0 := by
  by_contra hc
  have : s.settleHit n = true := settleHit_iff.2 (by
    cases hs : s.params.settleScope
    · exact .inl ⟨rfl, by omega⟩
    · exact .inr ⟨rfl, n, by omega⟩)
  rw [h] at this; cases this

theorem settle_registerWrite {s : State} {n : ChanId} {r : Reg} {d : Word} {body : State → State} {k : ChanId}
    (hb : s.settleHit n = false → (s.chan k).settle ≤ ((body s).chan k).settle) :
    (s.chan k).settle ≤ ((registerWrite n r d body s).chan k).settle := by
  unfold registerWrite
  dsimp only
  by_cases h : s.settleHit n = true
  · simp [h, State.logTransaction]
  · simp only [Bool.not_eq_true] at h; simp [h, State.logTransaction]; exact hb h

/-- No register transaction counts a settle counter down. -/
theorem settle_registerAccess {i : Instr} {n : ChanId} {op : BitVec 6} {s t : State}
    (h : registerAccess i = some (n, op)) (he : exec i s = .next t) (k : ChanId) :
    (s.chan k).settle ≤ (t.chan k).settle := by
  rcases registerAccess_cases h with ⟨r, body, -, -, hx, hb⟩ | ⟨r, d, body, -, -, hx, hb⟩
  · rw [hx] at he; cases he
    unfold registerRead
    dsimp only
    split
    · exact le_refl _
    · have : (body s).1.chan k = s.chan k := by unfold State.chan; rw [(hb s).2.2.2.2.1]
      show _ ≤ ((body s).1.chan k).settle
      rw [this]
  · rw [hx] at he; cases he
    apply settle_registerWrite
    intro hs
    rcases hb with ⟨f, hf, hb⟩ | ⟨-, rfl⟩
    · rw [hb, chan_modChan]
      split
      · subst_vars; rw [(hf _).1]; unfold State.noteBusy; split <;> exact le_refl _
      · unfold State.noteBusy; split <;> exact le_refl _
    · by_cases hk : k = n
      · subst hk; rw [settle_zero hs]; exact Nat.zero_le _
      · rw [(onlyChannel_writeCnt n s d).others k hk]

end Sys2Proof.Machine
end

