-- ==== Sys2Proof/Laws/Invariant.lean ====
section
/-!
SUPPORT. The invariant (spec/10_state.md R38) through each operation of the block: arming, starting, completing, the
unit in flight, the register transactions, triggers, TICK and the engine's turn.
-/
namespace Sys2Proof.Machine

/-! ### Alignment (20_memory.md R58, R67) -/

theorem misaligned_false {a : Word} {w : Width} : misaligned a w = false ↔ a.toNat % widthBytes w = 0 := by
  simp [misaligned]

theorem misaligned_and {a mask : Word} {w : Width} (h : misaligned a w = false) : misaligned (a &&& mask) w = false := by
  rw [misaligned_false] at h ⊢
  rw [BitVec.toNat_and]
  cases w
  · have := Nat.and_mod_two_pow (a := a.toNat) (b := mask.toNat) (n := 1)
    simp only [widthBytes, pow_one] at *; rw [this, h]; simp
  · have := Nat.and_mod_two_pow (a := a.toNat) (b := mask.toNat) (n := 2)
    simp only [widthBytes, show (2 ^ 2 : Nat) = 4 from rfl] at *; rw [this, h]; simp

theorem misaligned_stepUp {a : Word} {w : Width} (h : misaligned a w = false) : misaligned (stepUp a w) w = false := by
  rw [misaligned_false] at h ⊢
  unfold stepUp
  rw [BitVec.toNat_add, BitVec.toNat_ofNat]
  cases w <;> simp only [widthBytes] at * <;> omega

theorem misaligned_stepDown {a : Word} {w : Width} (h : misaligned a w = false) :
    misaligned (stepDown a w) w = false := by
  rw [misaligned_false] at h ⊢
  unfold stepDown
  rw [BitVec.toNat_sub, BitVec.toNat_ofNat]
  cases w <;> simp only [widthBytes] at * <;> omega

/-! ### One channel -/

theorem countOf_le {p : Params} {v : Word} {count : Nat} (h : countOf p v = some count) : count ≤ 2 ^ 21 := by
  unfold countOf at h
  split at h
  · cases h; exact le_of_lt (cntCount v).isLt
  · split at h <;> cases h <;> decide

/-- An Idle channel has the invariant if its counters are in range. -/
theorem ChannelState.Inv.idle {c : ChannelState} {p : Params} (he : c.enabled = false) (hr : c.running = false)
    (hb : c.budget = 0) (hn : c.remaining ≤ 2 ^ 21) (hs : c.settle ≤ p.settleCycles) : c.Inv p where
  regular := ⟨fun h => (Bool.false_ne_true (hr ▸ h)).elim, fun _ => ⟨hr, hb⟩,
    fun h => (Bool.false_ne_true (hr ▸ h)).elim⟩
  remaining_le := hn
  settle_le := hs
  running_armOk h := (Bool.false_ne_true (hr ▸ h)).elim
  armedWell h := (Bool.false_ne_true (he ▸ h)).elim

/-- An Armed channel that is not running has the invariant if its counters are in range and it passed the checks. -/
theorem ChannelState.Inv.armedIdle {c : ChannelState} {p : Params} (he : c.enabled = true) (hr : c.running = false)
    (hn : c.remaining ≤ 2 ^ 21) (hs : c.settle ≤ p.settleCycles) (hw : c.armOk = true → c.ArmedWell p) : c.Inv p where
  regular := ⟨fun _ => he, fun h => (Bool.false_ne_true (h ▸ he)).elim,
    fun h => (Bool.false_ne_true (hr ▸ h)).elim⟩
  remaining_le := hn
  settle_le := hs
  running_armOk h := (Bool.false_ne_true (hr ▸ h)).elim
  armedWell _ := hw

/-- A running channel has the invariant if it has units and budget left, its counters are in range and it passed the
checks. -/
theorem ChannelState.Inv.runs {c : ChannelState} {p : Params} (he : c.enabled = true) (h1 : 1 ≤ c.remaining)
    (h2 : 1 ≤ c.budget) (ha : c.armOk = true) (hn : c.remaining ≤ 2 ^ 21) (hs : c.settle ≤ p.settleCycles)
    (hw : c.ArmedWell p) : c.Inv p where
  regular := ⟨fun _ => he, fun h => (Bool.false_ne_true (h ▸ he)).elim, fun _ => ⟨h1, h2⟩⟩
  remaining_le := hn
  settle_le := hs
  running_armOk _ := ha
  armedWell _ _ := hw

/-- The checks of an arming read only these fields. -/
theorem ChannelState.ArmedWell.of_eq {c d : ChannelState} {p : Params} (h : c.ArmedWell p) (hc : d.cnt = c.cnt)
    (hs : d.sadW = c.sadW) (hd : d.dadW = c.dadW) : d.ArmedWell p where
  srcMode := by rw [hc]; exact h.srcMode
  sadW := hs.trans h.sadW
  dadW := hd.trans h.dadW
  count := by rw [hc]; exact h.count

section
variable {s t : State} {n : ChanId}

/-- An operation of channel n keeps the invariant if it leaves channel n with it, memory in its form, and the latch
empty, as it was, or held by channel n running. -/
theorem State.Inv.of_only (hs : s.Inv) (ho : OnlyChannel n s t) (hc : (t.chan n).Inv s.params) (hm : t.mem.wf)
    (hu : ∀ m, t.unitCh = some m → if m = n then (t.chan n).running = true else s.unitCh = some m) : t.Inv where
  units := by rw [ho.params]; exact hs.units
  chans m := by
    rw [ho.params]
    by_cases h : m = n
    · subst h; exact hc
    · rw [ho.others m h]; exact hs.chans m
  pending m h := by
    have := hu m h
    by_cases hmn : m = n
    · subst hmn; simpa using this
    · rw [if_neg hmn] at this
      rw [ho.others m hmn]; exact hs.pending m this
  mem := hm
  names := ho.names ▸ hs.names

/-- A channel whose unit is not pending may stop running. -/
theorem unit_of_same (hn : s.unitCh ≠ some n) (h : t.unitCh = s.unitCh) (m : ChanId) (hm : t.unitCh = some m) :
    if m = n then (t.chan n).running = true else s.unitCh = some m := by
  rw [h] at hm
  by_cases hmn : m = n
  · subst hmn; exact absurd hm hn
  · rw [if_neg hmn]; exact hm

/-- An operation that touches neither channels nor the latch nor memory, and keeps the form of the names, keeps the
invariant. -/
theorem State.Inv.of_form (hs : s.Inv) (hp : t.params = s.params) (hc : t.chans = s.chans) (hu : t.unitCh = s.unitCh)
    (hm : t.mem = s.mem) (hn : rowsSorted s.names → rowsSorted t.names) : t.Inv where
  units := by rw [hp]; exact hs.units
  chans m := by rw [hp]; unfold State.chan; rw [hc]; exact hs.chans m
  pending m h := by unfold State.chan; rw [hc]; exact hs.pending m (hu ▸ h)
  mem := hm ▸ hs.mem
  names := hn hs.names

/-- An operation that touches neither channels nor the latch nor memory nor names keeps the invariant. -/
theorem State.Inv.of_same (hs : s.Inv) (hp : t.params = s.params) (hc : t.chans = s.chans) (hu : t.unitCh = s.unitCh)
    (hm : t.mem = s.mem) (hn : t.names = s.names) : t.Inv :=
  hs.of_form hp hc hu hm fun h => hn ▸ h

end

/-! ### Completing and starting -/

section
variable (n : ChanId) (s : State)

/-- The channel after a completion, when it was Armed without fault. -/
theorem chanInv_complete (hs : (s.chan n).settle ≤ s.params.settleCycles)
    (he : (s.chan n).enabled = true) (hw : (s.chan n).ArmedWell s.params) :
    ((complete n s).chan n).Inv s.params ∧ ((complete n s).chan n).running = false := by
  cases hr : repeats (s.chan n).cnt with
  | false =>
    rw [chan_complete_idle n s hr]
    exact ⟨.idle rfl rfl rfl (Nat.zero_le _) hs, rfl⟩
  | true =>
    obtain ⟨count, hc⟩ := Option.ne_none_iff_exists'.1 hw.count
    rw [chan_complete_repeat n s hr hc]
    exact ⟨.armedIdle he rfl (countOf_le hc) hs fun _ => hw.of_eq rfl rfl rfl, rfl⟩

/-- Starting an Armed channel that is not running and passed the checks. -/
theorem inv_start {k : Units} (hi : s.Inv) (he : (s.chan n).enabled = true) (ha : (s.chan n).armOk = true)
    (hr : (s.chan n).running = false) (hk : (s.chan n).remaining ≠ 0 → 1 ≤ budgetFor k (s.chan n).remaining) :
    (start n k s).Inv := by
  have hc := hi.chans n
  have hu : s.unitCh ≠ some n := fun h => by have := hi.pending n h; rw [hr] at this; cases this
  have hsu := sameUnit_start n s k
  refine hi.of_only (onlyChannel_start n s k) ?_ (hsu.mem ▸ hi.mem) (unit_of_same hu hsu.unitCh)
  by_cases h0 : (s.chan n).remaining = 0
  · rw [chan_start_zero n s k h0]
    exact (chanInv_complete n s hc.settle_le he (hc.armedWell he ha)).1
  · rw [chan_start_pos n s k h0]
    simp only [chan_modChan, if_pos]
    exact .runs he (Nat.one_le_iff_ne_zero.2 h0) (hk h0) ha hc.remaining_le hc.settle_le
      ((hc.armedWell he ha).of_eq rfl rfl rfl)

/-- An arming keeps the invariant, of a state in which channel n satisfies it once it is Armed and has not passed the
checks. -/
theorem inv_arm (hi : s.Inv) (hr : (s.chan n).running = false) : (arm n s).Inv := by
  have hc := hi.chans n
  have hu : s.unitCh ≠ some n := fun h => by have := hi.pending n h; rw [hr] at this; cases this
  have hsu := sameUnit_arm n s
  cases h : armCheck s.params n ((s.chan n).beginArm s.params) with
  | error f =>
    refine hi.of_only (onlyChannel_arm n s) ?_ (hsu.mem ▸ hi.mem) (unit_of_same hu hsu.unitCh)
    rw [arm_fault h]
    simp only [raise_chan, chan_modChan, if_pos]
    exact .armedIdle rfl hr hc.remaining_le le_rfl fun h => nomatch h
  | ok k =>
    by_cases hm : (misaligned ((s.chan n).sad &&& s.params.addrMask) ((s.chan n).beginArm s.params).width ||
      misaligned ((s.chan n).dad &&& s.params.addrMask) ((s.chan n).beginArm s.params).width) = true
    · refine hi.of_only (onlyChannel_arm n s) ?_ (hsu.mem ▸ hi.mem) (unit_of_same hu hsu.unitCh)
      rw [arm_misaligned h hm]
      simp only [raise_chan, chan_modChan, if_pos]
      exact .armedIdle rfl hr hc.remaining_le le_rfl fun h => nomatch h
    · simp only [Bool.not_eq_true, Bool.or_eq_false_iff] at hm
      rw [arm_ok h hm.1 hm.2]
      have hwell : ((s.chan n).beginArm s.params).ArmedWell s.params ∧
          countOf s.params ((s.chan n).beginArm s.params).cnt = some k := by
        unfold armCheck at h
        split at h
        · cases h
        · split at h
          · cases h
          · split at h
            · cases h
            · split at h
              · cases h
              · split at h
                · cases h
                · rename_i h1 h2 h3 _ _ _ hcount
                  cases h
                  exact ⟨⟨h1, by simpa using h2, by simpa using h3, by rw [hcount]; simp⟩, hcount⟩
      set t := s.modChan n fun c => ((c.beginArm s.params).latch s.params).armFor k with ht
      have htc : t.chan n = (((s.chan n).beginArm s.params).latch s.params).armFor k := by simp [ht]
      have hti : t.Inv := by
        refine hi.of_only (onlyChannel_modChan n s _) ?_ hi.mem (unit_of_same hu rfl)
        rw [htc]
        exact .armedIdle rfl rfl (countOf_le hwell.2) le_rfl fun _ => hwell.1.of_eq rfl rfl rfl
      dsimp only
      split
      · exact inv_start n t hti (by rw [htc]; rfl) (by rw [htc]; rfl) (by rw [htc]; rfl) fun h0 => by
          rw [htc] at h0 ⊢
          simp only [armFor_remaining, budgetFor, min_self] at h0 ⊢
          omega
      · exact hti

end

/-! ### Register transactions -/

section
variable (n : ChanId) (s : State)

/-- The unit in flight of channel n is gone, and nothing else that the invariant reads has changed. -/
theorem inv_abort (hi : s.Inv) : (abortPendingUnit n s).Inv ∧ (abortPendingUnit n s).unitCh ≠ some n := by
  by_cases hu : s.unitCh = some n
  · have key : ∀ t : State, t.params = s.params → (∀ m, t.chan m = s.chan m) → t.unitCh = none → t.mem.wf →
        t.names = s.names → t.Inv ∧ t.unitCh ≠ some n := fun t hp hc hn hm hl =>
      ⟨⟨hp ▸ hi.units, fun m => by rw [hp, hc]; exact hi.chans m, fun m h => by rw [hn] at h; (cases h), hm,
        hl ▸ hi.names⟩,
        by rw [hn]; simp⟩
    rcases abort_cases hu with h | ⟨-, h⟩ | ⟨-, h⟩ <;> rw [h]
    · exact key _ rfl (fun _ => rfl) rfl hi.mem rfl
    · exact key _ rfl (fun _ => rfl) rfl (memWrite_wf hi.mem _ _ _) rfl
    · exact key _ rfl (fun _ => rfl) rfl hi.mem rfl
  · rw [abort_other hu]; exact ⟨hi, hu⟩

theorem inv_raise (hi : s.Inv) (f : FaultInfo) : (s.raise f).Inv := hi.of_same rfl rfl rfl rfl rfl

theorem inv_writeCnt (hi : s.Inv) (d : Word) : (writeCnt n d s).Inv := by
  have hc := hi.chans n
  unfold writeCnt
  split
  · rename_i he
    have hidle := hc.regular.idle he
    have hu : s.unitCh ≠ some n := fun h => by have := hi.pending n h; rw [hidle.1] at this; cases this
    have h1 : (s.modChan n fun c => c.storeCnt d).Inv := by
      refine hi.of_only (onlyChannel_modChan n s _) ?_ hi.mem (unit_of_same hu rfl)
      simp only [chan_modChan, if_pos]
      exact .idle he hidle.1 hidle.2 hc.remaining_le hc.settle_le
    unfold writeCntIdle
    dsimp only
    split
    · exact inv_arm n _ h1 (by simpa using hidle.1)
    · exact h1
  · rename_i he
    have he : (s.chan n).enabled = true := by simpa [State.armed] using he
    split
    · unfold rearm
      obtain ⟨ha, hu⟩ := inv_abort n _ (inv_raise s hi (.issueOnBusy n .cnt))
      -- the channel is paused and holds the new word; it is armed again at once, so only its counters matter
      have harm : ∀ t : State, t.Inv → t.unitCh ≠ some n → (t.chan n).enabled = true →
          (arm n (t.modChan n fun c => c.pause.storeCnt d)).Inv := by
        intro t ht hut het
        -- arming sets `armOk` to 0 first: the same arming from the state with it already 0
        have e : arm n (t.modChan n fun c => c.pause.storeCnt d) =
            arm n (t.modChan n fun c => { c.pause.storeCnt d with armOk := false }) := by
          have hb : ∀ c : ChannelState, (c.pause.storeCnt d).beginArm t.params =
            ({ c.pause.storeCnt d with armOk := false } : ChannelState).beginArm t.params := fun _ => rfl
          simp only [arm, modChan_modChan, modChan_params, hb]
        rw [e]
        refine inv_arm n _ (ht.of_only (onlyChannel_modChan n t _) ?_ ht.mem (unit_of_same hut rfl)) (by simp)
        simp only [chan_modChan, if_pos]
        exact .armedIdle het rfl (ht.chans n).remaining_le (ht.chans n).settle_le fun h => nomatch h
      exact harm _ ha hu (by rw [abort_chan]; exact he)
    · unfold cancelArmed
      dsimp only
      have h1 : (if cntRepeat (s.chan n).cnt = true then s else s.raise (.unsafeCancel n)).Inv := by
        split
        · exact hi
        · exact inv_raise s hi _
      obtain ⟨ha, hu⟩ := inv_abort n _ h1
      refine ha.of_only (onlyChannel_modChan n _ _) ?_ ha.mem (unit_of_same hu rfl)
      simp only [chan_modChan, if_pos]
      exact .idle rfl rfl rfl (Nat.zero_le _) (ha.chans n).settle_le

theorem inv_registerWrite (hi : s.Inv) (r : Reg) (d : Word) (body : State → State) (hb : (body s).Inv) :
    (registerWrite n r d body s).Inv := by
  unfold registerWrite
  dsimp only
  split
  · exact hi.of_same rfl rfl rfl rfl rfl
  · exact hb.of_same rfl rfl rfl rfl rfl

/-- Every register transaction keeps the invariant. -/
theorem inv_registerAccess (hi : s.Inv) {t : State} {i : Instr} {op : BitVec 6} (h : registerAccess i = some (n, op))
    (he : exec i s = .next t) : t.Inv := by
  rcases registerAccess_cases h with ⟨r, body, -, -, hx, hb⟩ | ⟨r, d, body, -, -, hx, hb⟩
  · rw [hx] at he; cases he
    obtain ⟨ho, hu, -, hm, hc, -⟩ := hb s
    unfold registerRead
    dsimp only
    split
    · exact hi.of_same rfl rfl rfl rfl rfl
    · exact hi.of_same ho.params hc hu hm ho.names
  · rw [hx] at he; cases he
    apply inv_registerWrite n s hi
    rcases hb with ⟨f, hf, hb⟩ | ⟨-, rfl⟩
    · rw [hb]
      have hb : (s.noteBusy n r).Inv := by
        unfold State.noteBusy
        split
        · exact inv_raise s hi _
        · exact hi
      have hc := hb.chans n
      obtain ⟨f1, f2, f3, f4, f5, f6, f7, f8, f9⟩ := hf ((s.noteBusy n r).chan n)
      have hcnt : (f ((s.noteBusy n r).chan n)).cnt = ((s.noteBusy n r).chan n).cnt := by
        rw [cnt_eq_append, cnt_eq_append, f2, f3]
      refine hb.of_only (onlyChannel_modChan n _ f) ?_ hb.mem fun m hm => ?_
      · simp only [chan_modChan, if_pos]
        refine ⟨⟨?_, ?_, ?_⟩, ?_, ?_, ?_, ?_⟩
        · rw [f3, f4]; exact hc.regular.running_enabled
        · rw [f3, f4, f5]; exact hc.regular.idle
        · rw [f4, f5, f6]; exact hc.regular.running_units
        · rw [f6]; exact hc.remaining_le
        · rw [f1]; exact hc.settle_le
        · rw [f4, f7]; exact hc.running_armOk
        · rw [f3, f7]
          intro h1 h2
          have hw := hc.armedWell h1 h2
          exact ⟨by rw [hcnt]; exact hw.srcMode, f8 hw.sadW, f9 hw.dadW, by rw [hcnt]; exact hw.count⟩
      · by_cases hmn : m = n
        · subst hmn
          simp only [chan_modChan, if_pos]
          rw [f4]; exact hb.pending m hm
        · rw [if_neg hmn]; exact hm
    · exact inv_writeCnt n s hi d

end

/-! ### Events and the engine -/

theorem inv_tickAll {s : State} (hi : s.Inv) : (tickAll s).Inv where
  units := hi.units
  chans k := by
    rw [tickAll_chan]
    have h := hi.chans k
    exact ⟨⟨h.regular.running_enabled, h.regular.idle, h.regular.running_units⟩, h.remaining_le,
      le_trans (Nat.sub_le _ _) h.settle_le, h.running_armOk, fun a b => (h.armedWell a b).of_eq rfl rfl rfl⟩
  pending k h := by rw [tickAll_chan]; exact hi.pending k h
  mem := hi.mem
  names := hi.names

theorem unitsOk_get {p : Params} (h : p.unitsOk = true) (t : Trigger) : (p.unitsPerTrigger.get t).positive = true := by
  simp only [Params.unitsOk, List.all_cons, List.all_nil, Bool.and_true, Bool.and_eq_true] at h
  cases t <;> simp only [h]

theorem budgetFor_pos {k : Units} (h : k.positive = true) {r : Nat} (hr : r ≠ 0) : 1 ≤ budgetFor k r := by
  cases k with
  | all => exact Nat.one_le_iff_ne_zero.2 hr
  | atMost k =>
    simp only [Units.positive, decide_eq_true_eq] at h
    simp only [budgetFor]; omega

theorem inv_triggerChannel {s : State} (hi : s.Inv) (t : Trigger) (n : ChanId) : (triggerChannel t s n).Inv := by
  unfold triggerChannel
  split
  · rename_i h
    simp only [ChannelState.waitsOn, Bool.and_eq_true, Bool.not_eq_true'] at h
    exact inv_start n s hi h.1.1.1 h.1.1.2 h.2 fun hr => budgetFor_pos (unitsOk_get hi.units t) hr
  · exact hi

theorem inv_deliverTrigger {s : State} (hi : s.Inv) (t : Trigger) : (deliverTrigger t s).Inv :=
  deliverTrigger_induction s t (P := fun s t => s.Inv → t.Inv) (fun _ _ _ h g x => g (h x))
    (fun _ n h => inv_triggerChannel h t n) hi

/-- A turn of the engine keeps the invariant. -/
theorem inv_engineStep {s : State} (hi : s.Inv) : (engineStep s).Inv := by
  rcases engineStep_cases s with h | ⟨k, hu, hs, -, h⟩ | ⟨k, m, hu, hm, -, h⟩ <;> rw [h]
  · exact hi
  · have hr := ((selected_iff s k).1 hs).1
    unfold unitRead
    dsimp only
    split
    · exact inv_raise s hi _
    · exact ⟨hi.units, hi.chans, fun n hn => by cases hn; exact hr, hi.mem, hi.names⟩
  · by_cases hroute : route s.params (s.chan k).curDst = .memory
    · rw [unitWrite_memory hroute]
      have hr := hi.pending k hu
      have hc := hi.chans k
      have he := hc.regular.running_enabled hr
      have hunits := hc.regular.running_units hr
      have hw := hc.armedWell he (hc.running_armOk hr)
      set t := s.unitWritten k m with ht
      have htc : t.chan k = (s.chan k).advance s.params m := by rw [ht, unitWritten_chan, if_pos rfl]
      have ho : OnlyChannel k s (afterUnit k t) := by
        rw [ht, ← unitWrite_memory hroute]; exact onlyChannel_unitWrite k s m
      have hsu := sameUnit_afterUnit k t
      refine hi.of_only ho ?_ (hsu.mem ▸ memWrite_wf hi.mem _ _ _) fun n hn => by rw [hsu.unitCh] at hn; cases hn
      have hwell : (t.chan k).ArmedWell s.params := by rw [htc]; exact hw.of_eq rfl rfl rfl
      have hrem : (t.chan k).remaining ≤ 2 ^ 21 := by
        rw [htc]; exact le_trans (Nat.sub_le _ _) hc.remaining_le
      have hset : (t.chan k).settle ≤ s.params.settleCycles := by rw [htc]; exact hc.settle_le
      have hen : (t.chan k).enabled = true := by rw [htc]; exact he
      have harm : (t.chan k).armOk = true := by rw [htc]; exact hc.running_armOk hr
      unfold afterUnit
      split
      · exact (chanInv_complete k t hset hen hwell).1
      · rename_i h0
        split
        · simp only [chan_modChan, if_pos]
          exact .armedIdle hen rfl hrem hset fun _ => hwell.of_eq rfl rfl rfl
        · rename_i hb
          exact .runs hen (Nat.one_le_iff_ne_zero.2 h0) (Nat.one_le_iff_ne_zero.2 hb) harm hrem hset hwell
    · rw [unitWrite_register hroute]; exact inv_raise s hi _

end Sys2Proof.Machine
end

