-- ==== Sys2Proof/Laws/PerInstr.lean ====
section
/-!
SUPPORT. Every instruction against its row of spec/opcode_table.json: the row's match and mask, and the size of the
operand (spec/30_encoding.md R82, R90); an operation without a code is called by its name (R100, R101).
-/
namespace Sys2Proof.Laws

open Sys2Proof

/-- The row's match and mask, and how many operand bytes follow the opcode byte; none for a row without a code. -/
def TableRow.row : Instr → Option (Byte × Byte × Nat)
  | .rdSad _ => some (0x00, 0x33, 0)
  | .rdDad _ => some (0x01, 0x33, 0)
  | .rdCnt _ => some (0x02, 0x33, 0)
  | .rdFill _ => some (0x03, 0x33, 0)
  | .wrSad _ _ => some (0x10, 0x33, 4)
  | .wrDad _ _ => some (0x11, 0x33, 4)
  | .wrCnt _ _ => some (0x12, 0x33, 4)
  | .wrFill _ _ => some (0x13, 0x33, 4)
  | .trigVblank => some (0x21, 0x3F, 0)
  | .trigHblank => some (0x22, 0x3F, 0)
  | .trigDispsync => some (0x23, 0x3F, 0)
  | .trigMainmem => some (0x24, 0x3F, 0)
  | .trigGamecard => some (0x25, 0x3F, 0)
  | .trigAccessory => some (0x26, 0x3F, 0)
  | .trigGxfifo => some (0x27, 0x3F, 0)
  | .tick => some (0x28, 0x3F, 0)
  | .isBusy _ => none
  | .settleDelay => none
  | .waitPoll _ => none
  | .waitIrq _ => none
  | .waitFor _ => none
  | .issue _ _ => none
  | .issueCopy _ _ _ _ _ => none
  | .issueFill _ _ _ _ _ => none
  | .copy _ _ _ _ _ => none
  | .fill _ _ _ _ => none
  | .cancel _ => none
  | .halt => none
  | .irqEnable _ => none
  | .irqDisable _ => none
  | .waitInt _ _ => none
  | .vblankWait => none
  | .flushRange _ _ => none
  | .invalidateRange _ _ => none

/-- The instruction's words carry its row's match under the row's mask, in an opcode byte of six bits, with the operand
the row's format gives it; an operation without a code is spelt by its name. -/
def TableRow.Statement (i : Instr) : Prop :=
  match TableRow.row i with
  | some (pattern, mask, size) =>
    ∃ b rest, (∀ x, encode i x = .code (b :: rest) x) ∧ b &&& mask = pattern ∧ b.toNat < 64 ∧ rest.length = size
  | none => ∀ x, encode i x = .call i x

theorem TableRow.rdSad (n : ChanId) : TableRow.Statement (.rdSad n) :=
  ⟨_, _, fun _ => rfl, by revert n; decide, by revert n; decide, rfl⟩

theorem TableRow.rdDad (n : ChanId) : TableRow.Statement (.rdDad n) :=
  ⟨_, _, fun _ => rfl, by revert n; decide, by revert n; decide, rfl⟩

theorem TableRow.rdCnt (n : ChanId) : TableRow.Statement (.rdCnt n) :=
  ⟨_, _, fun _ => rfl, by revert n; decide, by revert n; decide, rfl⟩

theorem TableRow.rdFill (n : ChanId) : TableRow.Statement (.rdFill n) :=
  ⟨_, _, fun _ => rfl, by revert n; decide, by revert n; decide, rfl⟩

theorem TableRow.wrSad (n : ChanId) (d : Word) : TableRow.Statement (.wrSad n d) :=
  ⟨_, _, fun _ => rfl, by revert n; decide, by revert n; decide, rfl⟩

theorem TableRow.wrDad (n : ChanId) (d : Word) : TableRow.Statement (.wrDad n d) :=
  ⟨_, _, fun _ => rfl, by revert n; decide, by revert n; decide, rfl⟩

theorem TableRow.wrCnt (n : ChanId) (d : Word) : TableRow.Statement (.wrCnt n d) :=
  ⟨_, _, fun _ => rfl, by revert n; decide, by revert n; decide, rfl⟩

theorem TableRow.wrFill (n : ChanId) (d : Word) : TableRow.Statement (.wrFill n d) :=
  ⟨_, _, fun _ => rfl, by revert n; decide, by revert n; decide, rfl⟩

theorem TableRow.trigVblank : TableRow.Statement .trigVblank := ⟨_, _, fun _ => rfl, by decide, by decide, rfl⟩

theorem TableRow.trigHblank : TableRow.Statement .trigHblank := ⟨_, _, fun _ => rfl, by decide, by decide, rfl⟩

theorem TableRow.trigDispsync : TableRow.Statement .trigDispsync := ⟨_, _, fun _ => rfl, by decide, by decide, rfl⟩

theorem TableRow.trigMainmem : TableRow.Statement .trigMainmem := ⟨_, _, fun _ => rfl, by decide, by decide, rfl⟩

theorem TableRow.trigGamecard : TableRow.Statement .trigGamecard := ⟨_, _, fun _ => rfl, by decide, by decide, rfl⟩

theorem TableRow.trigAccessory : TableRow.Statement .trigAccessory := ⟨_, _, fun _ => rfl, by decide, by decide, rfl⟩

theorem TableRow.trigGxfifo : TableRow.Statement .trigGxfifo := ⟨_, _, fun _ => rfl, by decide, by decide, rfl⟩

theorem TableRow.tick : TableRow.Statement .tick := ⟨_, _, fun _ => rfl, by decide, by decide, rfl⟩

theorem TableRow.isBusy (n : ChanId) : TableRow.Statement (.isBusy n) := fun _ => rfl

theorem TableRow.settleDelay : TableRow.Statement (.settleDelay) := fun _ => rfl

theorem TableRow.waitPoll (n : ChanId) : TableRow.Statement (.waitPoll n) := fun _ => rfl

theorem TableRow.waitIrq (n : ChanId) : TableRow.Statement (.waitIrq n) := fun _ => rfl

theorem TableRow.waitFor (n : ChanId) : TableRow.Statement (.waitFor n) := fun _ => rfl

theorem TableRow.issue (n : ChanId) (req : Request) : TableRow.Statement (.issue n req) := fun _ => rfl

theorem TableRow.issueCopy (n : ChanId) (src dst : Word) (len w : Nat) : TableRow.Statement (.issueCopy n src dst len w) := fun _ => rfl

theorem TableRow.issueFill (n : ChanId) (value dst : Word) (len w : Nat) : TableRow.Statement (.issueFill n value dst len w) := fun _ => rfl

theorem TableRow.copy (src dst : Word) (nsrc ndst esize : Nat) : TableRow.Statement (.copy src dst nsrc ndst esize) := fun _ => rfl

theorem TableRow.fill (value dst : Word) (ndst esize : Nat) : TableRow.Statement (.fill value dst ndst esize) := fun _ => rfl

theorem TableRow.cancel (n : ChanId) : TableRow.Statement (.cancel n) := fun _ => rfl

theorem TableRow.halt : TableRow.Statement (.halt) := fun _ => rfl

theorem TableRow.irqEnable (n : ChanId) : TableRow.Statement (.irqEnable n) := fun _ => rfl

theorem TableRow.irqDisable (n : ChanId) : TableRow.Statement (.irqDisable n) := fun _ => rfl

theorem TableRow.waitInt (n : ChanId) (next : Bool) : TableRow.Statement (.waitInt n next) := fun _ => rfl

theorem TableRow.vblankWait : TableRow.Statement (.vblankWait) := fun _ => rfl

theorem TableRow.flushRange (a : Word) (len : Nat) : TableRow.Statement (.flushRange a len) := fun _ => rfl

theorem TableRow.invalidateRange (a : Word) (len : Nat) : TableRow.Statement (.invalidateRange a len) := fun _ => rfl

end Sys2Proof.Laws
end

