-- ==== Sys2Proof/Laws/Steps.lean ====
section
/-!
SUPPORT. The step as a whole: what the requester's own bookkeeping may touch, and the principle by which a relation
that every instruction and every engine turn keeps is kept by every step.
-/
namespace Sys2Proof.Machine

open Host

/-- What the requester's sequencing (the end and start of statements, decisions of wait loops, the taking of a turn)
leaves alone: the block, memory and the events; the names keep their form, and faults and the refused mark only grow. -/
structure Bookkeeping (s t : State) : Prop where
  params : t.params = s.params
  program : t.program = s.program
  chans : t.chans = s.chans
  unitCh : t.unitCh = s.unitCh
  unitData : t.unitData = s.unitData
  mem : t.mem = s.mem
  events : t.events = s.events
  platIe : t.platIe = s.platIe
  faults : s.faults <+: t.faults
  refused : s.refused = true → t.refused = true
  names : rowsSorted s.names → rowsSorted t.names

theorem Bookkeeping.refl (s : State) : Bookkeeping s s :=
  ⟨rfl, rfl, rfl, rfl, rfl, rfl, rfl, rfl, List.prefix_refl _, id, id⟩

theorem Bookkeeping.trans {s t u : State} (h : Bookkeeping s t) (g : Bookkeeping t u) : Bookkeeping s u :=
  ⟨g.params.trans h.params, g.program.trans h.program, g.chans.trans h.chans, g.unitCh.trans h.unitCh,
    g.unitData.trans h.unitData, g.mem.trans h.mem, g.events.trans h.events, g.platIe.trans h.platIe,
    h.faults.trans g.faults, fun x => g.refused (h.refused x), fun x => g.names (h.names x)⟩

/-- A channel is as before. -/
theorem Bookkeeping.chan {s t : State} (h : Bookkeeping s t) (k : ChanId) : t.chan k = s.chan k := by
  unfold State.chan; rw [h.chans]

/-- Closes a goal that an update of the requester's own fields is bookkeeping. -/
theorem bookkeeping_requester (s : State) (ri : PerChannel Bool) (pf : PerChannel Bool) (rf : Bool) (rpc : Nat)
    (ac : Bool) (td : List Micro) (wt : Option Wait) (hl : Bool) (lr : Option Word) (lb : Option Bool)
    (tu : List Agent) (ck dr : Nat) (h : s.refused = true → rf = true) :
    Bookkeeping s { s with
      irq := ri, platIf := pf, refused := rf, rpc := rpc, active := ac, todo := td, waiting := wt, halted := hl,
      lastRead := lr, lastBusy := lb, turns := tu, clock := ck, draws := dr } :=
  ⟨rfl, rfl, rfl, rfl, rfl, rfl, rfl, rfl, List.prefix_refl _, h, id⟩

section
variable (s : State)

theorem bookkeeping_retire : Bookkeeping s (retire s) := by
  unfold retire; split
  · exact bookkeeping_requester s s.irq s.platIf _ _ _ _ _ _ _ _ _ _ _ id
  · exact .refl s

theorem bookkeeping_raise (f : FaultInfo) : Bookkeeping s (s.raise f) :=
  ⟨rfl, rfl, rfl, rfl, rfl, rfl, rfl, rfl, List.prefix_append _ _, id, id⟩

theorem bookkeeping_push (l : List Micro) : Bookkeeping s (s.push l) :=
  ⟨rfl, rfl, rfl, rfl, rfl, rfl, rfl, rfl, List.prefix_refl _, id, id⟩

/-- The binding of a result (R95) is the requester's own. -/
theorem bookkeeping_bindName (x : Option LocalName) (i : Instr) : Bookkeeping s (s.bindName x i) := by
  rw [bindName_eq]
  exact ⟨rfl, rfl, rfl, rfl, rfl, rfl, rfl, rfl, List.prefix_refl _, id, fun h => bindName_sorted h x i⟩

theorem bookkeeping_takeTurn : Bookkeeping s s.takeTurn :=
  ⟨rfl, rfl, rfl, rfl, rfl, rfl, rfl, rfl, List.prefix_refl _, id, id⟩

theorem bookkeeping_pollCheck (n : ChanId) : Bookkeeping s (pollCheck n s) := by
  unfold pollCheck
  split
  · exact .refl s
  · exact bookkeeping_push _ _

theorem bookkeeping_irqCheck (n : ChanId) : Bookkeeping s (irqCheck n s) := by
  unfold irqCheck
  split
  · exact bookkeeping_push _ _
  · split
    · exact .refl s
    · split
      · exact bookkeeping_raise _ _
      · exact bookkeeping_push _ _

theorem bookkeeping_wake (w : Wait) : Bookkeeping s (wake w s) := by
  unfold wake
  split
  · exact .refl s
  · split
    · exact Bookkeeping.trans (bookkeeping_requester s s.irq _ _ _ _ _ none _ _ _ _ _ _ id) (bookkeeping_retire _)
    · exact .refl s

end

/-- What follows a meaning that answers a next state. -/
theorem thenDo_next {o : Outcome State Fault Refusal} {f : State → State} {t : State} (h : thenDo o f = .next t) :
    ∃ u, o = .next u ∧ t = f u := by
  unfold thenDo at h
  split at h
  · exact ⟨_, rfl, (Outcome.next.inj h).symm⟩
  · cases h
  · cases h

/-- A turn of the requester is bookkeeping, or one instruction with bookkeeping before and after it. -/
theorem requesterStep_cases {s t : State} (h : requesterStep s = .next t) :
    Bookkeeping s t ∨
      ∃ i u v, Bookkeeping s u ∧ u.todo.length ≤ s.todo.length ∧ exec i u = .next v ∧ Bookkeeping v t := by
  unfold requesterStep at h
  split at h
  · cases h; exact .inl (.refl _)
  · split at h
    · cases h; exact .inl (bookkeeping_wake _ _)
    · split at h
      · unfold fetch at h
        split at h
        · cases h; exact .inl (.refl _)
        · split at h
          · obtain ⟨u, hu, rfl⟩ := thenDo_next h
            exact .inr ⟨_, _, _, bookkeeping_requester s s.irq s.platIf _ _ true _ _ _ _ _ _ _ _ id, le_refl _, hu,
              (bookkeeping_bindName _ _ _).trans (bookkeeping_retire _)⟩
          · cases h
          · cases h; exact .inl (bookkeeping_requester s s.irq s.platIf _ _ _ _ _ _ _ _ _ _ _ fun _ => rfl)
      · rename_i m rest htodo
        obtain ⟨u, hu, rfl⟩ := thenDo_next h
        have hb : Bookkeeping s { s with todo := rest } :=
          bookkeeping_requester s s.irq s.platIf _ _ _ rest _ _ _ _ _ _ _ id
        cases m with
        | run i => exact .inr ⟨i, _, u, hb, by simp [htodo], hu, bookkeeping_retire u⟩
        | pollCheck n =>
          cases hu; exact .inl ((hb.trans (bookkeeping_pollCheck _ n)).trans (bookkeeping_retire _))
        | irqCheck n => cases hu; exact .inl ((hb.trans (bookkeeping_irqCheck _ n)).trans (bookkeeping_retire _))

/-- A turn of any agent is bookkeeping, a turn of the engine, or one instruction with bookkeeping before and after. -/
theorem agentStep_cases {a : Agent} {s t : State} (h : agentStep a s = .next t) :
    Bookkeeping s t ∨ t = engineStep s ∨
      ∃ i u v, Bookkeeping s u ∧ exec i u = .next v ∧ Bookkeeping v t := by
  cases a with
  | requester =>
    rcases requesterStep_cases h with h | ⟨i, u, v, h1, -, h2, h3⟩
    · exact .inl h
    · exact .inr (.inr ⟨i, u, v, h1, h2, h3⟩)
  | engine => cases h; exact .inr (.inl rfl)
  | environment t =>
    obtain ⟨u, hu, rfl⟩ := thenDo_next h
    exact .inr (.inr ⟨_, s, u, .refl s, hu, bookkeeping_retire u⟩)

/-- A relation that bookkeeping respects, and that every instruction and every turn of the engine satisfies, holds of
every step. -/
theorem step_induction {P : State → State → Prop} (book : ∀ s t, Bookkeeping s t → P s t)
    (pre : ∀ s t u, Bookkeeping s t → P t u → P s u) (post : ∀ s t u, P s t → Bookkeeping t u → P s u)
    (hexec : ∀ i s t, exec i s = .next t → P s t) (engine : ∀ s, P s (engineStep s)) {s t : State}
    (h : step s = .next t) : P s t := by
  refine pre _ _ _ (bookkeeping_takeTurn s) ?_
  rcases agentStep_cases h with h | rfl | ⟨i, u, v, h1, h2, h3⟩
  · exact book _ _ h
  · exact engine _
  · exact pre _ _ _ h1 (post _ _ _ (hexec _ _ _ h2) h3)

/-! ### What every instruction does -/

/-- An instruction that is no register transaction, no trigger and no TICK leaves the block and memory alone. -/
theorem exec_cases {i : Instr} {s t : State} (h : exec i s = .next t) :
    (∃ n op, registerAccess i = some (n, op)) ∨
    (∃ tr, (∃ w, t = { triggerEvent tr s with waiting := w })) ∨
    t = (tickAll s).logTransaction tickOp none none s ∨
    (∃ n, t = isBusyRead n s) ∨ (∃ n, t = registerWrite n .cnt 0 (writeCnt n 0) s) ∨
    (t.params = s.params ∧ t.program = s.program ∧ t.chans = s.chans ∧ t.unitCh = s.unitCh ∧
      t.unitData = s.unitData ∧ t.mem = s.mem ∧ s.events <+: t.events ∧ s.faults <+: t.faults ∧
      t.refused = s.refused ∧ t.names = s.names) := by
  have same : ∀ (u : State), Bookkeeping s u → u.refused = s.refused → u.names = s.names →
      u.params = s.params ∧ u.program = s.program ∧ u.chans = s.chans ∧ u.unitCh = s.unitCh ∧
      u.unitData = s.unitData ∧ u.mem = s.mem ∧ s.events <+: u.events ∧ s.faults <+: u.faults ∧
      u.refused = s.refused ∧ u.names = s.names :=
    fun u b hr hn => ⟨b.params, b.program, b.chans, b.unitCh, b.unitData, b.mem, by rw [b.events], b.faults, hr, hn⟩
  have mine : ∀ (pe : PerChannel Bool) (pf : PerChannel Bool) (w : Option Wait) (td : List Micro) (hl : Bool),
      let u := { s with platIe := pe, platIf := pf, waiting := w, todo := td, halted := hl }
      u.params = s.params ∧ u.program = s.program ∧ u.chans = s.chans ∧ u.unitCh = s.unitCh ∧
      u.unitData = s.unitData ∧ u.mem = s.mem ∧ s.events <+: u.events ∧ s.faults <+: u.faults ∧
      u.refused = s.refused ∧ u.names = s.names :=
    fun _ _ _ _ _ => ⟨rfl, rfl, rfl, rfl, rfl, rfl, List.prefix_refl _, List.prefix_refl _, rfl, rfl⟩
  cases i
  case rdSad n => exact .inl ⟨n, _, rfl⟩
  case rdDad n => exact .inl ⟨n, _, rfl⟩
  case rdCnt n => exact .inl ⟨n, _, rfl⟩
  case rdFill n => exact .inl ⟨n, _, rfl⟩
  case wrSad n d => exact .inl ⟨n, _, rfl⟩
  case wrDad n d => exact .inl ⟨n, _, rfl⟩
  case wrCnt n d => exact .inl ⟨n, _, rfl⟩
  case wrFill n d => exact .inl ⟨n, _, rfl⟩
  case trigVblank =>
    cases h; refine .inr (.inl ⟨.vblank, ?_⟩); unfold endVblankWait
    split
    · exact ⟨_, rfl⟩
    · exact ⟨(triggerEvent .vblank s).waiting, rfl⟩
  case trigHblank => cases h; exact .inr (.inl ⟨.hblank, (triggerEvent .hblank s).waiting, rfl⟩)
  case trigDispsync => cases h; exact .inr (.inl ⟨.dispsync, (triggerEvent .dispsync s).waiting, rfl⟩)
  case trigMainmem => cases h; exact .inr (.inl ⟨.mainmem, (triggerEvent .mainmem s).waiting, rfl⟩)
  case trigGamecard => cases h; exact .inr (.inl ⟨.gamecard, (triggerEvent .gamecard s).waiting, rfl⟩)
  case trigAccessory => cases h; exact .inr (.inl ⟨.accessory, (triggerEvent .accessory s).waiting, rfl⟩)
  case trigGxfifo => cases h; exact .inr (.inl ⟨.gxfifo, (triggerEvent .gxfifo s).waiting, rfl⟩)
  case tick => cases h; exact .inr (.inr (.inl rfl))
  case isBusy n => cases h; exact .inr (.inr (.inr (.inl ⟨n, rfl⟩)))
  case cancel n => cases h; exact .inr (.inr (.inr (.inr (.inl ⟨n, rfl⟩))))
  all_goals refine .inr (.inr (.inr (.inr (.inr ?_)))); cases h
  case settleDelay => exact same _ (bookkeeping_push s _) rfl rfl
  case waitPoll n => exact same _ (bookkeeping_push s _) rfl rfl
  case waitIrq n =>
    split
    · exact same _ (bookkeeping_raise s _) rfl rfl
    · exact same _ (bookkeeping_push s _) rfl rfl
  case waitFor n => exact same _ (bookkeeping_push s _) rfl rfl
  case issue n req =>
    unfold issueRequest
    split
    · exact same _ (bookkeeping_raise s _) rfl rfl
    · split
      · exact same _ (bookkeeping_raise s _) rfl rfl
      · exact same _ (bookkeeping_push s _) rfl rfl
  case issueCopy => exact same _ (bookkeeping_push s _) rfl rfl
  case issueFill => exact same _ (bookkeeping_push s _) rfl rfl
  case copy =>
    split
    · exact same _ (bookkeeping_raise s _) rfl rfl
    · exact same _ (bookkeeping_push s _) rfl rfl
  case fill =>
    split
    · exact same _ (bookkeeping_raise s _) rfl rfl
    · exact same _ (bookkeeping_push s _) rfl rfl
  case halt => exact mine _ _ _ _ true
  case irqEnable n => exact mine (s.platIe.set n true) _ _ _ _
  case irqDisable n => exact mine (s.platIe.set n false) _ _ _ _
  case waitInt n next =>
    unfold awaitIrq
    cases next
    · simp only [Bool.false_eq_true, if_false]
      split
      · exact mine _ (s.platIf.set n false) _ _ _
      · exact mine _ s.platIf (some (.int n)) _ _
    · simp only [if_true]
      split
      · exact mine _ ((s.platIf.set n false).set n false) _ _ _
      · exact mine _ (s.platIf.set n false) (some (.int n)) _ _
  case vblankWait => exact mine _ _ (some .vblank) _ _
  case flushRange a len => exact ⟨rfl, rfl, rfl, rfl, rfl, rfl, List.prefix_append _ _, List.prefix_refl _, rfl, rfl⟩
  case invalidateRange a len => exact ⟨rfl, rfl, rfl, rfl, rfl, rfl, List.prefix_append _ _, List.prefix_refl _, rfl, rfl⟩

/-- A register transaction changes nothing but its channel's part (R116). -/
theorem onlyChannel_registerAccess {i : Instr} {n : ChanId} {op : BitVec 6} {s t : State}
    (h : registerAccess i = some (n, op)) (he : exec i s = .next t) : OnlyChannel n s t := by
  rcases registerAccess_cases h with ⟨r, body, -, -, hx, hb⟩ | ⟨r, d, body, -, -, hx, hb⟩
  · rw [hx] at he; cases he; exact onlyChannel_registerRead n s r body (hb s).1
  · rw [hx] at he; cases he
    apply onlyChannel_registerWrite
    rcases hb with ⟨f, -, hb⟩ | ⟨-, rfl⟩
    · rw [hb]; exact (onlyChannel_noteBusy n s r).trans (onlyChannel_modChan n _ _)
    · exact onlyChannel_writeCnt n s d

/-- A trigger binds no name. -/
theorem names_deliverTrigger (s : State) (t : Trigger) : (deliverTrigger t s).names = s.names :=
  deliverTrigger_induction s t (P := fun s t => t.names = s.names) (fun _ _ _ h g => g.trans h)
    (fun s n => (onlyChannel_triggerChannel s t n).names)

/-- No instruction binds a name of its own: that is left to the statement (R95, R99). -/
theorem names_exec {i : Instr} {s t : State} (h : exec i s = .next t) : t.names = s.names := by
  rcases exec_cases h with ⟨n, op, ha⟩ | ⟨tr, w, rfl⟩ | rfl | ⟨n, rfl⟩ | ⟨n, rfl⟩ | h
  · exact (onlyChannel_registerAccess ha h).names
  · exact names_deliverTrigger s tr
  · rfl
  · exact (onlyChannel_registerAccess (i := .rdCnt n) (s := s) rfl rfl).names
  · exact (onlyChannel_registerAccess (i := .wrCnt n 0) (s := s) rfl rfl).names
  · exact h.2.2.2.2.2.2.2.2.2

/-- A turn of the engine changes nothing but the part of one channel (R143). -/
theorem onlyChannel_engineStep (s : State) : ∃ n, OnlyChannel n s (engineStep s) := by
  rcases engineStep_cases s with h | ⟨k, -, -, -, h⟩ | ⟨k, m, -, -, -, h⟩
  · exact ⟨0, h.symm ▸ .refl _ _⟩
  · exact ⟨k, h.symm ▸ onlyChannel_unitRead k s⟩
  · exact ⟨k, h.symm ▸ onlyChannel_unitWrite k s m⟩

/-- Every instruction keeps the invariant. -/
theorem inv_exec {i : Instr} {s t : State} (hi : s.Inv) (h : exec i s = .next t) : t.Inv := by
  rcases exec_cases h with ⟨n, op, ha⟩ | ⟨tr, w, rfl⟩ | rfl | ⟨n, rfl⟩ | ⟨n, rfl⟩ | h
  · exact inv_registerAccess n s hi ha h
  · exact (inv_deliverTrigger hi tr).of_same rfl rfl rfl rfl rfl
  · exact (inv_tickAll hi).of_same rfl rfl rfl rfl rfl
  · exact (inv_registerAccess n s hi (i := .rdCnt n) rfl rfl).of_same rfl rfl rfl rfl rfl
  · exact inv_registerAccess n s hi (i := .wrCnt n 0) rfl rfl
  · exact hi.of_same h.1 h.2.2.1 h.2.2.2.1 h.2.2.2.2.2.1 h.2.2.2.2.2.2.2.2.2

/-- The requester's own bookkeeping keeps the invariant. -/
theorem inv_bookkeeping {s t : State} (hi : s.Inv) (h : Bookkeeping s t) : t.Inv :=
  hi.of_form h.params h.chans h.unitCh h.mem h.names

/-! ### Turns of the requester -/

/-- A free requester's turn runs the next piece of the expansion (R33). -/
theorem requesterStep_micro {s : State} {m : Micro} {rest : List Micro} (h : s.requesterFree) (ht : s.todo = m :: rest) :
    requesterStep s = thenDo (runMicro m { s with todo := rest }) retire := by
  simp [requesterStep, h.1, h.2, ht]

theorem requesterTurns_succ {k : Nat} {s t : State} (h : requesterStep s = .next t) :
    requesterTurns (k + 1) s = requesterTurns k t := by
  simp [requesterTurns, h]

/-- A statement does not end while a piece of it is left. -/
theorem retire_of_todo {s : State} (h : s.todo ≠ []) : retire s = s := by
  unfold retire; rw [if_neg]; cases ht : s.todo <;> simp_all

/-- The end of a statement changes only `active` and `rpc`. -/
theorem retire_fields (s : State) : (retire s).chans = s.chans ∧ (retire s).todo = s.todo ∧
    (retire s).faults = s.faults ∧ (retire s).mem = s.mem ∧ (retire s).unitCh = s.unitCh ∧
    (retire s).waiting = s.waiting ∧ (retire s).halted = s.halted := by
  unfold retire; split <;> exact ⟨rfl, rfl, rfl, rfl, rfl, rfl, rfl⟩

theorem sameOutside_retire (s : State) : SameOutside s (retire s) := by
  unfold retire; split <;> constructor <;> rfl

theorem widthOfBytes_none {w : Nat} : widthOfBytes w = none ↔ w ≠ 2 ∧ w ≠ 4 := by
  unfold widthOfBytes
  split
  · simp; omega
  · split
    · simp; omega
    · simp; omega

/-- `nextInstr` is the instruction the next step runs: the launch premises of R203 are about it. -/
theorem step_of_nextInstr {s : State} {i : Instr} (h : s.nextInstr = some i) :
    ∃ u f, Bookkeeping s u ∧ step s = thenDo (exec i u) f ∧ ∀ v, Bookkeeping v (f v) := by
  unfold State.nextInstr at h
  split at h
  · cases h
  rename_i hturn
  simp only [not_or, not_not, Bool.not_eq_true, Option.isSome_eq_false_iff, Option.isNone_iff_eq_none] at hturn
  obtain ⟨ha, hh, hw⟩ := hturn
  have hb := bookkeeping_takeTurn s
  split at h
  · rename_i rest ht
    cases h
    refine ⟨{ s.takeTurn with todo := rest }, retire,
      hb.trans (bookkeeping_requester s.takeTurn _ _ _ _ _ rest _ _ _ _ _ _ _ id), ?_,
      bookkeeping_retire⟩
    simp [step, ha, agentStep, requesterStep, State.takeTurn, hh, hw, ht, runMicro]
  · cases h
  · rename_i ht
    split at h
    · rename_i j hd
      cases h
      obtain ⟨st, hp, hd⟩ := Option.map_eq_some_iff.1 hd
      refine ⟨s.takeTurn.begin, fun t => retire (t.bindName st.name i), hb.trans (bookkeeping_requester s.takeTurn _ _ _ _ true _ _ _ _ _ _ _ _ id), ?_,
        fun v => (bookkeeping_bindName v _ _).trans (bookkeeping_retire _)⟩
      simp [step, ha, agentStep, requesterStep, State.takeTurn, hh, hw, ht, fetch, hp, hd, State.begin]
    · cases h

/-! ### The destination race (R69) -/

/-- With every channel Idle no byte is in a race: a read returns what memory holds (R69, R70). -/
theorem requesterMayRead_idle {s : State} (h : ∀ n, (s.chan n).enabled = false) (a : Nat) (v : Byte) :
    s.requesterMayRead a v ↔ v = byteAt s.mem a := by
  refine ⟨fun hr => hr.resolve_right ?_, .inl⟩
  rintro ⟨n, -, -, he, -⟩
  rw [h n] at he; cases he

end Sys2Proof.Machine
end

