-- ==== Sys2Proof/Tests/Slice0.lean ====
section
/-!
SUPPORT. The model's own tests: words written out from spec/30_encoding.md, ill-formed terms, one step of each kind with
the results of spec/95_test_vectors.md (the row is named in each test), and a witness for the hypotheses of each
statement.
-/
namespace Sys2Proof.Machine

open Host

/-! ### Small states -/

/-- The state an outcome answers. -/
def after (o : Outcome State Fault Refusal) : State :=
  match o with
  | .next s => s
  | .fault _ => State.reset
  | .refused _ => State.reset

/-- Reset, with SAD and DAD of one channel written. -/
def withRegs (n : ChanId) (src dst : Word) : State :=
  State.reset.modChan n fun c => { c with sad := src, sadW := true, dad := dst, dadW := true }

/-- `withRegs`, armed with `d`, its settle delay elapsed. -/
def armedWith (n : ChanId) (src dst d : Word) : State :=
  (after (exec (.wrCnt n d) (withRegs n src dst))).modChan n fun c => { c with settle := 0 }

/-- The start of REG-6: a fill of channel 3 with all but the arming write done. -/
def ready : State := (withRegs 3 0x040000EC 0x02000000).modChan 3 fun c => { c with fill := 0x0000FFFF, fillW := true }

/-- REG-6 done: channel 3 runs, inside its settle period. -/
def filling : State := after (exec (.wrCnt 3 0xC100000A) ready)

/-- Channel 3 runs, outside its settle period. -/
def busy : State := filling.modChan 3 fun c => { c with settle := 0 }

/-- ENG-10: its first unit is pending. -/
def pending : State := engineStep busy

/-- Channel 0 waits for HBlank with a repeating block of two units (P4). -/
def repeating : State := armedWith 0 0x02000000 0x02400000 0xD2600002

/-- A word is placed where the next step fetches. -/
def fetching (st : Statement) : State := State.reset.withStatement st

/-- The fault codes recorded. -/
def State.infos (s : State) : List FaultInfo := s.faults.map (·.info)

/-! ### Decoding: words written out from R80, R81, R82 -/

/-- `RD n.reg` is `0 0 ch ch reg reg`: one word for each register (OP-1, OP-2, OP-3, OP-4). -/
theorem test_decode_reads :
    decodeBytes [0b00000000] = .ok (.rdSad 0, []) ∧ decodeBytes [0b00001001] = .ok (.rdDad 2, []) ∧
    decodeBytes [0b00001110] = .ok (.rdCnt 3, []) ∧ decodeBytes [0b00000111] = .ok (.rdFill 1, []) := by decide

/-- `WR n.reg` is `0 1 ch ch reg reg`, then the operand (OP-5, OP-6, OP-7, and WR 2.DAD). -/
theorem test_decode_writes :
    decodeBytes [0b00011100, 0x00, 0x00, 0x00, 0x02] = .ok (.wrSad 3 0x02000000, []) ∧
    decodeBytes [0b00011001, 0x78, 0x56, 0x34, 0x12] = .ok (.wrDad 2 0x12345678, []) ∧
    decodeBytes [0b00010110, 0x01, 0x00, 0x00, 0x80] = .ok (.wrCnt 1 0x80000001, []) ∧
    decodeBytes [0b00010011, 0xFF, 0xFF, 0x00, 0x00] = .ok (.wrFill 0 0x0000FFFF, []) := by decide

/-- `TRIG t` is `1 0 0 t t t`, `TICK` is 0x28 (R81). -/
theorem test_decode_events :
    decodeBytes [0b00100001] = .ok (.trigVblank, []) ∧ decodeBytes [0b00100010] = .ok (.trigHblank, []) ∧
    decodeBytes [0b00100011] = .ok (.trigDispsync, []) ∧ decodeBytes [0b00100100] = .ok (.trigMainmem, []) ∧
    decodeBytes [0b00100101] = .ok (.trigGamecard, []) ∧ decodeBytes [0b00100110] = .ok (.trigAccessory, []) ∧
    decodeBytes [0b00100111] = .ok (.trigGxfifo, []) ∧ decodeBytes [0b00101000] = .ok (.tick, []) := by decide

/-- OP-12 to OP-16, and a byte that is no six-bit opcode. -/
theorem test_decode_reserved :
    decodeBytes [0x20] = .error (.reserved 0x20) ∧ decodeBytes [0x29] = .error (.reserved 0x29) ∧
    decodeBytes [0x2F] = .error (.reserved 0x2F) ∧ decodeBytes [0x30] = .error (.reserved 0x30) ∧
    decodeBytes [0x3F] = .error (.reserved 0x3F) ∧ decodeBytes [0x40] = .error (.notAnOpcode 0x40) := by decide

/-- The front end at the addresses of R60: CNT[1], FILL[3]; a byte access and an unaligned word are refused; below and
above the block nothing is the block's. -/
theorem test_decode_bus :
    decodeBus defaultParams ⟨0x040000C4, 4, none⟩ = .ok (.rdCnt 1) ∧
    decodeBus defaultParams ⟨0x040000EC, 4, some 7⟩ = .ok (.wrFill 3 7) ∧
    decodeBus defaultParams ⟨0x040000C4, 1, none⟩ = .error (.refusedAccess 0x040000C4 1) ∧
    decodeBus defaultParams ⟨0x040000C6, 4, none⟩ = .error (.refusedAccess 0x040000C6 4) ∧
    decodeBus defaultParams ⟨0x040000AE, 4, none⟩ = .error (.refusedAccess 0x040000AE 4) ∧
    decodeBus defaultParams ⟨0x040000AC, 4, none⟩ = .error (.notTheBlocks 0x040000AC) ∧
    decodeBus defaultParams ⟨0x040000F0, 4, none⟩ = .error (.notTheBlocks 0x040000F0) := by decide

/-- Any other width at a register's address is refused (R83), no byte among them (log 17). -/
theorem test_decode_bus_width : decodeBus defaultParams ⟨0x040000C4, 0, none⟩ = .error (.refusedAccess 0x040000C4 0) ∧
    decodeBus defaultParams ⟨0x040000C4, 8, none⟩ = .error (.refusedAccess 0x040000C4 8) := by decide

/-- The word the opcode table numbers: the opcode byte in bits 7:0, a write's operand in bits 39:8. -/
theorem test_decode_table_word :
    decodeTableWord 8 0x0E = some (.rdCnt 3) ∧ decodeTableWord 8 0x12 = some (.wrCnt 0 0) ∧
    decodeTableWord 40 0xC100000A1E = some (.wrCnt 3 0xC100000A) ∧ decodeTableWord 8 0x20 = none := by decide

/-- A record of the control word with every optional field at its default (R96). -/
def cw (enabled irq rep : Bool) (timing : Timing) (w : Width) (s : SrcMode) (d : DstMode) (count : BitVec 21) :
    ControlWord := ⟨enabled, irq, rep, timing, w, s, d, count⟩

/-- ENC-1 to ENC-7. -/
theorem test_encode_control :
    encodeControl (cw true true false .immediate .half .fixed .increment 10) = 0xC100000A ∧
    encodeControl (cw true true false .immediate .word .increment .increment 3) = 0xC4000003 ∧
    encodeControl (cw true true false .immediate .half .increment .increment 256) = 0xC0000100 ∧
    encodeControl (cw true false true (.on .hblank) .half .increment .incrementReload 1) = 0x92600001 ∧
    encodeControl (cw true true true (.on .gxfifo) .word .fixed .incrementReload 0x1FFFFF) = 0xFF7FFFFF ∧
    encodeControl (cw false false false .immediate .half .increment .increment 0) = 0x00000000 ∧
    encodeControl (cw false false false (.on .gxfifo) .word .increment .increment 0) = 0x3C000000 := by decide

/-- ENC-9 to ENC-15. -/
theorem test_decode_control :
    decodeControl 0x00000000 = some (cw false false false .immediate .half .increment .increment 0) ∧
    decodeControl 0xFFFFFFFF = none ∧ decodeControl 0x01800000 = none ∧ decodeControl 0x7FFFFFFF = none ∧
    decodeControl 0x00800000 = some (cw false false false .immediate .half .decrement .increment 0) ∧
    decodeControl 0x807FFFFF = some (cw true false false .immediate .half .increment .incrementReload 0x1FFFFF) ∧
    decodeControl 0x88800002 = some (cw true false false (.on .vblank) .half .decrement .increment 2) := by decide

/-! ### WellFormed: an ill-formed term for each check -/

theorem test_wf_defaults : defaultParams.wf = true := by decide

theorem test_wf_settle : ({ defaultParams with settleCycles := 3 } : Params).settleOk = false := by decide

theorem test_wf_units : ({ defaultParams with unitsPerTrigger := { defaultParams.unitsPerTrigger with
    gamecard := .atMost 0 } } : Params).unitsOk = false := by decide

/-- SAD[0] at an address that is no multiple of 4. -/
theorem test_wf_aligned : ({ defaultParams with addrMap := { defaultAddrMap with
    c0 := { defaultAddrMap.c0 with sad := 0x040000B2 } } } : Params).addrsAligned = false := by decide

/-- FILL[3] at the address of SAD[0]. -/
theorem test_wf_disjoint : ({ defaultParams with addrMap := { defaultAddrMap with
    c3 := { defaultAddrMap.c3 with fill := 0x040000B0 } } } : Params).addrsDisjoint = false := by decide

/-- A write without its operand, bytes left over, no byte, a reserved code, a wrong front-end access; and a transaction
(R95) and a pseudo-operation by name. A name to bind before a read and `IS_BUSY`, and before a write, TICK and WAIT_POLL,
which return nothing. -/
theorem test_wf_statements :
    Statement.wf defaultParams (.code [0x10, 0x00] none) = false ∧ Statement.wf defaultParams (.code [0x28, 0x28] none) = false ∧
    Statement.wf defaultParams (.code [] none) = false ∧ Statement.wf defaultParams (.call .tick none) = true ∧
    Statement.wf defaultParams (.code [0x29] none) = false ∧ Statement.wf defaultParams (.bus ⟨0x040000B1, 4, none⟩ none) = false ∧
    Statement.wf defaultParams (.call (.cancel 2) none) = true ∧ Statement.wf defaultParams (.code [0x0E] (some 5)) = true ∧
    Statement.wf defaultParams (.call (.isBusy 1) (some 5)) = true ∧
    Statement.wf defaultParams (.bus ⟨0x040000B0, 4, some 1⟩ (some 5)) = false ∧
    Statement.wf defaultParams (.code [0x28] (some 5)) = false ∧
    Statement.wf defaultParams (.call (.waitPoll 1) (some 5)) = false := by decide

/-! ### Register transactions -/

/-- REG-2: SAD is not changed by its read. -/
theorem test_rd_sad : ((after (exec (.rdSad 0) (withRegs 0 0x02000000 0))).chan 0).sad = 0x02000000 := by decide

/-- An address read makes no fault, even of a register never written (R106). -/
theorem test_rd_dad : (after (exec (.rdDad 1) State.reset)).infos = [] := by decide

/-- REG-7: the read of CNT in the settle period. -/
theorem test_rd_cnt_settle : (after (exec (.rdCnt 3) filling)).infos = [.settleViolation 3 0x0E] ∧
    (after (exec (.rdCnt 3) filling)).lastRead = none := by decide

/-- REG-10: another channel may be read, in the same-channel scope. -/
theorem test_rd_cnt_other : (after (exec (.rdCnt 2) filling)).infos = [] ∧
    (after (exec (.rdCnt 2) { filling with params := { defaultParams with settleScope := .allChannels } })).infos =
      [.settleViolation 2 0x0A] := by decide

/-- REG-3. -/
theorem test_rd_fill_unwritten : (after (exec (.rdFill 1) State.reset)).infos = [.unwrittenRegister 1 .fill] ∧
    (after (exec (.rdFill 1) State.reset)).lastRead = none := by decide

/-- REG-4. -/
theorem test_wr_fill : (after (exec (.rdFill 1) (after (exec (.wrFill 1 0xDEADBEEF) State.reset)))).lastRead =
    some 0xDEADBEEF := by decide

/-- REG-13: the transfer in flight keeps its source. -/
theorem test_wr_sad_busy : (after (exec (.wrSad 3 0x02500000) busy)).infos = [.issueOnBusy 3 .sad] ∧
    ((after (exec (.wrSad 3 0x02500000) busy)).chan 3).sad = 0x02500000 ∧
    ((after (exec (.wrSad 3 0x02500000) busy)).chan 3).curSrc = 0x040000EC := by decide

/-- REG-21: isolation. -/
theorem test_wr_dad : (after (exec (.wrDad 1 0x02100000) busy)).infos = [] ∧
    (after (exec (.wrDad 1 0x02100000) busy)).chan 3 = busy.chan 3 := by decide

/-- REG-6. -/
theorem test_wr_cnt_arms : let c := filling.chan 3
    c.enabled = true ∧ c.armOk = true ∧ c.curSrc = 0x040000EC ∧ c.curDst = 0x02000000 ∧ c.remaining = 10 ∧
    c.running = true ∧ c.budget = 10 ∧ c.settle = 4 := by decide

/-- REG-15. -/
theorem test_wr_cnt_cancels : let t := after (exec (.wrCnt 3 0) busy)
    t.infos = [.unsafeCancel 3] ∧ (t.chan 3).cnt = 0 ∧ (t.chan 3).running = false ∧ (t.chan 3).remaining = 0 ∧
    t.irq = busy.irq := by decide

/-- ENG-1, ENG-2, ENG-5, ENG-8: the first check that applies. -/
theorem test_arm_faults :
    (after (exec (.wrCnt 0 0x80000001) (State.reset.modChan 0 fun c => { c with dadW := true }))).infos =
      [.unwrittenRegister 0 .sad] ∧
    (after (exec (.wrCnt 0 0x80000001) (State.reset.modChan 0 fun c => { c with sadW := true }))).infos =
      [.unwrittenRegister 0 .dad] ∧
    (after (exec (.wrCnt 0 0x80000001) (withRegs 0 0x02000001 0x02100000))).infos =
      [.misalignedTransfer 0 0x02000001 0x02100000] ∧
    (after (exec (.wrCnt 0 0x81800001) (State.reset.modChan 0 fun c => { c with dadW := true }))).infos =
      [.reservedSourceMode 0] := by decide

/-- ENG-4: COUNT = 0 under the three values of ZERO_COUNT. -/
theorem test_zero_count :
    (after (exec (.wrCnt 0 0x80000000) (withRegs 0 0 0))).infos = [.zeroLengthIssue 0] ∧
    ((after (exec (.wrCnt 0 0x80000000) { withRegs 0 0 0 with
      params := { defaultParams with zeroCount := .empty } })).chan 0).enabled = false ∧
    ((after (exec (.wrCnt 0 0x80000000) { withRegs 0 0 0 with
      params := { defaultParams with zeroCount := .full } })).chan 0).budget = 0x200000 := by decide

/-- ENG-9: the address mask. -/
theorem test_addr_mask : ((after (exec (.wrCnt 0 0x80000001) { withRegs 0 0x12000000 0x02100000 with
    params := { defaultParams with addrMask := 0x0FFFFFFF } })).chan 0).curSrc = 0x02000000 := by decide

/-! ### Events -/

/-- REG-20. -/
theorem test_trig_vblank : let t := (after (exec .trigVblank (armedWith 2 0x02000000 0x02100000 0x88800002))).chan 2
    t.running = true ∧ t.budget = 2 := by decide

/-- EXC-10: the same event ends a wait. -/
theorem test_trig_vblank_wakes : (after (exec .trigVblank { State.reset with waiting := some .vblank })).waiting = none := by
  decide

/-- EXC-4: two empty blocks complete in one step, in the order of the channels. -/
theorem test_trig_hblank_empty :
    (after (exec .trigHblank ((State.reset.setChan 1 { (repeating.chan 0) with conf := 0x50000000, remaining := 0 }).setChan
      2 { (repeating.chan 0) with conf := 0x50000000, remaining := 0 }))).events.take 2 = [.irq 1, .irq 2] := by decide

/-- ENG-23: a limited trigger gives one unit. -/
theorem test_trig_hblank_limited : ((after (exec .trigHblank { repeating with params := { defaultParams with
    unitsPerTrigger := { defaultParams.unitsPerTrigger with hblank := .atMost 1 } } })).chan 0).budget = 1 := by decide

/-- Each of the other triggers starts a channel waiting on it, by the codes of R29. -/
theorem test_trig_others :
    ((after (exec .trigDispsync (armedWith 0 0 0 0x98000001))).chan 0).running = true ∧
    ((after (exec .trigMainmem (armedWith 0 0 0 0xA0000001))).chan 0).running = true ∧
    ((after (exec .trigGamecard (armedWith 0 0 0 0xA8000001))).chan 0).running = true ∧
    ((after (exec .trigAccessory (armedWith 0 0 0 0xB0000001))).chan 0).running = true ∧
    ((after (exec .trigGxfifo (armedWith 0 0 0 0xB8000001))).chan 0).running = true ∧
    ((after (exec .trigGxfifo (armedWith 0 0 0 0xB0000001))).chan 0).running = false := by decide

/-- REG-11: settle = [0, 2, 0, 4]. -/
theorem test_tick : let s := ((State.reset.modChan 1 fun c => { c with settle := 2 }).modChan 3 fun c =>
      { c with settle := 4 })
    allChannels.map (fun n => ((after (exec .tick s)).chan n).settle) = [0, 1, 0, 3] := by decide

/-! ### The engine -/

/-- ENG-10 and ENG-11: the first unit of the fill. -/
theorem test_engine_fill_unit : pending.unitData = 0xFFFF ∧ pending.unitCh = some 3 ∧
    (engineStep pending).unitCh = none ∧ ((engineStep pending).chan 3).curDst = 0x02000002 ∧
    ((engineStep pending).chan 3).curSrc = 0x040000EC ∧ ((engineStep pending).chan 3).remaining = 9 ∧
    (engineStep pending).mem = [(0x02000000, 0xFF), (0x02000001, 0xFF)] := by decide

/-- ENG-12: a decrementing word transfer. -/
theorem test_engine_decrement :
    let s := armedWith 0 0x02000010 0x02100010 0x84A00002
    let t := engineStep (engineStep { s with
      mem := [(0x02000010, 0x11), (0x02000011, 0x22), (0x02000012, 0x33), (0x02000013, 0x44)] })
    (t.chan 0).curSrc = 0x0200000C ∧ (t.chan 0).curDst = 0x0210000C ∧
    t.mem.drop 4 = [(0x02100010, 0x11), (0x02100011, 0x22), (0x02100012, 0x33), (0x02100013, 0x44)] := by decide

/-- ENG-16: FILL[2] read by halfword at both offsets, and by word. -/
theorem test_engine_fill_bytes :
    fillBytes 0x12345678 0 .half = 0x5678 ∧ fillBytes 0x12345678 2 .half = 0x1234 ∧
    fillBytes 0x12345678 0 .word = 0x12345678 := by decide

/-- ENG-17, ENG-19: an unwritten FILL and a block register as the source. -/
theorem test_engine_read_faults :
    (engineStep (armedWith 0 0x040000E4 0x02100000 0x80000001)).infos = [.unwrittenRegister 1 .fill] ∧
    (engineStep (armedWith 0 0x040000C8 0x02100000 0x80000001)).infos = [.dmaSelfAccess 0x040000C8] := by decide

/-- ENG-18: the address of CNT[0] as the destination; the unit stays pending. -/
theorem test_engine_write_fault :
    let t := engineStep { armedWith 0 0x02000000 0x040000B8 0x80000002 with unitCh := some 0 }
    t.infos = [.dmaSelfAccess 0x040000B8] ∧ t.unitCh = some 0 := by decide

/-- ENG-20: a source that is not admitted. -/
theorem test_engine_stuck : let s := armedWith 1 0x00000010 0x02100000 0x80000001
    s.engineEnabled = false ∧ s.engineStuck = true ∧ engineStep s = s := by decide

/-- ENG-25, ENG-28: the last unit of a repeating block pulses, and takes DAD again. -/
theorem test_engine_completion :
    let s := (after (exec .trigHblank repeating)).modChan 0 fun c => { c with remaining := 1, budget := 1 }
    let t := engineStep { s with unitCh := some 0 }
    t.irq.get 0 = true ∧ t.platIf.get 0 = true ∧ (t.chan 0).remaining = 2 ∧ (t.chan 0).enabled = true ∧
    (t.chan 0).running = false ∧ (t.chan 0).curDst = 0x02400000 ∧ (t.chan 0).curSrc = 0x02000002 := by decide

/-- ENG-13, ENG-14: stepping wraps. -/
theorem test_step_wraps : stepDst defaultParams .decrement .half 0 = 0xFFFFFFFE ∧
    stepSrc defaultParams .increment .word 0xFFFFFFFC = 0 := by decide

/-! ### The driver protocol -/

/-- DRV-1: busy inside its settle period, the read of IS_BUSY raises and returns nothing. -/
theorem test_is_busy_settle : (after (exec (.isBusy 3) filling)).lastBusy = none := by decide

/-- DRV-2. -/
theorem test_settle_delay : (after (exec .settleDelay State.reset)).todo =
    [.run .tick, .run .tick, .run .tick, .run .tick] := by decide

/-- DRV-3: a poll that shows busy goes on to VBLANK_WAIT and reads again. -/
theorem test_wait_poll : (after (exec (.waitPoll 3) State.reset)).todo = [.run (.isBusy 3), .pollCheck 3] ∧
    (pollCheck 3 { State.reset with lastBusy := some true }).todo =
      [.run .vblankWait, .run (.isBusy 3), .pollCheck 3] := by decide

/-- R152, R155: a read that raised shows no ENABLE bit, so neither wait returns on it (log 11). -/
theorem test_wait_unbound : (pollCheck 3 State.reset).todo = [.run .vblankWait, .run (.isBusy 3), .pollCheck 3] ∧
    (irqCheck 3 State.reset).todo = [.run (.waitInt 3 false), .run (.rdCnt 3), .irqCheck 3] ∧
    (irqCheck 3 State.reset).infos = [] := by decide

/-- DRV-4. -/
theorem test_wait_irq_platform : (after (exec (.waitIrq 3) State.reset)).infos = [.irqWaitMisconfigured 3 .platform] ∧
    (after (exec (.waitIrq 3) State.reset)).todo = [] := by decide

/-- DRV-5, DRV-6: the two decisions that return. -/
theorem test_wait_irq_returns :
    (irqCheck 1 { State.reset with lastRead := some 0x80000000 }).infos = [.irqWaitMisconfigured 1 .noRequest] ∧
    irqCheck 1 { State.reset with lastRead := some 0x40000000 } =
      { State.reset with lastRead := some 0x40000000 } := by decide

theorem test_wait_for : (after (exec (.waitFor 3) State.reset)).todo = [.run (.waitPoll 3)] ∧
    (after (exec (.waitFor 3) { State.reset with params := { defaultParams with waitStrategy := .irq } })).todo =
      [.run (.waitIrq 3)] := by decide

/-- DRV-12. -/
theorem test_issue_width : let t := after (exec (.issue 0 ⟨.copy, 0, 0, 4, 3, .increment, .increment⟩) State.reset)
    t.infos = [.badWidth 0 3] ∧ t.todo = [] := by decide

/-- DRV-11: the fill word of a halfword request is masked. -/
theorem test_issue_fill_word : (after (exec (.issue 2 (fillRequest 0xABCD1234 0x02000000 4 2)) State.reset)).todo =
    [.run (.wrFill 2 0x00001234), .run (.wrSad 2 0x040000E8), .run (.wrDad 2 0x02000000), .run (.wrCnt 2 0xC1000004),
      .run .settleDelay] := by decide

/-- DRV-8: the writes of a copy. -/
theorem test_issue_copy :
    (after (exec (.issueCopy 1 0x02000000 0x06000000 256 2) State.reset)).todo =
      [.run (.issue 1 ⟨.copy, 0x02000000, 0x06000000, 256, 2, .increment, .increment⟩)] ∧
    (after (exec (.issue 1 ⟨.copy, 0x02000000, 0x06000000, 256, 2, .increment, .increment⟩) State.reset)).todo =
      [.run (.wrSad 1 0x02000000), .run (.wrDad 1 0x06000000), .run (.wrCnt 1 0xC0000100), .run .settleDelay] := by decide

/-- DRV-9, DRV-10: the arming words of a fill. -/
theorem test_issue_fill :
    (after (exec (.issueFill 3 0xFFFF 0x02000000 10 2) State.reset)).todo =
      [.run (.issue 3 ⟨.fill, 0xFFFF, 0x02000000, 10, 2, .fixed, .increment⟩)] ∧
    issueWord (fillRequest 0xFFFF 0x02000000 10 2) .half = 0xC100000A ∧
    issueWord (fillRequest 0x12345678 0x02000000 10 4) .word = 0xC500000A := by decide

/-- L1-8: five and three words. -/
theorem test_copy : (after (exec (.copy 0x02000000 0x02100000 5 3 4) State.reset)).todo =
    [.run (.waitFor 3), .run (.flushRange 0x02000000 12), .run (.flushRange 0x02100000 12),
      .run (.invalidateRange 0x02100000 12), .run (.issueCopy 3 0x02000000 0x02100000 3 4)] := by decide

/-- DRV-18. -/
theorem test_fill_width : (after (exec (.fill 0xFF 0 4 1) State.reset)).infos = [.badWidth 3 1] := by decide

/-- L1-7: the sequence of P1. -/
theorem test_fill : (after (exec (.fill 0xFFFF 0x02000000 10 2) State.reset)).todo =
    [.run (.waitFor 3), .run (.flushRange 0x02000000 20), .run (.invalidateRange 0x02000000 20),
      .run (.issueFill 3 0xFFFF 0x02000000 10 2)] := by decide

/-- DRV-20 and REG-16. -/
theorem test_cancel : (after (exec (.cancel 2) State.reset)).infos = [] ∧
    (after (exec (.cancel 0) repeating)).infos = [] ∧ ((after (exec (.cancel 0) repeating)).chan 0).enabled = false := by
  decide

/-- RST-6: a cancel inside the settle period does nothing. -/
theorem test_cancel_settle : (after (exec (.cancel 3) filling)).infos = [.settleViolation 3 0x1E] ∧
    (after (exec (.cancel 3) filling)).chan 3 = filling.chan 3 := by decide

/-- RST-3 and EXC-11. -/
theorem test_halt : (after (exec .halt State.reset)).final = true ∧ (after (exec .halt repeating)).final = false := by
  decide

/-! ### Platform calls -/

/-- EXC-7. -/
theorem test_irq_enable : (after (exec (.irqEnable 2) State.reset)).platIe = ⟨false, false, true, false⟩ ∧
    (after (exec (.irqEnable 2) State.reset)).platIf = ⟨false, false, false, false⟩ := by decide

theorem test_irq_disable : (after (exec (.irqDisable 2) { State.reset with
    platIe := ⟨true, true, true, true⟩ })).platIe = ⟨true, true, false, true⟩ := by decide

/-- EXC-8, and the wait that ends at once. -/
theorem test_wait_int : let s := { State.reset with platIf := ⟨false, false, true, false⟩ }
    (after (exec (.waitInt 2 true) s)).waiting = some (.int 2) ∧
    (after (exec (.waitInt 2 true) s)).platIf = ⟨false, false, false, false⟩ ∧
    (after (exec (.waitInt 2 false) s)).waiting = none ∧
    (after (exec (.waitInt 2 false) s)).platIf = ⟨false, false, false, false⟩ := by decide

theorem test_vblank_wait : (after (exec .vblankWait State.reset)).waiting = some .vblank := by decide

theorem test_flush_range : (after (exec (.flushRange 0x02000000 20) State.reset)).events =
    [.flush 0x02000000 20] := by decide

theorem test_invalidate_range : (after (exec (.invalidateRange 0x02000000 20) State.reset)).events =
    [.invalidate 0x02000000 20] := by decide

/-- R136: the source of a repeating transfer goes on where the first block of two units ended, and its destination, in
Increment mode, does too (P_CACHE, log 22). -/
theorem test_buffers_repeat :
    (withRegs 0 0x02000000 0x02400000).sourceByte 0 0xD2600002 0x02000006 ∧
    (withRegs 0 0x02000000 0x02400000).destinationByte 0 0xD2000002 0x02400006 :=
  ⟨⟨.increment, by decide, 2, 3, by decide, .inr ⟨by decide, 2, by decide⟩, by decide, 0, by decide⟩,
    2, 3, by decide, .inr ⟨by decide, by decide, 2, by decide⟩, by decide, 0, by decide⟩

/-- R69, R136: the two units from DAD of a repeating IncrementReload transfer may be written, and no byte beyond them. -/
theorem test_race_bounded : repeating.mayBeWritten 0x02400003 ∧ ¬ repeating.mayBeWritten 0x02400004 := by
  refine ⟨⟨0, 0x02400000, 1, by decide, by decide, .inl ⟨by decide, .inl (by decide)⟩,
    ⟨by decide, 1, by decide⟩, by decide⟩, ?_⟩
  rintro ⟨n, start, k, he, -, hu, ⟨-, j, hj, ha⟩, -⟩
  obtain rfl : n = 0 := (by decide : ∀ m, (repeating.chan m).enabled = true → m = 0) n he
  have hk : start = 0x02400000 ∧ k < 2 := by
    rcases hu with ⟨rfl, h | ⟨h, -⟩⟩ | ⟨rfl, -, -, c, hc, h⟩
    · exact ⟨by decide, h⟩
    · exact absurd h (by decide)
    · obtain rfl : 2 = c := Option.some.inj hc
      exact ⟨by decide, h⟩
  obtain ⟨rfl, hk⟩ := hk
  have hj : j < 2 := hj
  revert ha
  interval_cases k <;> interval_cases j <;> decide

/-! ### Steps -/

/-- Channel 3 has a written FILL, and the program `RD 3.FILL -> 1; RD 1.FILL -> 2; RD 1.FILL -> 1` runs, where FILL[1] is
unwritten. -/
def naming : State := { ready with
  program := [.code [0x0F] (some 1), .code [0x0F] (some 2), .code [0x07] (some 1)]
  turns := [.requester, .requester, .requester] }

/-- R95: each name has its own value, and the second read does not take the first name's. -/
theorem test_names_kept : let t := after (step (after (step naming)))
    t.value 1 = some (.word 0x0000FFFF) ∧ t.value 2 = some (.word 0x0000FFFF) ∧ t.value 3 = none ∧
    (after (step naming)).value 2 = none := by decide

/-- R95, R114: a read that raises binds nothing, and the name keeps what it was bound to (log 11). -/
theorem test_names_raise : let t := after (step (after (step (after (step naming)))))
    t.infos = [.unwrittenRegister 1 .fill] ∧ t.lastRead = none ∧ t.value 1 = some (.word 0x0000FFFF) := by decide

/-- R95: a name bound again has the new value only. -/
theorem test_names_rebound : rowSet [(1, LocalValue.bit true), (4, .word 7)] 1 (.bit false) = [(1, .bit false), (4, .word 7)] ∧
    rowSet [(1, LocalValue.bit true), (4, .word 7)] 2 (.word 9) = [(1, .bit true), (2, .word 9), (4, .word 7)] := by decide

/-- P5 (of channel 3): the read in the settle period leaves `x` unbound; and a read outside it binds it. -/
theorem test_names_settle :
    (after (step (filling.withStatement (.code [0x0E] (some 1))))).value 1 = none ∧
    ((after (step (busy.withStatement (.call (.isBusy 3) (some 1))))).value 1).isSome = true := by decide

/-- A placed word is what the next step runs: an arming write with nothing written (ENG-1). -/
theorem test_step_write : (after (step (State.reset.withFetchWord 40 0xC100000A1E))).infos =
    [.unwrittenRegister 3 .sad] ∧ (after (step (State.reset.withFetchWord 40 0xC100000A1E))).rpc = 1 := by decide

/-- A statement with an expansion is not over before its pieces have run (R33). -/
theorem test_step_expansion : let t := after (step (fetching (.call .settleDelay none)))
    t.rpc = 0 ∧ t.active = true ∧ t.todo.length = 4 := by decide

/-- P6: a reserved code sets `refused`. -/
theorem test_step_reserved : (after (step (State.reset.withFetchWord 8 0x29))).refused = true ∧
    (after (step (State.reset.withFetchWord 8 0x29))).faults = [] := by decide

/-- R40: so do bytes that are no transaction, a write without its operand among them (log 18). -/
theorem test_step_ill_formed : (after (step (fetching (.code [0x10, 0x00] none)))).refused = true ∧
    (after (step (fetching (.code [0x10, 0x00] none)))).faults = [] ∧ (after (step (fetching (.code [] none)))).refused = true := by
  decide

/-- An access through the front end that is not the block's is refused by name (log 17). -/
theorem test_step_not_the_blocks : (match step (fetching (.bus ⟨0x05000000, 4, none⟩ none)) with
    | .refused (.notTheBlocks a) => decide (a = 0x05000000)
    | _ => false) = true := by decide

/-- A write puts its bytes in order, and writing over a byte keeps one entry for it. -/
theorem test_memory : memWrite [(4, 1), (6, 2)] 5 .half 0xBBAA = [(4, 1), (5, 0xAA), (6, 0xBB)] ∧
    memRead [(4, 1), (5, 2)] 4 .half = 0x0201 := by decide

/-! ### Witnesses: the hypotheses of each statement can be met, clause by clause -/

theorem witness_DecodeEncodeRoundTrip : returnsValue (.rdSad 0) = true ∧ returnsValue (.isBusy 3) = true ∧
    returnsValue .tick = false ∧ (none : Option LocalName) = none := by decide

theorem witness_EncodeDecodeRoundTrip :
    decodeStatement defaultParams (.code [0x1E, 0x0A, 0x00, 0x00, 0xC1] none) = .ok (.wrCnt 3 0xC100000A) ∧
    decodeStatement defaultParams (.code [0x0E] (some 2)) = .ok (.rdCnt 3) := by decide

/-- The reserved codes at both ends of their range, and the codes beside them. -/
theorem witness_ReservedCodes :
    ((0x20#6 = 0x20 ∨ 0x29 ≤ 0x20#6) ∧ (0x29#6 = 0x20 ∨ 0x29 ≤ 0x29#6) ∧ (0x3F#6 = 0x20 ∨ 0x29 ≤ 0x3F#6)) ∧
    (¬ (0x1F#6 = 0x20 ∨ 0x29 ≤ 0x1F#6) ∧ ¬ (0x21#6 = 0x20 ∨ 0x29 ≤ 0x21#6) ∧ ¬ (0x28#6 = 0x20 ∨ 0x29 ≤ 0x28#6)) := by
  decide

theorem witness_ControlWordRoundTrip : (0xFF7FFFFF : Word).extractLsb' 23 2 ≠ 3 := by decide

/-- An access of one byte at the last byte of FILL[3], an unaligned word that begins below SAD[0], and the words just
below and just above the block. -/
theorem witness_BusFrontEnd : defaultParams.wf = true ∧
    touches (defaultParams.regAddr 3 .fill) 0x040000EF 1 = true ∧
    touches (defaultParams.regAddr 0 .sad) 0x040000AD 4 = true ∧
    allRegisters.all (fun x => decide (defaultParams.regAddr x.1 x.2 ≠ 0x040000AD)) = true ∧
    allRegisters.all (fun x => !touches (defaultParams.regAddr x.1 x.2) 0x040000AC 4) = true ∧
    allRegisters.all (fun x => !touches (defaultParams.regAddr x.1 x.2) 0x040000F0 4) = true := by decide

/-- A settle period is over (one that lasts: `witness_SettleViolationBlocks`): for `AddressReadsAreDrawn`, `CntReadShowsBusy`, `StatusReadIdempotent`,
`RegisterWritesStore` and `IsBusyReadsEnable`, on an Idle and on an Armed channel. -/
theorem witness_registerAccess : State.reset.settleHit 0 = false ∧ busy.settleHit 3 = false ∧
    (State.reset.chan 0).enabled = false ∧ (busy.chan 3).enabled = true := by decide

theorem witness_FillReadReturnsStored : (ready.settleHit 3 = false ∧ (ready.chan 3).fillW = true) ∧
    (ready.settleHit 1 = false ∧ (ready.chan 1).fillW = false) := by decide

theorem witness_CntWriteConfigures : State.reset.settleHit 2 = false ∧ (State.reset.chan 2).enabled = false ∧
    cntEnable 0x04000010 = false := by decide

/-- A block of one unit, of the largest size, and an empty one. -/
theorem witness_ImmediateArming : ready.settleHit 3 = false ∧ (ready.chan 3).enabled = false ∧
    (ready.chan 3).sadW = true ∧ (ready.chan 3).dadW = true ∧
    (cntEnable 0xC1000001 = true ∧ cntSrcMode 0xC1000001 ≠ none ∧ cntRepeat 0xC1000001 = false ∧
      cntTiming 0xC1000001 = .immediate) ∧
    countOf defaultParams 0xC1000001 = some 1 ∧ countOf defaultParams 0xC11FFFFF = some 0x1FFFFF ∧
    countOf { defaultParams with zeroCount := .empty } 0xC1000000 = some 0 ∧
    countOf { defaultParams with zeroCount := .full } 0xC1000000 = some 0x200000 ∧
    misaligned ((ready.chan 3).sad &&& ready.params.addrMask) (cntWidth 0xC1000001) = false ∧
    misaligned ((ready.chan 3).dad &&& ready.params.addrMask) (cntWidth 0xC1000001) = false := by decide

/-- A repeating word with Immediate timing, where the parameter allows it. -/
theorem witness_ImmediateArming_repeat : cntRepeat 0x82000001 = true ∧ cntTiming 0x82000001 = .immediate ∧
    ({ defaultParams with repeatImmediate := .oneShot } : Params).repeatImmediate = .oneShot := by decide

theorem witness_TriggeredArmingWaits : let s := withRegs 0 0x02000000 0x02400000
    s.settleHit 0 = false ∧ (s.chan 0).enabled = false ∧ cntEnable 0xD2600002 = true ∧ cntSrcMode 0xD2600002 ≠ none ∧
    (s.chan 0).sadW = true ∧ (s.chan 0).dadW = true ∧ cntTiming 0xD2600002 ≠ .immediate ∧
    countOf s.params 0xD2600002 = some 2 ∧
    misaligned ((s.chan 0).sad &&& s.params.addrMask) (cntWidth 0xD2600002) = false ∧
    misaligned ((s.chan 0).dad &&& s.params.addrMask) (cntWidth 0xD2600002) = false := by decide

/-- Each of the six faults is the first that applies in some state. -/
theorem witness_ArmingFaultOrder : let s := withRegs 0 0x02000001 0x02100000
    (s.settleHit 0 = false ∧ (s.chan 0).enabled = false ∧ (s.chan 0).sadW = true ∧ (s.chan 0).dadW = true) ∧
    (cntEnable 0x81800001 = true ∧ cntSrcMode 0x81800001 = none) ∧
    (cntEnable 0x80000001 = true ∧ cntSrcMode 0x80000001 ≠ none ∧ cntRepeat 0x80000001 = false) ∧
    ((State.reset.chan 0).sadW = false ∧ (ready.chan 2).dadW = false) ∧
    (cntEnable 0x82000001 = true ∧ cntSrcMode 0x82000001 ≠ none ∧ cntRepeat 0x82000001 = true ∧
      cntTiming 0x82000001 = .immediate ∧ s.params.repeatImmediate = .fault) ∧
    (cntEnable 0x80000000 = true ∧ cntSrcMode 0x80000000 ≠ none ∧ cntCount 0x80000000 = 0 ∧
      s.params.zeroCount = .fault) ∧
    misaligned ((s.chan 0).sad &&& s.params.addrMask) (cntWidth 0x80000001) = true := by decide

/-- A unit pending for a block register (CNT[0]). -/
def selfAccess : State := { armedWith 0 0x02000000 0x040000B8 0x80000002 with unitCh := some 0 }

/-- A cancellation with no unit pending, with one whose destination is admitted memory, with one whose destination is
memory that is not admitted, and with one whose destination is a block register; of a word that repeats and of one that
does not. (The draw is free, so neither of its values has a witness.) -/
theorem witness_CancellationHalts :
    (busy.settleHit 3 = false ∧ (busy.chan 3).enabled = true ∧ cntEnable 0 = false ∧ busy.unitCh ≠ some 3) ∧
    (pending.settleHit 3 = false ∧ (pending.chan 3).enabled = true ∧ pending.unitCh = some 3 ∧
      route pending.params (pending.chan 3).curDst = .memory ∧
      memAdmits pending.params (pending.chan 3).curDst (pending.chan 3).width = true ∧
      cntRepeat (pending.chan 3).cnt = false) ∧
    (let s := pending.modChan 3 fun c => { c with curDst := 0x00000010 };
      s.settleHit 3 = false ∧ (s.chan 3).enabled = true ∧ s.unitCh = some 3 ∧
      route s.params (s.chan 3).curDst = .memory ∧ memAdmits s.params (s.chan 3).curDst (s.chan 3).width = false) ∧
    (repeating.settleHit 0 = false ∧ (repeating.chan 0).enabled = true ∧ cntRepeat (repeating.chan 0).cnt = true) ∧
    (selfAccess.settleHit 0 = false ∧ (selfAccess.chan 0).enabled = true ∧ selfAccess.unitCh = some 0 ∧
      route selfAccess.params (selfAccess.chan 0).curDst ≠ .memory) := by decide

theorem witness_RearmOverwrites :
    (busy.settleHit 3 = false ∧ (busy.chan 3).enabled = true ∧ cntEnable 0xC0000004 = true ∧ busy.unitCh ≠ some 3) ∧
    (pending.settleHit 3 = false ∧ (pending.chan 3).enabled = true ∧ pending.unitCh = some 3) ∧
    (selfAccess.settleHit 0 = false ∧ (selfAccess.chan 0).enabled = true ∧ selfAccess.unitCh = some 0) := by decide

/-- No unit of the channel is pending; one is, under a read; and the byte after its destination. -/
theorem witness_RegisterTransactionIsolation : registerAccess (.wrCnt 1 0xC0000004) = some (1, 0x16) ∧
    registerAccess (.rdFill 3) = some (3, 0x0F) ∧ pending.unitCh ≠ some 1 ∧ pending.unitCh = some 3 ∧
    (∀ d, Instr.rdFill 3 ≠ .wrCnt 3 d) ∧ widthBytes (pending.chan 3).width = 2 ∧
    0x02000002 ≠ byteAddr (pending.chan 3).curDst 0 ∧ 0x02000002 ≠ byteAddr (pending.chan 3).curDst 1 ∧
    (registerOperand (.wrCnt 1 0xC0000004)).isSome = true :=
  ⟨by decide, by decide, by decide, by decide, fun _ => nofun, by decide, by decide, by decide, by decide⟩

/-- A settle delay of one TICK, in each scope (for `IsBusyReadsEnable` too). -/
theorem witness_SettleViolationBlocks :
    let s := State.reset.modChan 3 fun c => { c with settle := 1 }
    (s.params.settleScope = .sameChannel ∧ 0 < (s.chan 3).settle ∧ registerAccess (.rdCnt 3) = some (3, 0x0E)) ∧
    (({ s with params := { defaultParams with settleScope := .allChannels } } : State).params.settleScope =
      .allChannels ∧ registerAccess (.rdCnt 2) = some (2, 0x0A)) := by decide

theorem witness_TransactionFaultsRecorded : registerAccess (.wrCnt 3 0xC0000004) = some (3, 0x1E) ∧
    registerAccess (.rdSad 0) = some (0, 0x00) := by decide

theorem witness_OnlyTickSettles : let s := { filling with program := [.code [0x28] none] }
    agentStep .requester s = .next (after (agentStep .requester s)) ∧
    ((after (agentStep .requester s)).chan 3).settle < (s.chan 3).settle := ⟨rfl, by decide⟩

/-- A channel that waits, with units left; with an empty block, repeating and not; and channels that do not wait. -/
theorem witness_TriggerStartsWaiting :
    let c := repeating.chan 0
    (c.enabled = true ∧ c.armOk = true ∧ c.timing = .on .hblank ∧ c.running = false ∧ c.remaining ≠ 0) ∧
    (cntRepeat c.cnt = true ∧ countOf repeating.params c.cnt = some 2) ∧
    (let e := (armedWith 0 0 0 0x90000001).chan 0;
      e.enabled = true ∧ e.armOk = true ∧ e.timing = .on .hblank ∧ e.running = false ∧ cntRepeat e.cnt = false) ∧
    (let e := (after (exec (.wrCnt 0 0x90000000) { withRegs 0 0 0 with
        params := { defaultParams with zeroCount := .empty } })).chan 0;
      e.enabled = true ∧ e.armOk = true ∧ e.timing = .on .hblank ∧ e.running = false ∧ e.remaining = 0 ∧
      cntRepeat e.cnt = false) ∧
    (let s := after (exec (.wrCnt 0 0x92000000) { withRegs 0 0 0 with
        params := { defaultParams with zeroCount := .empty } });
      let e := s.chan 0;
      e.enabled = true ∧ e.armOk = true ∧ e.timing = .on .hblank ∧ e.running = false ∧ e.remaining = 0 ∧
      cntRepeat e.cnt = true ∧ countOf s.params e.cnt = some 0) ∧
    ¬ ((State.reset.chan 1).enabled = true) ∧
    allChannels.all (fun n => !((repeating.chan n).waitsOn .hblank && decide ((repeating.chan n).remaining = 0))) = true := by
  decide

theorem witness_TriggersAreNotLatched :
    allChannels.all (fun n => !(State.reset.chan n).waitsOn .hblank) = true ∧ (busy.chan 3).running = true := by decide

theorem witness_LowestRunningIsServed : busy.unitCh = none ∧ busy.selected = some 3 ∧ State.reset.unitCh = none ∧
    allChannels.all (fun n => !(State.reset.chan n).running) = true := by decide

/-- A source in memory, in a written FILL, in an unwritten FILL, and in another block register. -/
theorem witness_UnitReadOutcomes :
    (let s := armedWith 0 0x02000000 0x02100000 0x80000001;
      s.unitCh = none ∧ s.selected = some 0 ∧ route s.params (s.chan 0).curSrc = .memory ∧
      memAdmits s.params (s.chan 0).curSrc (s.chan 0).width = true) ∧
    (busy.unitCh = none ∧ busy.selected = some 3 ∧ route busy.params (busy.chan 3).curSrc = .fill 3 ∧
      (busy.chan 3).fillW = true) ∧
    (let s := armedWith 0 0x040000E4 0x02100000 0x80000001;
      s.selected = some 0 ∧ route s.params (s.chan 0).curSrc = .fill 1 ∧ (s.chan 1).fillW = false) ∧
    (let s := armedWith 0 0x040000C8 0x02100000 0x80000001;
      s.selected = some 0 ∧ route s.params (s.chan 0).curSrc = .ownRegister) := by decide

theorem witness_FillRouteReadsCell : defaultParams.wf = true := by decide

/-- A unit that is not the last (two are left), and a destination that is a block register. -/
theorem witness_UnitWriteOutcomes :
    (let s := pending.modChan 3 fun c => { c with remaining := 2 };
      s.unitCh = some 3 ∧ cntSrcMode (s.chan 3).cnt = some .fixed ∧ route s.params (s.chan 3).curDst = .memory ∧
      memAdmits s.params (s.chan 3).curDst (s.chan 3).width = true ∧ 2 ≤ (s.chan 3).remaining) ∧
    (let s := { armedWith 0 0x02000000 0x040000B8 0x80000002 with unitCh := some 0 };
      cntSrcMode (s.chan 0).cnt = some .increment ∧ route s.params (s.chan 0).curDst ≠ .memory) := by decide

/-- The last unit of a block that repeats, and of one that does not. -/
theorem witness_LastUnitCompletes :
    (let s := { armedWith 0 0x02000000 0x02100000 0x80000001 with unitCh := some 0 };
      s.unitCh = some 0 ∧ cntSrcMode (s.chan 0).cnt = some .increment ∧ route s.params (s.chan 0).curDst = .memory ∧
      memAdmits s.params (s.chan 0).curDst (s.chan 0).width = true ∧ (s.chan 0).remaining = 1 ∧
      cntRepeat (s.chan 0).cnt = false) ∧
    (let s := { (after (exec .trigHblank repeating)).modChan 0 (fun c => { c with remaining := 1 }) with unitCh := some 0 };
      s.unitCh = some 0 ∧ cntSrcMode (s.chan 0).cnt = some .increment ∧ route s.params (s.chan 0).curDst = .memory ∧
      memAdmits s.params (s.chan 0).curDst (s.chan 0).width = true ∧ (s.chan 0).remaining = 1 ∧
      cntRepeat (s.chan 0).cnt = true ∧ (s.chan 0).timing ≠ .immediate ∧
      countOf s.params (s.chan 0).cnt = some 2) := by decide

theorem witness_UnitMovesItsBytes : let s := armedWith 0 0x02000000 0x02100000 0x84000001
    s.unitCh = none ∧ s.selected = some 0 ∧ cntSrcMode (s.chan 0).cnt ≠ none ∧
    route s.params (s.chan 0).curSrc = .memory ∧ memAdmits s.params (s.chan 0).curSrc (s.chan 0).width = true ∧
    route s.params (s.chan 0).curDst = .memory ∧ memAdmits s.params (s.chan 0).curDst (s.chan 0).width = true := by decide

theorem witness_EngineIsolation : pending.unitCh = some 3 ∧ (busy.unitCh = none ∧ busy.selected = some 3) ∧
    (State.reset.unitCh = none ∧ State.reset.selected = none) := by decide

theorem witness_EngineEnabledness : (pending.unitCh = some 3 ∧ cntSrcMode (pending.chan 3).cnt ≠ none) ∧
    busy.unitCh = none ∧ State.reset.engineEnabled = false ∧ pending.engineEnabled = true := by decide

/-- Byte 0 and the last byte of a word, and the byte after it. -/
theorem witness_LittleEndianAccesses : 0 < widthBytes .half ∧ 1 < widthBytes .half ∧ 3 < widthBytes .word ∧
    4 ≠ byteAddr 0 0 ∧ 4 ≠ byteAddr 0 3 := by decide

/-- The invariant holds of a machine with a unit in flight, one step of the requester from reading another channel. -/
def inFlight : State := { pending.withStatement (.code [0x06] none) with irq := pending.irq }

theorem inFlight_inv : inFlight.Inv where
  units := by decide
  chans := by
    have h : ∀ n, n = 3 ∨ inFlight.chan n = State.reset.chan n := by decide
    intro n
    rcases h n with rfl | h
    · exact ⟨⟨by decide, by decide, by decide⟩, by decide, by decide, by decide,
        fun _ _ => ⟨by decide, by decide, by decide, by decide⟩⟩
    · rw [h]
      revert n
      intro n _
      have hc : State.reset.chan n = ChannelState.reset := by revert n; decide
      rw [hc]
      exact ⟨⟨by decide, by decide, by decide⟩, by decide, by decide, by decide, fun h => by cases h⟩
  pending := by decide
  mem := by decide
  names := by decide

theorem witness_StepsKeepInvariant : inFlight.Inv ∧ ∃ t, step inFlight = .next t := ⟨inFlight_inv, _, rfl⟩

theorem witness_ParametersAreConstant : ∃ t, step inFlight = .next t := ⟨_, rfl⟩

/-- A state that is faulted, and one that is refused, each with a step. -/
theorem witness_FaultsAreSticky :
    ((inFlight.raise (.badWidth 0 3)).faulted = true ∧ ∃ t, step (inFlight.raise (.badWidth 0 3)) = .next t) ∧
    ∃ t, step { inFlight with refused := true } = .next t := ⟨⟨by decide, _, rfl⟩, _, rfl⟩

theorem witness_SteppingKeepsAlignment : misaligned 0 .word = false ∧ misaligned 0xFFFFFFFE .half = false := by decide

/-- A free requester outside a settle period, with the channel Idle, Armed with an interrupt request, and Armed
without; the platform's enable bit set and clear; and inside a settle period. -/
theorem witness_waits : State.reset.requesterFree ∧ State.reset.settleHit 3 = false ∧
    (State.reset.chan 3).enabled = false ∧
    (busy.requesterFree ∧ busy.settleHit 3 = false ∧ (busy.chan 3).enabled = true ∧ cntIrq (busy.chan 3).cnt = true) ∧
    (let s := armedWith 1 0x02000000 0x02100000 0x80000005;
      s.requesterFree ∧ s.settleHit 1 = false ∧ (s.chan 1).enabled = true ∧ cntIrq (s.chan 1).cnt = false) ∧
    State.reset.platIe.get 3 = false ∧ ({ busy with platIe := ⟨false, false, false, true⟩ } : State).platIe.get 3 = true ∧
    (let s := { filling with platIe := ⟨false, false, false, true⟩ };
      s.requesterFree ∧ s.settleHit 3 = true ∧ s.platIe.get 3 = true) := by
  unfold State.requesterFree; decide

theorem witness_WaitForFollowsStrategy : State.reset.requesterFree ∧ State.reset.params.waitStrategy = .poll ∧
    ({ State.reset with params := { defaultParams with waitStrategy := .irq } } : State).params.waitStrategy = .irq := by
  unfold State.requesterFree; decide

/-- Widths beside the two that are accepted, and the first length that is not. -/
theorem witness_IssuerRejectsBadRequests :
    let q : Request := fillRequest 0 0 0x200000 3
    (q.width ≠ 2 ∧ q.width ≠ 4) ∧ 0x1FFFFF < q.len ∧ (fillRequest 0 0 0x200000 4).width = 4 := by decide

theorem witness_IssueWritesInOrder :
    ((fillRequest 0 0 0x1FFFFF 2).width = 2 ∧ (fillRequest 0 0 0x1FFFFF 2).len ≤ 0x1FFFFF ∧
      (fillRequest 0 0 0x1FFFFF 2).kind = .fill) ∧
    ((copyRequest 0 0 1 4).width = 4 ∧ (copyRequest 0 0 1 4).len ≤ 0x1FFFFF ∧ (copyRequest 0 0 1 4).kind = .copy) := by
  decide

theorem witness_IssueCopyArmsTransfer : State.reset.requesterFree ∧ State.reset.settleHit 1 = false ∧
    (State.reset.chan 1).enabled = false ∧ 1 ≤ 0x1FFFFF ∧ 0x1FFFFF ≤ 0x1FFFFF ∧
    misaligned (0x02000000 &&& State.reset.params.addrMask) .word = false ∧
    misaligned (0x06000000 &&& State.reset.params.addrMask) .word = false := by
  unfold State.requesterFree; decide

theorem witness_IssueFillArmsTransfer : State.reset.requesterFree ∧ State.reset.settleHit 3 = false ∧
    (State.reset.chan 3).enabled = false ∧ 1 ≤ 10 ∧ 10 ≤ 0x1FFFFF ∧
    misaligned (State.reset.params.regAddr 3 .fill &&& State.reset.params.addrMask) .half = false ∧
    misaligned (0x02000000 &&& State.reset.params.addrMask) .half = false := by
  unfold State.requesterFree; decide

theorem witness_FacadeRejectsElementSize : (1 ≠ 2 ∧ 1 ≠ 4) ∧ (3 ≠ 2 ∧ 3 ≠ 4) ∧ (8 ≠ 2 ∧ 8 ≠ 4) := by decide

theorem witness_FacadeSequences : (2 = 2 ∨ 2 = 4) ∧ (4 = 2 ∨ 4 = 4) := by decide

theorem witness_CancelWritesZero : busy.settleHit 3 = false ∧ busy.unitCh ≠ some 3 ∧ pending.settleHit 3 = false ∧
    pending.unitCh = some 3 := by decide

theorem witness_HaltAndFinalState : ({ State.reset with halted := true } : State).halted = true := rfl

/-- The flag set, and clear; blocked with the flag clear, and set. -/
theorem witness_WaitIntConsumesFlag :
    let s := { State.reset with platIf := ⟨false, false, true, false⟩ }
    s.platIf.get 2 = true ∧ State.reset.platIf.get 2 = false ∧
    (({ s with waiting := some (.int 2) } : State).waiting = some (.int 2) ∧ s.halted = false) ∧
    ({ State.reset with waiting := some (.int 2) } : State).platIf.get 2 = false := by decide

theorem witness_VblankWaitEndsAtTrigger : let s := { State.reset with waiting := some .vblank }
    s.halted = false ∧ s.waiting = some .vblank ∧ Trigger.hblank ≠ .vblank := by decide

/-- A statement to run, a piece of an expansion to run, the engine's turn, a trigger's turn; a statement that is over, and
ones that are not: nothing in progress, a piece left, the requester blocked. -/
theorem witness_StepRunsDecodedInstruction :
    (let s := fetching (.code [0x28] none);
      s.nextAgent = .requester ∧ s.halted = false ∧ s.waiting = none ∧ s.todo = [] ∧
      s.program[s.rpc]? = some (.code [0x28] none) ∧ decodeStatement s.params (.code [0x28] none) = .ok .tick) ∧
    (let s := { fetching (.code [0x28] none) with todo := [.run .tick] };
      s.nextAgent = .requester ∧ s.todo = .run .tick :: []) ∧
    ({ State.reset with turns := [.engine] } : State).nextAgent = .engine ∧
    ({ State.reset with turns := [.environment .gxfifo] } : State).nextAgent = .environment .gxfifo ∧
    (let s := { State.reset with active := true };
      (s.active = true ∧ s.todo = [] ∧ s.waiting = none) ∧ State.reset.active = false ∧
      ({ s with todo := [.run .tick] } : State).todo ≠ [] ∧
      ({ s with waiting := some .vblank } : State).waiting ≠ none) := by decide

/-- A read, and `IS_BUSY`, with a name to bind: one that returns a value and one that raises; another name; and a step in
which a name's value changes. -/
theorem witness_ResultsAreBoundToNames :
    (naming.nextAgent = .requester ∧ naming.halted = false ∧ naming.waiting = none ∧ naming.todo = [] ∧
      naming.program[naming.rpc]? = some (.code [0x0F] (some 1)) ∧
      decodeStatement naming.params (.code [0x0F] (some 1)) = .ok (readInstr 3 .fill)) ∧
    (Statement.name (.code [0x0F] (some 1)) = some 1 ∧ Statement.name (.code [0x0F] (some 1)) ≠ some 2 ∧
      (after (exec (.rdFill 3) naming)).lastRead = some 0x0000FFFF ∧
      (after (exec (.rdFill 1) naming)).lastRead = none) ∧
    (let s := State.reset.withStatement (.call (.isBusy 3) (some 1));
      s.nextAgent = .requester ∧ s.program[s.rpc]? = some (.call (.isBusy 3) (some 1)) ∧
      decodeStatement s.params (.call (.isBusy 3) (some 1)) = .ok (.isBusy 3)) ∧
    (after (exec (.isBusy 3) filling)).lastBusy = none ∧
    (∃ u, step naming = .next u ∧ u.value 1 ≠ naming.value 1) :=
  ⟨by decide, by decide, by decide, by decide, _, rfl, by decide⟩

/-- A reserved code, a refused front-end access, a write without its operand, and a name before TICK. -/
theorem witness_ReservedStatementRefused :
    (let s := fetching (.code [0x29] none);
      s.nextAgent = .requester ∧ s.halted = false ∧ s.waiting = none ∧ s.todo = [] ∧
      s.program[s.rpc]? = some (.code [0x29] none) ∧
      decodeStatement s.params (.code [0x29] none) = .error (.reserved 0x29)) ∧
    (let s := fetching (.bus ⟨0x040000B1, 4, none⟩ none);
      s.program[s.rpc]? = some (.bus ⟨0x040000B1, 4, none⟩ none) ∧
      decodeStatement s.params (.bus ⟨0x040000B1, 4, none⟩ none) = .error (.refusedAccess 0x040000B1 4)) ∧
    (let s := fetching (.code [0x10] none);
      s.program[s.rpc]? = some (.code [0x10] none) ∧
      decodeStatement s.params (.code [0x10] none) = .error (.missingOperand 0x10)) ∧
    decodeStatement State.reset.params (.code [0x28] (some 1)) = .error (.nothingToBind 1) := by decide

end Sys2Proof.Machine
end

namespace Sys2Proof.Machine

/-! ### The invariant at reset and through a step (spec/10_state.md R38, R200) -/

theorem chan_reset (n : ChanId) : State.reset.chan n = ChannelState.reset := by fin_cases n <;> rfl

theorem ChannelState.inv_reset (p : Params) : ChannelState.reset.Inv p :=
  .idle rfl rfl rfl (Nat.zero_le _) (Nat.zero_le _)

/-- Every step keeps the invariant: bookkeeping, instructions and the engine's turns each do. -/
theorem inv_step {s t : State} (hi : s.Inv) (h : step s = .next t) : t.Inv :=
  step_induction (P := fun s t => s.Inv → t.Inv)
    (book := fun _ _ hb hs => inv_bookkeeping hs hb)
    (pre := fun _ _ _ hb keeps hs => keeps (inv_bookkeeping hs hb))
    (post := fun _ _ _ keeps hb hs => inv_bookkeeping (keeps hs) hb)
    (hexec := fun _ _ _ he hs => inv_exec hs he)
    (engine := fun _ hs => inv_engineStep hs) h hi

/-- Settles O36: the invariant is kept by each kind of step, and the clauses of R38 are a part of it. -/
theorem stepsKeepInvariant : Obligations.StepsKeepInvariant := by
  unfold Obligations.StepsKeepInvariant
  intro s t hi h
  have ht : t.Inv := inv_step hi h
  refine ⟨ht, fun n => ?_⟩
  have hr : (t.chan n).Regular := (ht.chans n).regular
  exact ⟨hr.running_enabled, hr.idle, hr.running_units⟩

/-- Settles O35: every channel is Idle at reset, no unit is pending, and both tables are empty. -/
theorem resetSatisfiesInvariant : Obligations.ResetSatisfiesInvariant where
  units := by decide
  chans n := by rw [chan_reset]; exact ChannelState.inv_reset _
  pending _ h := nomatch h
  mem := by decide
  names := by decide

/-! ### Parameters and program (spec/10_state.md R43) -/

/-- The parameters and the requester's program are as before (R43). -/
structure SameParameters (s t : State) : Prop where
  params : t.params = s.params
  program : t.program = s.program

theorem SameParameters.trans {s t u : State} (h : SameParameters s t) (g : SameParameters t u) : SameParameters s u :=
  ⟨g.params.trans h.params, g.program.trans h.program⟩

theorem OnlyChannel.sameParameters {n : ChanId} {s t : State} (h : OnlyChannel n s t) : SameParameters s t :=
  ⟨h.params, h.program⟩

theorem Bookkeeping.sameParameters {s t : State} (h : Bookkeeping s t) : SameParameters s t := ⟨h.params, h.program⟩

theorem sameParameters_deliverTrigger (s : State) (t : Trigger) : SameParameters s (deliverTrigger t s) :=
  deliverTrigger_induction s t (fun _ _ _ => .trans) fun s n => (onlyChannel_triggerChannel s t n).sameParameters

theorem sameParameters_exec {i : Instr} {s t : State} (h : exec i s = .next t) : SameParameters s t := by
  rcases exec_cases h with ⟨n, op, ha⟩ | ⟨tr, w, rfl⟩ | rfl | ⟨n, rfl⟩ | ⟨n, rfl⟩ | ⟨hp, hprog, -⟩
  · exact (onlyChannel_registerAccess ha h).sameParameters
  · exact ⟨(sameParameters_deliverTrigger s tr).params, (sameParameters_deliverTrigger s tr).program⟩
  · exact ⟨rfl, rfl⟩
  · have ho := onlyChannel_registerAccess (i := .rdCnt n) (s := s) rfl rfl
    exact ⟨ho.params, ho.program⟩
  · exact (onlyChannel_registerAccess (i := .wrCnt n 0) (s := s) rfl rfl).sameParameters
  · exact ⟨hp, hprog⟩

theorem sameParameters_engineStep (s : State) : SameParameters s (engineStep s) := by
  obtain ⟨n, ho⟩ := onlyChannel_engineStep s
  exact ho.sameParameters

theorem sameParameters_step {s t : State} (h : step s = .next t) : SameParameters s t :=
  step_induction (P := SameParameters)
    (book := fun _ _ hb => hb.sameParameters)
    (pre := fun _ _ _ hb hp => hb.sameParameters.trans hp)
    (post := fun _ _ _ hp hb => hp.trans hb.sameParameters)
    (hexec := fun _ _ _ he => sameParameters_exec he)
    (engine := sameParameters_engineStep) h

/-- Settles O37: no instruction, no turn of the engine and no bookkeeping of the requester writes either field. -/
theorem parametersAreConstant : Obligations.ParametersAreConstant := by
  unfold Obligations.ParametersAreConstant
  intro s t h
  exact ⟨(sameParameters_step h).params, (sameParameters_step h).program⟩

/-! ### What a step runs (spec/10_state.md R33; 00_scope.md R17) -/

/-- The step is the turn of the agent that is next, on the state whose turn has been taken (R17). -/
theorem step_of_nextAgent {s : State} {a : Agent} (h : s.nextAgent = a) : step s = agentStep a s.takeTurn := by
  rw [step, h]

/-- Taking a turn leaves the requester free if it was. -/
theorem requesterFree_takeTurn {s : State} (h : s.requesterFree) : s.takeTurn.requesterFree := ⟨h.1, h.2⟩

/-- A free requester with nothing left of an expansion runs the instruction its statement decodes to (R33, R95). -/
theorem requesterStep_statement {s : State} {st : Statement} {i : Instr} (h : s.requesterFree) (ht : s.todo = [])
    (hp : s.program[s.rpc]? = some st) (hd : decodeStatement s.params st = .ok i) :
    requesterStep s = thenDo (exec i s.begin) fun t => retire (t.bindName st.name i) := by
  obtain ⟨hh, hw⟩ := h
  simp [requesterStep, fetch, hh, hw, ht, hp, hd]

/-- A statement in progress with nothing left of it ends, if the requester is not blocked (R33). -/
theorem retire_of_done {s : State} (ha : s.active = true) (ht : s.todo = []) (hw : s.waiting = none) :
    retire s = { s with active := false, rpc := s.rpc + 1 } := by
  simp [retire, ha, ht, hw]

/-- No statement ends where none is in progress, a piece of it is left, or the requester is blocked (R33). -/
theorem retire_of_unfinished {s : State} (h : s.active = false ∨ s.todo ≠ [] ∨ s.waiting ≠ none) : retire s = s := by
  rcases h with ha | ht | hw
  · simp [retire, ha]
  · exact retire_of_todo ht
  · simp [retire, hw]

/-- Settles O57: each turn by its agent, and the end of a statement by whether it is done. -/
theorem stepRunsDecodedInstruction : Obligations.StepRunsDecodedInstruction := by
  unfold Obligations.StepRunsDecodedInstruction
  refine ⟨?statement, ?piece, ?engine, ?trigger, ?done, ?unfinished⟩
  case statement =>
    intro s st i hturn hh hw ht hp hd
    exact (step_of_nextAgent hturn).trans (requesterStep_statement (requesterFree_takeTurn ⟨hh, hw⟩) ht hp hd)
  case piece =>
    intro s i rest hturn hh hw ht
    exact (step_of_nextAgent hturn).trans (requesterStep_micro (requesterFree_takeTurn ⟨hh, hw⟩) ht)
  case engine => exact fun s hturn => step_of_nextAgent hturn
  case trigger => exact fun s t hturn => step_of_nextAgent hturn
  case done => exact fun s => retire_of_done
  case unfinished => exact fun s => retire_of_unfinished

end Sys2Proof.Machine

namespace Sys2Proof

/-! ### The byte-address front end (spec/20_memory.md R54; 30_encoding.md R83) -/

/-- An access at a register's address touches that register, whatever its size. -/
theorem touches_base (base : Word) (size : Nat) : touches base base size = true := by
  simp [touches, inRange]

/-- The front end's test whether an access touches any register at all (R54). -/
theorem any_touches {p : Params} {a : Word} {size : Nat} :
    (allRegisters.any fun nr => touches (p.regAddr nr.1 nr.2) a size) = true ↔
      ∃ n r, touches (p.regAddr n r) a size = true := by
  simp [List.any_eq_true, mem_allRegisters]

/-- An access that is not 4 bytes at a register's address is no register transaction (R83). -/
theorem decodeBus_noRegister {p : Params} {acc : BusAccess}
    (h : ¬ (acc.size = 4 ∧ ∃ n r, p.regAddr n r = acc.addr)) :
    decodeBus p acc = if allRegisters.any fun nr => touches (p.regAddr nr.1 nr.2) acc.addr acc.size
      then .error (.refusedAccess acc.addr acc.size) else .error (.notTheBlocks acc.addr) := by
  have hnone : allRegisters.find? (fun nr =>
      decide (p.regAddr nr.1 nr.2 = acc.addr) && decide (acc.size = 4)) = none := by
    rw [List.find?_eq_none]
    rintro ⟨n, r⟩ - hnr
    obtain ⟨ha, hs⟩ : p.regAddr n r = acc.addr ∧ acc.size = 4 := by simpa using hnr
    exact h ⟨hs, n, r, ha⟩
  simp only [decodeBus, hnone]

end Sys2Proof

namespace Sys2Proof.Machine

/-- Settles O6: an exact word finds its register; any other access is told by whether it touches one. -/
theorem busFrontEnd : Obligations.BusFrontEnd := by
  unfold Obligations.BusFrontEnd
  intro p hp
  refine ⟨fun n r => ⟨decodeBus_register hp n r none, fun d => decodeBus_register hp n r (some d)⟩,
    ?refused, ?foreign⟩
  case refused =>
    intro acc htouch hexact
    rw [decodeBus_noRegister hexact, if_pos (any_touches.2 htouch)]
  case foreign =>
    intro acc hfree
    have hexact : ¬ (acc.size = 4 ∧ ∃ n r, p.regAddr n r = acc.addr) := by
      rintro ⟨-, n, r, ha⟩
      simpa [← ha, touches_base] using hfree n r
    have hnone : ¬ ∃ n r, touches (p.regAddr n r) acc.addr acc.size = true := by simpa using hfree
    rw [decodeBus_noRegister hexact, if_neg (mt any_touches.1 hnone)]

/-! ### Halves of a register and of a value (spec/20_memory.md R53, R63) -/

/-- The whole word of a FILL register. -/
@[simp] theorem fillBytes_word (f : Word) : fillBytes f 0 .word = f := by simp [fillBytes]

/-- The low halfword of a FILL register. -/
@[simp] theorem fillBytes_low (f : Word) : fillBytes f 0 .half = (f.extractLsb' 0 16).zeroExtend 32 := by
  simp [fillBytes]

/-- The high halfword of a FILL register stands two above its base. -/
@[simp] theorem fillBytes_high (f : Word) : fillBytes f 2 .half = (f.extractLsb' 16 16).zeroExtend 32 := by
  have h : (f >>> 16).extractLsb' 0 16 = f.extractLsb' 16 16 := by
    apply BitVec.eq_of_getLsbD_eq
    intro i hi
    simp [hi]
  simp [fillBytes, h]

/-- The low halfword of a word is made of its two low bytes. -/
theorem wordOfBytes_half (v : Word) :
    wordOfBytes (byteOf v 0) (byteOf v 1) 0 0 = (v.extractLsb' 0 16).zeroExtend 32 := by
  apply BitVec.eq_of_getLsbD_eq
  intro i hi
  simp only [byteOf, getLsbD_wordOfBytes, BitVec.getLsbD_extractLsb', BitVec.getLsbD_setWidth]
  split_ifs with h8 h16 h24
  · simp [h8, hi, show i < 16 by omega]
  · simp [h16, hi, show i - 8 < 8 by omega, show 8 + (i - 8) = i by omega]
  all_goals simp [h16]

/-- Two above a register's base is still in its 4-byte range: the base is a multiple of 4, so the sum does not wrap
(R12, R60). -/
theorem toNat_regAddr_add_two {p : Params} (h : p.wf = true) (n : ChanId) (r : Reg) :
    (p.regAddr n r + 2).toNat = (p.regAddr n r).toNat + 2 := by
  have ha := wf_aligned h n r
  have hlt := (p.regAddr n r).isLt
  rw [BitVec.toNat_add, show (2 : Word).toNat = 2 from rfl]
  omega

/-- Settles O27: both addresses lie in the range of FILL[m], at offsets 0 and 2 of it. -/
theorem fillRouteReadsCell : Obligations.FillRouteReadsCell := by
  unfold Obligations.FillRouteReadsCell
  intro p m hp
  have htwo := toNat_regAddr_add_two hp m .fill
  have hoff : (p.regAddr m .fill + 2).toNat - (p.regAddr m .fill).toNat = 2 := by omega
  dsimp only
  refine ⟨route_fill hp (Nat.le_refl _) (by omega), route_fill hp (by omega) (by omega), fun f => ?_⟩
  rw [hoff, Nat.sub_self]
  exact ⟨fillBytes_low f, fillBytes_word f, fillBytes_high f⟩

/-! ### Little-endian accesses (spec/20_memory.md R53) -/

/-- A read of what has just been written returns the part of the value that the width holds: `fillWord` is that part. -/
theorem memRead_memWrite (m : Memory) (a : Word) (w : Width) (v : Word) :
    memRead (memWrite m a w v) a w = fillWord v w := by
  cases w with
  | half =>
    have hb : ∀ k, k < 2 → byteAt (memWrite m a .half v) (byteAddr a k) = byteOf v k :=
      fun k hk => byteAt_memWrite_same hk
    simp only [memRead, hb, Nat.zero_lt_two, Nat.one_lt_two, wordOfBytes_half, fillWord]
  | word =>
    have hb : ∀ k, k < 4 → byteAt (memWrite m a .word v) (byteAddr a k) = byteOf v k :=
      fun k hk => byteAt_memWrite_same hk
    simp [memRead, hb, fillWord]

/-- Settles O34: the byte rules of a read and of a write, and the halves of a register. -/
theorem littleEndianAccesses : Obligations.LittleEndianAccesses := by
  unfold Obligations.LittleEndianAccesses
  refine ⟨fun m a w v => ⟨?written, ?others, ?read, ?readBack⟩,
    fun f => ⟨fillBytes_low f, fillBytes_high f⟩⟩
  case written => exact fun k hk => byteAt_memWrite_same hk
  case others => exact fun b hb => byteAt_memWrite_other hb
  case read => exact fun k hk => byteOf_memRead hk
  case readBack => cases w <;> exact memRead_memWrite m a _ v

/-! ### A unit from memory to memory (spec/20_memory.md R57, R66) -/

section unit
variable {s : State} {n : ChanId} {m : SrcMode}

/-- An access that `MEM_ADMIT` admits is one the engine may make (R61, R140). -/
theorem admitted_of_memAdmits {a : Word} {w : Width} (h : memAdmits s.params a w = true) : s.admitted a w = true := by
  simp [State.admitted, h]

/-- The read of a unit whose source is memory leaves the unit pending with the value read (R133). -/
theorem engineStep_readMemory (hu : s.unitCh = none) (hs : s.selected = some n)
    (hr : route s.params (s.chan n).curSrc = .memory)
    (ha : memAdmits s.params (s.chan n).curSrc (s.chan n).width = true) :
    engineStep s = { s with
      unitCh := some n
      unitData := memRead s.mem (s.chan n).curSrc (s.chan n).width
      events := s.events ++ [.masterRead (s.chan n).curSrc (s.chan n).width
        (memRead s.mem (s.chan n).curSrc (s.chan n).width)] } := by
  rw [engineStep_read hu hs, if_pos (admitted_of_memAdmits ha)]
  simp only [unitRead, State.masterRead, hr]
  rfl

/-- The write of a unit whose destination is memory writes the pending value there, whether or not it ends the block
(R134). -/
theorem mem_engineStep_writeMemory (hu : s.unitCh = some n) (hm : cntSrcMode (s.chan n).cnt = some m)
    (hr : route s.params (s.chan n).curDst = .memory)
    (ha : memAdmits s.params (s.chan n).curDst (s.chan n).width = true) :
    (engineStep s).mem = memWrite s.mem (s.chan n).curDst (s.chan n).width s.unitData := by
  rw [engineStep_write hu hm, if_pos (admitted_of_memAdmits ha), unitWrite_memory hr]
  exact (sameUnit_afterUnit n _).mem

/-- A value read from memory and written elsewhere carries each byte of the access with it. -/
theorem byteAt_memWrite_memRead {mem : Memory} {src dst : Word} {w : Width} {k : Nat} (hk : k < widthBytes w) :
    byteAt (memWrite mem dst w (memRead mem src w)) (byteAddr dst k) = byteAt mem (byteAddr src k) :=
  (byteAt_memWrite_same hk).trans (byteOf_memRead hk)

end unit

/-- Settles O30: memory after the two steps is the value of the source unit written at the destination. -/
theorem unitMovesItsBytes : Obligations.UnitMovesItsBytes := by
  unfold Obligations.UnitMovesItsBytes
  intro s n hu hs hmode c hsrc hsrcOk hdst hdstOk t
  obtain ⟨m, hm⟩ := Option.ne_none_iff_exists'.1 hmode
  have hmem : t.mem = memWrite s.mem c.curDst c.width (memRead s.mem c.curSrc c.width) := by
    show (engineStep (engineStep s)).mem = _
    rw [engineStep_readMemory hu hs hsrc hsrcOk]
    exact mem_engineStep_writeMemory rfl hm hdst hdstOk
  rw [hmem]
  exact ⟨fun k hk => byteAt_memWrite_memRead hk, fun b hb => byteAt_memWrite_other hb⟩

/-! ### Address stepping (spec/20_memory.md R58, R67) -/

/-- Settles O39: a step of one width up or down keeps a multiple of the width, and so does the mask. -/
theorem steppingKeepsAlignment : Obligations.SteppingKeepsAlignment := by
  unfold Obligations.SteppingKeepsAlignment
  intro p w a h
  refine ⟨fun m => misaligned_and ?source, fun m => misaligned_and ?destination⟩
  case source =>
    cases m with
    | increment => exact misaligned_stepUp h
    | decrement => exact misaligned_stepDown h
    | fixed => exact h
  case destination =>
    cases m with
    | increment | incrementReload => exact misaligned_stepUp h
    | decrement => exact misaligned_stepDown h
    | fixed => exact h

end Sys2Proof.Machine

namespace Sys2Proof

/-! ### Statements and their instructions (spec/30_encoding.md R90, R94, R95, R97-R101) -/

@[simp] theorem codeOf_readInstr (n : ChanId) (r : Reg) : codeOf (readInstr n r) = some (regOp false n r, none) := by
  cases r <;> rfl

@[simp] theorem codeOf_writeInstr (n : ChanId) (r : Reg) (d : Word) :
    codeOf (writeInstr n r d) = some (regOp true n r, some d) := by
  cases r <;> rfl

@[simp] theorem codeOf_instr (t : Trigger) : codeOf t.instr = some (trigOp t, none) := by cases t <;> rfl

theorem encode_of_codeOf {i : Instr} {op : BitVec 6} {operand : Option Word} (h : codeOf i = some (op, operand))
    (x : Option LocalName) : encode i x = .code (codeBytes op operand) x := by
  rw [encode, h]

theorem encode_of_noCode {i : Instr} (h : codeOf i = none) (x : Option LocalName) : encode i x = .call i x := by
  rw [encode, h]

@[simp] theorem name_encode (i : Instr) (x : Option LocalName) : (encode i x).name = x := by
  cases h : codeOf i with
  | none => rw [encode_of_noCode h]; rfl
  | some c => rw [encode_of_codeOf h]; rfl

/-- Bytes spell an instruction exactly when they are one whole transaction (R94). -/
theorem spelt_code {p : Params} {bs : List Byte} {x : Option LocalName} {i : Instr} :
    spelt p (.code bs x) = .ok i ↔ decodeBytes bs = .ok (i, []) := by
  unfold spelt
  cases h : decodeBytes bs with
  | error e => simp [h]
  | ok r => obtain ⟨j, _ | _⟩ := r <;> simp [h]

@[simp] theorem spelt_encode (p : Params) (i : Instr) (x : Option LocalName) : spelt p (encode i x) = .ok i := by
  cases h : codeOf i with
  | none => rw [encode_of_noCode h]; rfl
  | some c => rw [encode_of_codeOf h, spelt_code, decodeBytes_codeOf i c.1 c.2 h]

/-- A statement decodes to the instruction it spells, if it binds no name or the instruction returns a value (R95). -/
theorem decodeStatement_ok {p : Params} {st : Statement} {i : Instr} :
    decodeStatement p st = .ok i ↔ spelt p st = .ok i ∧ (st.name = none ∨ returnsValue i = true) := by
  unfold decodeStatement
  cases hs : spelt p st with
  | error e => simp
  | ok j =>
    cases hx : st.name with
    | none => simp
    | some y =>
      by_cases hj : returnsValue j = true
      · simpa [hj] using fun h : j = i => h ▸ hj
      · simpa [hj] using fun h : j = i => by simpa [h] using hj

theorem decodeStatement_nothingToBind {p : Params} {st : Statement} {i : Instr} {y : LocalName}
    (hs : spelt p st = .ok i) (hx : st.name = some y) (hi : returnsValue i = false) :
    decodeStatement p st = .error (.nothingToBind y) := by
  simp [decodeStatement, hs, hx, hi]

theorem decodeStatement_of_speltError {p : Params} {st : Statement} {e : DecodeError} (hs : spelt p st = .error e) :
    decodeStatement p st = .error e := by
  simp [decodeStatement, hs]

theorem decodeStatement_encode (p : Params) {i : Instr} {x : Option LocalName}
    (h : x = none ∨ returnsValue i = true) : decodeStatement p (encode i x) = .ok i := by
  simpa [decodeStatement_ok] using h

/-- What the class of an opcode says of it. -/
theorem says_of_classify {op : BitVec 6} {c : OpClass} (h : classify op = c) : c.says op = true := h ▸ classify_says op

/-- The bytes of a transaction are the code of the instruction they decode to, followed by the rest (R91, R94). -/
theorem decodeBytes_ok {bs rest : List Byte} {i : Instr} (h : decodeBytes bs = .ok (i, rest)) :
    ∃ op operand, codeOf i = some (op, operand) ∧ bs = codeBytes op operand ++ rest := by
  cases bs with
  | nil => cases h
  | cons b tail =>
    have hb : b.extractLsb' 6 2 = 0#2 := by
      by_contra hb
      simp [decodeBytes, hb] at h
    obtain ⟨op, rfl⟩ : ∃ op : BitVec 6, op.zeroExtend 8 = b := ⟨_, byte_of_op b hb⟩
    cases hc : classify op with
    | read n r =>
      obtain rfl : op = regOp false n r := of_decide_eq_true (says_of_classify hc)
      obtain ⟨rfl, rfl⟩ : readInstr n r = i ∧ tail = rest := by simpa [decodeBytes, opByte] using h
      exact ⟨_, _, codeOf_readInstr n r, rfl⟩
    | write n r =>
      obtain rfl : op = regOp true n r := of_decide_eq_true (says_of_classify hc)
      rcases tail with _ | ⟨b0, _ | ⟨b1, _ | ⟨b2, _ | ⟨b3, tail⟩⟩⟩⟩
      case cons.cons.cons.cons =>
        obtain ⟨rfl, rfl⟩ : writeInstr n r (wordOfBytes b0 b1 b2 b3) = i ∧ tail = rest := by
          simpa [decodeBytes, opByte] using h
        exact ⟨_, _, codeOf_writeInstr n r _, by simp [codeBytes]⟩
      all_goals simp [decodeBytes, opByte] at h
    | trig t =>
      obtain rfl : op = trigOp t := of_decide_eq_true (says_of_classify hc)
      obtain ⟨rfl, rfl⟩ : t.instr = i ∧ tail = rest := by simpa [decodeBytes, opByte] using h
      exact ⟨_, _, codeOf_instr t, rfl⟩
    | tick =>
      obtain rfl : op = tickOp := of_decide_eq_true (says_of_classify hc)
      obtain ⟨rfl, rfl⟩ : Instr.tick = i ∧ tail = rest := by simpa [decodeBytes, opByte] using h
      exact ⟨_, _, rfl, rfl⟩
    | reserved => simp [decodeBytes, opByte, hc] at h

/-! ### Reserved codes (spec/30_encoding.md R92) -/

theorem classify_reserved {op : BitVec 6} : classify op = .reserved ↔ op = 0x20 ∨ 0x29 ≤ op := by revert op; decide

theorem decodeBytes_reserved {op : BitVec 6} (h : classify op = .reserved) (rest : List Byte) :
    decodeBytes (op.zeroExtend 8 :: rest) = .error (.reserved op) := by
  simp [decodeBytes, opByte, h]

/-- Every opcode that is not reserved is that of an instruction (R90, R92). -/
theorem exists_codeOf {op : BitVec 6} (h : classify op ≠ .reserved) : ∃ i operand, codeOf i = some (op, operand) := by
  cases hc : classify op with
  | read n r =>
    obtain rfl : op = regOp false n r := of_decide_eq_true (says_of_classify hc)
    exact ⟨_, _, codeOf_readInstr n r⟩
  | write n r =>
    obtain rfl : op = regOp true n r := of_decide_eq_true (says_of_classify hc)
    exact ⟨_, _, codeOf_writeInstr n r 0⟩
  | trig t =>
    obtain rfl : op = trigOp t := of_decide_eq_true (says_of_classify hc)
    exact ⟨_, _, codeOf_instr t⟩
  | tick =>
    obtain rfl : op = tickOp := of_decide_eq_true (says_of_classify hc)
    exact ⟨.tick, _, rfl⟩
  | reserved => exact absurd hc h

theorem decodeControl_eq_none {v : Word} : decodeControl v = none ↔ v.extractLsb' 23 2 = 3 := by
  rw [decodeControl, Option.map_eq_none_iff, cntSrcMode, SrcMode.ofCode_eq_none]

/-! ### The control word (spec/30_encoding.md R85, R87, R88) -/

theorem decodeControl_encodeControl (w : ControlWord) : decodeControl (encodeControl w) = some w := by
  obtain ⟨hcount, hdst, hsrc, hrep, hwidth, htiming, hirq, hen⟩ := fields_encodeControl w
  simp [decodeControl, *]

theorem Width.code_cntWidth (v : Word) : (cntWidth v).code = BitVec.ofBool (v.getLsbD 26) := by
  unfold cntWidth
  cases v.getLsbD 26 <;> rfl

/-- A control word that is not reserved is composed of the fields read from it (R88). -/
theorem encodeControl_of_decodeControl {v : Word} {w : ControlWord} (h : decodeControl v = some w) :
    encodeControl w = v := by
  obtain ⟨m, hm, rfl⟩ := Option.map_eq_some_iff.1 h
  apply BitVec.eq_of_getLsbD_eq
  intro i hi
  rw [bit_encodeControl _ i hi]
  simp only [cntCount, cntDstMode, cntRepeat, cntTiming, cntIrq, cntEnable, DstMode.code_ofCode, Timing.code_ofCode,
    SrcMode.code_ofCode hm, Width.code_cntWidth, BitVec.getLsbD_extractLsb']
  interval_cases i <;> simp

end Sys2Proof

namespace Sys2Proof.Machine

/-- Settles O2: a statement of the encoder spells its instruction and has its name, and a name stands only before an
instruction that returns a value. -/
theorem decodeEncodeRoundTrip : Obligations.DecodeEncodeRoundTrip := by
  unfold Obligations.DecodeEncodeRoundTrip
  intro p i x
  refine ⟨name_encode i x, decodeStatement_encode p, fun y hx hi => ?_⟩
  exact decodeStatement_nothingToBind (spelt_encode p i x) ((name_encode i x).trans hx) hi

/-- Settles O3: bytes that decode with nothing left are the code of what they decode to. -/
theorem encodeDecodeRoundTrip : Obligations.EncodeDecodeRoundTrip := by
  unfold Obligations.EncodeDecodeRoundTrip
  intro p bs x i h
  obtain ⟨hspelt, -⟩ := decodeStatement_ok.1 h
  obtain ⟨op, operand, hcode, rfl⟩ := decodeBytes_ok (spelt_code.1 hspelt)
  rw [encode_of_codeOf hcode, List.append_nil]

/-- Settles O4: by the class of the opcode, and by the code of the source mode. -/
theorem reservedCodes : Obligations.ReservedCodes := by
  unfold Obligations.ReservedCodes
  refine ⟨?reserved, ?meaningful, fun _ => decodeControl_eq_none⟩
  case reserved =>
    intro p op rest x h
    exact decodeStatement_of_speltError (by rw [spelt, decodeBytes_reserved (classify_reserved.2 h)])
  case meaningful =>
    intro p op h
    obtain ⟨i, operand, hcode⟩ := exists_codeOf (mt classify_reserved.1 h)
    exact ⟨operand, i, encode_of_codeOf hcode none ▸ decodeStatement_encode p (.inl rfl)⟩

/-- Settles O5: field by field in one direction, bit by bit in the other. -/
theorem controlWordRoundTrip : Obligations.ControlWordRoundTrip := by
  unfold Obligations.ControlWordRoundTrip
  refine ⟨decodeControl_encodeControl, fun v hv => ?_⟩
  obtain ⟨w, hw⟩ := Option.ne_none_iff_exists'.1 (mt decodeControl_eq_none.1 hv)
  rw [hw, Option.map_some, encodeControl_of_decodeControl hw]

/-- Settles O1: each word is the code of its instruction. -/
theorem transactionWordsDecode : Obligations.TransactionWordsDecode := by
  unfold Obligations.TransactionWordsDecode
  intro p x
  have read (i : Instr) (h : returnsValue i = true) : decodeStatement p (encode i x) = .ok i :=
    decodeStatement_encode p (.inr h)
  have nameless (i : Instr) : decodeStatement p (encode i none) = .ok i := decodeStatement_encode p (.inl rfl)
  exact ⟨read (.rdSad 0) rfl, read (.rdDad 2) rfl, read (.rdCnt 3) rfl, read (.rdFill 1) rfl,
    nameless (.wrSad 3 0x02000000), nameless (.wrCnt 1 0x80000001), nameless (.wrCnt 3 0xC100000A),
    nameless (.wrFill 0 0xDEADBEEF), nameless .trigVblank, nameless .trigGxfifo, nameless .tick⟩

end Sys2Proof.Machine

namespace Sys2Proof.Machine

/-! ### Names in a step (spec/30_encoding.md R95, R98, R99) -/

@[simp] theorem names_retire (s : State) : (retire s).names = s.names := (sameOutside_retire s).names

@[simp] theorem value_retire (s : State) (y : LocalName) : (retire s).value y = s.value y := by
  rw [State.value, names_retire, State.value]

theorem value_exec {i : Instr} {s t : State} (h : exec i s = .next t) (y : LocalName) : t.value y = s.value y := by
  rw [State.value, names_exec h, State.value]

theorem names_pollCheck (n : ChanId) (s : State) : (pollCheck n s).names = s.names := by
  unfold pollCheck
  split <;> rfl

theorem names_irqCheck (n : ChanId) (s : State) : (irqCheck n s).names = s.names := by
  unfold irqCheck
  split
  · rfl
  · split
    · rfl
    · split <;> rfl

theorem names_wake (w : Wait) (s : State) : (wake w s).names = s.names := by
  unfold wake
  split
  · rfl
  · split
    · rw [names_retire]
    · rfl

/-- A piece of an expansion binds no name (R33). -/
theorem names_runMicro {m : Micro} {s t : State} (h : runMicro m s = .next t) : t.names = s.names := by
  cases m with
  | run i => exact names_exec h
  | pollCheck n => cases h; exact names_pollCheck n s
  | irqCheck n => cases h; exact names_irqCheck n s

/-- A fetch leaves the names alone, or runs the statement at `rpc` and binds its result (R95). -/
theorem names_fetch {s u : State} (h : fetch s = .next u) :
    u.names = s.names ∨ ∃ st i t, s.program[s.rpc]? = some st ∧ decodeStatement s.params st = .ok i ∧
      exec i s.begin = .next t ∧ u = retire (t.bindName st.name i) := by
  unfold fetch at h
  split at h
  · cases h; exact .inl rfl
  · split at h
    · obtain ⟨t, ht, rfl⟩ := thenDo_next h
      exact .inr ⟨_, _, t, ‹_›, ‹_›, ht, rfl⟩
    · cases h
    · cases h; exact .inl rfl

/-- A turn of the requester leaves the names alone, or is the fetch of a statement. -/
theorem names_requesterStep {s u : State} (h : requesterStep s = .next u) :
    u.names = s.names ∨ s.todo = [] ∧ fetch s = .next u := by
  unfold requesterStep at h
  split at h
  · cases h; exact .inl rfl
  · split at h
    · cases h; exact .inl (names_wake _ s)
    · split at h
      · exact .inr ⟨‹_›, h⟩
      · rename_i m rest htodo
        obtain ⟨t, ht, rfl⟩ := thenDo_next h
        exact .inl ((names_retire t).trans (names_runMicro (s := { s with todo := rest }) ht))

/-- A step leaves the names alone, or the requester has fetched a statement. -/
theorem names_step {s u : State} (h : step s = .next u) :
    u.names = s.names ∨ s.nextAgent = .requester ∧ s.todo = [] ∧ fetch s.takeTurn = .next u := by
  cases ha : s.nextAgent with
  | requester =>
    rw [step_of_nextAgent ha] at h
    exact (names_requesterStep h).imp_right fun hf => ⟨rfl, hf⟩
  | engine =>
    rw [step_of_nextAgent ha] at h
    cases h
    obtain ⟨n, ho⟩ := onlyChannel_engineStep s.takeTurn
    exact .inl ho.names
  | environment t =>
    rw [step_of_nextAgent ha] at h
    obtain ⟨v, hv, rfl⟩ := thenDo_next h
    exact .inl ((names_retire v).trans (names_exec (s := s.takeTurn) hv))

/-- What a name holds after a statement has run: the result, if the statement binds it and there is one. -/
theorem value_afterStatement {s t : State} {i : Instr} (he : exec i s.takeTurn.begin = .next t)
    (x : Option LocalName) (y : LocalName) : (retire (t.bindName x i)).value y =
      if x = some y then (t.resultOf i).or (s.value y) else s.value y := by
  have ht : t.value y = s.value y := value_exec he y
  rw [value_retire, value_bindName, ht]

/-- The step of a statement binds the result to the statement's name, and no other name (R33, R95). -/
theorem step_binds {s t : State} {st : Statement} {i : Instr} (hturn : s.nextAgent = .requester)
    (hfree : s.requesterFree) (ht : s.todo = []) (hp : s.program[s.rpc]? = some st)
    (hd : decodeStatement s.params st = .ok i) (he : exec i s.takeTurn.begin = .next t) :
    ∃ u, step s = .next u ∧ (∀ y v, st.name = some y → t.resultOf i = some v → u.value y = some v) ∧
      (∀ y, st.name ≠ some y ∨ t.resultOf i = none → u.value y = s.value y) := by
  have hstep := (step_of_nextAgent hturn).trans (requesterStep_statement (requesterFree_takeTurn hfree) ht hp hd)
  rw [he] at hstep
  refine ⟨_, hstep, fun y v hy hv => ?_, fun y hy => ?_⟩
  · simp [value_afterStatement he, hy, hv]
  · rw [value_afterStatement he]
    rcases hy with hy | hv
    · rw [if_neg hy]
    · rw [hv, Option.none_or, ite_self]

theorem resultOf_readInstr (t : State) (n : ChanId) (r : Reg) : t.resultOf (readInstr n r) = t.lastRead.map .word := by
  cases r <;> rfl

theorem resultOf_isBusy (t : State) (n : ChanId) : t.resultOf (.isBusy n) = t.lastBusy.map .bit := rfl

/-- Only the register reads and `IS_BUSY` return a value (R82, R95, R98). -/
theorem read_or_isBusy_of_resultOf {t : State} {i : Instr} (h : t.resultOf i ≠ none) :
    (∃ n r, i = readInstr n r) ∨ ∃ n, i = .isBusy n := by
  cases i
  case rdSad n => exact .inl ⟨n, .sad, rfl⟩
  case rdDad n => exact .inl ⟨n, .dad, rfl⟩
  case rdCnt n => exact .inl ⟨n, .cnt, rfl⟩
  case rdFill n => exact .inl ⟨n, .fill, rfl⟩
  case isBusy n => exact .inr ⟨n, rfl⟩
  all_goals exact absurd rfl h

theorem exec_readInstr_next (n : ChanId) (r : Reg) (s : State) : ∃ t, exec (readInstr n r) s = .next t := by
  cases r <;> exact ⟨_, rfl⟩

/-- Settles O58: what a statement binds by its result, and that nothing else binds by the turn each agent takes. -/
theorem resultsAreBoundToNames : Obligations.ResultsAreBoundToNames := by
  unfold Obligations.ResultsAreBoundToNames
  refine ⟨fun s st i hturn hh hw ht hp hd => ⟨?read, ?busy⟩, ?nothingElse⟩
  case read =>
    rintro n r rfl
    obtain ⟨t, he⟩ := exec_readInstr_next n r s.takeTurn.begin
    obtain ⟨u, hu, hbound, hframe⟩ := step_binds hturn ⟨hh, hw⟩ ht hp hd he
    simp only [resultOf_readInstr, Option.map_eq_none_iff] at hbound hframe
    exact ⟨t, u, he, hu, fun y w hy hv => hbound y _ hy (congrArg _ hv), hframe⟩
  case busy =>
    rintro n rfl
    obtain ⟨u, hu, hbound, hframe⟩ := step_binds hturn ⟨hh, hw⟩ ht hp hd rfl
    simp only [resultOf_isBusy, Option.map_eq_none_iff] at hbound hframe
    exact ⟨_, u, rfl, hu, fun y b hy hv => hbound y _ hy (congrArg _ hv), hframe⟩
  case nothingElse =>
    intro s u y hstep hchanged
    have hnames : u.names ≠ s.names := fun h => hchanged (by rw [State.value, h, State.value])
    obtain ⟨hturn, ht, hf⟩ := (names_step hstep).resolve_left hnames
    obtain ⟨st, i, t, hp, hd, he, rfl⟩ := (names_fetch hf).resolve_left hnames
    rw [value_afterStatement he] at hchanged
    have hy : st.name = some y := by
      by_contra hy
      exact hchanged (if_neg hy)
    have hresult : t.resultOf i ≠ none := fun h => hchanged (by simp [h])
    exact ⟨hturn, ht, st, i, hp, hy, hd, read_or_isBusy_of_resultOf hresult⟩

/-! ### Statements that decode to nothing (spec/30_encoding.md R93; 10_state.md R40) -/

/-- A fetched statement that decodes to no instruction is refused, unless it is an access that is not the block's. -/
theorem fetch_refused {s : State} {st : Statement} {e : DecodeError} (hp : s.program[s.rpc]? = some st)
    (hd : decodeStatement s.params st = .error e) (he : ∀ a, e ≠ .notTheBlocks a) :
    fetch s = .next s.refuseStatement := by
  cases e with
  | notTheBlocks a => exact absurd rfl (he a)
  | _ => simp [fetch, hp, hd]

/-- A free requester with nothing left of an expansion fetches the next statement (R33, R99). -/
theorem requesterStep_fetch {s : State} (h : s.requesterFree) (ht : s.todo = []) : requesterStep s = fetch s := by
  obtain ⟨hh, hw⟩ := h
  simp [requesterStep, hh, hw, ht]

/-- Settles O59: the requester's turn is the fetch of the statement, which is refused. -/
theorem reservedStatementRefused : Obligations.ReservedStatementRefused := by
  unfold Obligations.ReservedStatementRefused
  rintro s st hturn hh hw ht hp ⟨e, hd, he⟩
  calc step s = requesterStep s.takeTurn := step_of_nextAgent hturn
    _ = fetch s.takeTurn := requesterStep_fetch (requesterFree_takeTurn ⟨hh, hw⟩) ht
    _ = .next s.takeTurn.refuseStatement := fetch_refused hp hd he

end Sys2Proof.Machine

namespace Sys2Proof.Machine

/-! ### Register reads (spec/40_register_access.md R105-R108, R114, R117) -/

/-- The entry of a transaction that raised `fs` (R117). -/
theorem logTransaction_of_faults {s t : State} {fs : List FaultRecord} (h : t.faults = s.faults ++ fs) (op : BitVec 6)
    (x y : Option Word) : t.logTransaction op x y s = t.log (.transaction op x y fs) := by
  rw [logTransaction_eq, h, List.drop_left]

/-- A read outside a settle period is its body, with the value and the faults of the body recorded. -/
theorem registerRead_of_body {n : ChanId} {r : Reg} {body : State → State × Option Word} {s t : State}
    {y : Option Word} {fs : List FaultRecord} (h : s.settleHit n = false) (hb : body s = (t, y))
    (hf : t.faults = s.faults ++ fs) :
    registerRead n r body s = { t.log (.transaction (regOp false n r) none y fs) with lastRead := y } := by
  rw [registerRead_ok h, hb, logTransaction_of_faults hf]

/-- What a read of CNT does outside a settle period (R107). -/
theorem exec_rdCnt_of_settled {s : State} {n : ChanId} (h : s.settleHit n = false) :
    exec (.rdCnt n) s = .next { s with
      draws := s.draws + 1
      lastRead := some (cntReadback (s.chan n) (Config.freeWord s.draws))
      events := s.events ++ [.transaction (regOp false n .cnt) none
        (some (cntReadback (s.chan n) (Config.freeWord s.draws))) []] } :=
  congrArg Host.Outcome.next (registerRead_of_body (body := readCnt n) (t := s.drawn) h rfl (List.append_nil _).symm)

/-- Settles O7: both reads have the same body, a draw. -/
theorem addressReadsAreDrawn : Obligations.AddressReadsAreDrawn := by
  unfold Obligations.AddressReadsAreDrawn
  intro s n h
  have draw (r : Reg) := registerRead_of_body (r := r) (body := readDraw) h rfl (List.append_nil _).symm
  exact ⟨congrArg Host.Outcome.next (draw .sad), congrArg Host.Outcome.next (draw .dad)⟩

/-- Settles O8: the word returned is the readback of CNT[n] over a drawn word. -/
theorem cntReadShowsBusy : Obligations.CntReadShowsBusy := by
  unfold Obligations.CntReadShowsBusy
  intro s n h
  obtain ⟨busy, live, drawn⟩ := cntReadback_bits (s.chan n) (Config.freeWord s.draws)
  exact ⟨_, exec_rdCnt_of_settled h, busy, fun i hi _ => live i hi, drawn⟩

/-- Settles O9: the second read finds the channel of the first, and shows its live bits over another drawn word. -/
theorem statusReadIdempotent : Obligations.StatusReadIdempotent := by
  unfold Obligations.StatusReadIdempotent
  intro s n h
  have live (draw : Word) := (cntReadback_bits (s.chan n) draw).2.1
  exact ⟨_, _, _, _, exec_rdCnt_of_settled h, exec_rdCnt_of_settled h, rfl, rfl,
    fun i hi => (live _ i hi).trans (live _ i hi).symm, rfl, rfl, rfl, rfl, rfl, rfl, rfl, rfl⟩

/-- Settles O10: by whether FILL[n] has been written. -/
theorem fillReadReturnsStored : Obligations.FillReadReturnsStored := by
  unfold Obligations.FillReadReturnsStored
  refine fun s n h => ⟨fun hw => congrArg Host.Outcome.next ?written, fun hw => congrArg Host.Outcome.next ?unwritten⟩
  case written =>
    have hb : readFill n s = (s, some (s.chan n).fill) := by simp [readFill, hw]
    exact registerRead_of_body h hb (List.append_nil _).symm
  case unwritten =>
    have hb : readFill n s = (s.raise (.unwrittenRegister n .fill), none) := by simp [readFill, hw]
    exact registerRead_of_body h hb (raise_faults s _)

/-! ### Register writes that store (spec/40_register_access.md R109-R111) -/

/-- Settles O11: each of the three bodies is the busy check followed by a store into the channel. -/
theorem registerWritesStore : Obligations.RegisterWritesStore := by
  unfold Obligations.RegisterWritesStore
  intro s n d h
  exact ⟨⟨_, congrArg Host.Outcome.next (registerWrite_ok h), noteBusy_store s n .sad _ _ _ _ _⟩,
    ⟨_, congrArg Host.Outcome.next (registerWrite_ok h), noteBusy_store s n .dad _ _ _ _ _⟩,
    ⟨_, congrArg Host.Outcome.next (registerWrite_ok h), noteBusy_store s n .fill _ _ _ _ _⟩⟩

section writeCnt
variable {s : State} {n : ChanId} {d : Word}

/-- A write of CNT outside a settle period is its body, recorded. -/
theorem exec_wrCnt_of_settled (h : s.settleHit n = false) :
    exec (.wrCnt n d) s = .next ((writeCnt n d s).logTransaction (regOp true n .cnt) (some d) none s) :=
  congrArg Host.Outcome.next (registerWrite_ok h)

theorem onlyChannel_writeCnt_logged (s : State) (n : ChanId) (d : Word) (op : BitVec 6) (x y : Option Word)
    (b : State) : OnlyChannel n s ((writeCnt n d s).logTransaction op x y b) :=
  (onlyChannel_writeCnt n s d).trans (onlyChannel_log n _ _)

/-- A write of CNT on an Idle channel with bit 31 = 0 stores the configuration (R110). -/
theorem writeCnt_configure (he : (s.chan n).enabled = false) (hd : cntEnable d = false) :
    writeCnt n d s = s.modChan n fun c => c.storeCnt d := by
  simp [writeCnt, State.armed, he, writeCntIdle, hd]

/-- A write of CNT on an Armed channel with bit 31 = 1 overwrites the transfer (R110). -/
theorem writeCnt_rearm (he : (s.chan n).enabled = true) (hd : cntEnable d = true) : writeCnt n d s = rearm n d s := by
  simp [writeCnt, State.armed, he, hd]

/-- A write of CNT on an Armed channel with bit 31 = 0 cancels the transfer (R110). -/
theorem writeCnt_cancel (he : (s.chan n).enabled = true) (hd : cntEnable d = false) :
    writeCnt n d s = cancelArmed n d s := by
  simp [writeCnt, State.armed, he, hd]

/-- A write of CNT on an Idle channel leaves the pending unit alone, even one that is pending of this channel. -/
theorem sameUnit_writeCnt_idle (he : (s.chan n).enabled = false) (d : Word) : SameUnit s (writeCnt n d s) := by
  cases hd : cntEnable d with
  | false => rw [writeCnt_configure he hd]; exact sameUnit_modChan n s _
  | true => rw [writeCnt_idle he hd]; exact (sameUnit_modChan n s _).trans (sameUnit_arm n _)

end writeCnt

/-- An update of a channel, read back. -/
theorem chan_modChan_same (s : State) (n : ChanId) (f : ChannelState → ChannelState) :
    (s.modChan n f).chan n = f (s.chan n) := by
  simp

/-- Settles O12: the body of the write is the store of the configuration. -/
theorem cntWriteConfigures : Obligations.CntWriteConfigures := by
  unfold Obligations.CntWriteConfigures
  intro s n d h he hd
  refine ⟨_, exec_wrCnt_of_settled h, ?_, ?_, ?_, ?_, ?_, (sameUnit_writeCnt_idle he d).trans (sameUnit_log ..),
    onlyChannel_writeCnt_logged ..⟩ <;> rw [writeCnt_configure he hd, logTransaction_eq]
  · rw [log_chan, chan_modChan_same]
    exact cnt_storeCnt (s.chan n) d (s.chan n).enabled (he.trans hd.symm)
  · exact chan_modChan_same s n fun c => c.storeCnt d
  all_goals rfl

/-! ### Arming an Idle channel (spec/40_register_access.md R110; 41_engine.md R126, R127) -/

/-- A write of `d` to CNT[n] finds the channel Idle and has none of the arming faults; its block has `count` units. -/
structure ArmsCleanly (s : State) (n : ChanId) (d : Word) (count : Nat) : Prop where
  idle : (s.chan n).enabled = false
  enable : cntEnable d = true
  srcMode : cntSrcMode d ≠ none
  sadW : (s.chan n).sadW = true
  dadW : (s.chan n).dadW = true
  repeats : ¬ (cntRepeat d = true ∧ cntTiming d = .immediate ∧ s.params.repeatImmediate = .fault)
  count : countOf s.params d = some count
  src : misaligned ((s.chan n).sad &&& s.params.addrMask) (cntWidth d) = false
  dst : misaligned ((s.chan n).dad &&& s.params.addrMask) (cntWidth d) = false

/-- The channel that a clean arming write of `d` leaves before it is started: Armed, latched, with its block (R126). -/
def ChannelState.armedBy (c : ChannelState) (p : Params) (d : Word) (count : Nat) : ChannelState :=
  { c with
    conf := d.extractLsb' 0 31
    enabled := true
    settle := p.settleCycles
    curSrc := c.sad &&& p.addrMask
    curDst := c.dad &&& p.addrMask
    remaining := count
    running := false
    budget := 0
    armOk := true }

theorem armFor_latch_beginArm_storeCnt (c : ChannelState) (p : Params) (d : Word) (count : Nat) :
    (((c.storeCnt d).beginArm p).latch p).armFor count = c.armedBy p d count := rfl

theorem cnt_armedBy (c : ChannelState) (p : Params) {d : Word} (count : Nat) (h : cntEnable d = true) :
    (c.armedBy p d count).cnt = d := cnt_beginArm_storeCnt c p h

section arms
variable {s : State} {n : ChanId} {d : Word} {count : Nat} (h : ArmsCleanly s n d count)
include h

/-- A clean arming write arms the channel, and starts it if its timing is Immediate. -/
theorem writeCnt_arms : writeCnt n d s =
    if cntTiming d = .immediate then start n (.atMost count) (s.modChan n fun c => c.armedBy s.params d count)
    else s.modChan n fun c => c.armedBy s.params d count := by
  rw [writeCnt_idle h.idle h.enable,
    arm_storeCnt_ok h.enable h.srcMode h.sadW h.dadW h.repeats h.count h.src h.dst]
  simp only [armFor_latch_beginArm_storeCnt]

theorem writeCnt_arms_triggered (ht : cntTiming d ≠ .immediate) :
    writeCnt n d s = s.modChan n fun c => c.armedBy s.params d count := by
  rw [writeCnt_arms h, if_neg ht]

/-- An Immediate block with units starts, with its whole budget (R127). -/
theorem writeCnt_starts (ht : cntTiming d = .immediate) (h0 : count ≠ 0) : writeCnt n d s =
    s.modChan n fun c => { c.armedBy s.params d count with running := true, budget := count } := by
  rw [writeCnt_arms h, if_pos ht, chan_start_pos _ _ _ (by simpa [ChannelState.armedBy] using h0), modChan_modChan]
  simp [ChannelState.armedBy, budgetFor]

/-- An Immediate block without units completes in the step that arms it (R127, R135). -/
theorem writeCnt_completes (ht : cntTiming d = .immediate) (h0 : count = 0) : writeCnt n d s =
    (let t := s.modChan n fun c => c.armedBy s.params d count
      if cntIrq d then t.pulseIrq n else t).modChan n ChannelState.halt := by
  have hcnt : ((s.modChan n fun c => c.armedBy s.params d count).chan n).cnt = d := by
    rw [chan_modChan_same, cnt_armedBy _ _ _ h.enable]
  rw [writeCnt_arms h, if_pos ht, chan_start_zero _ _ _ (by simpa [ChannelState.armedBy] using h0),
    complete_idle (by rw [hcnt]; simp [repeats, ht]), hcnt]

end arms

/-- Settles O13: the block starts if it has units, and completes if it has none. -/
theorem immediateArming : Obligations.ImmediateArming := by
  unfold Obligations.ImmediateArming
  intro s n d count h he hd hm hsw hdw hr ht hc hsrc hdst
  have ha : ArmsCleanly s n d count :=
    ⟨he, hd, hm, hsw, hdw, by rcases hr with hr | hr <;> simp [hr], hc, hsrc, hdst⟩
  refine ⟨_, exec_wrCnt_of_settled h, ?faults, (sameUnit_writeCnt_idle he d).trans (sameUnit_log ..),
    onlyChannel_writeCnt_logged .., fun h0 => ?starts, fun h0 => ?completes⟩ <;> rw [logTransaction_eq]
  case faults =>
    by_cases h0 : count = 0
    · rw [writeCnt_completes ha ht h0]
      cases cntIrq d <;> rfl
    · rw [writeCnt_starts ha ht h0]
      rfl
  case starts =>
    rw [writeCnt_starts ha ht h0]
    have hchan := chan_modChan_same s n fun c => { c.armedBy s.params d count with running := true, budget := count }
    exact ⟨(congrArg ChannelState.cnt hchan).trans (cnt_armedBy (s.chan n) s.params count hd), rfl, rfl, hchan⟩
  case completes =>
    rw [writeCnt_completes ha ht h0]
    have hchan := congrArg ChannelState.halt (chan_modChan_same s n fun c => c.armedBy s.params d count)
    cases cntIrq d <;> exact ⟨rfl, rfl, (chan_modChan_same _ n ChannelState.halt).trans hchan⟩

/-- Settles O14: the channel is armed and not started. -/
theorem triggeredArmingWaits : Obligations.TriggeredArmingWaits := by
  unfold Obligations.TriggeredArmingWaits
  intro s n d count h he hd hm hsw hdw ht hc hsrc hdst
  have ha : ArmsCleanly s n d count := ⟨he, hd, hm, hsw, hdw, by simp [ht], hc, hsrc, hdst⟩
  refine ⟨_, exec_wrCnt_of_settled h, ?_, (sameUnit_writeCnt_idle he d).trans (sameUnit_log ..),
    onlyChannel_writeCnt_logged .., ?_⟩ <;> rw [logTransaction_eq, writeCnt_arms_triggered ha ht]
  · rfl
  · have hchan := chan_modChan_same s n fun c => c.armedBy s.params d count
    exact ⟨rfl, rfl, (congrArg ChannelState.cnt hchan).trans (cnt_armedBy _ _ count hd), hchan⟩

end Sys2Proof.Machine

namespace Sys2Proof.Machine

/-! ### Writes of CNT on an Armed channel (spec/40_register_access.md R110; 41_engine.md R141) -/

/-- The first effect of a cancellation: the fault of one that the armed word does not allow (R110). -/
def State.noteCancel (s : State) (n : ChanId) : State :=
  { s with faults := s.faults ++
      (if cntRepeat (s.chan n).cnt then [] else [{ info := .unsafeCancel n, step := s.clock }]) }

theorem cancelArmed_eq (n : ChanId) (d : Word) (s : State) : cancelArmed n d s =
    (abortPendingUnit n (s.noteCancel n)).modChan n fun c => (c.storeCnt d).halt := by
  unfold cancelArmed State.noteCancel
  cases cntRepeat (s.chan n).cnt
  · rfl
  · simp

/-- Settles O16: the channel is halted; what else changes is the fault of the cancellation and the fate of the unit. -/
theorem cancellationHalts : Obligations.CancellationHalts := by
  unfold Obligations.CancellationHalts
  intro s n d h he hd
  have hw : writeCnt n d s = cancelArmed n d s := writeCnt_cancel he hd
  have hchan : (writeCnt n d s).chan n = ((s.chan n).storeCnt d).halt := by
    rw [hw, cancelArmed_eq, chan_modChan_same, abort_chan]
    rfl
  obtain ⟨hirq, hplatIf, -, -⟩ := abort_signals n (s.noteCancel n)
  refine ⟨_, exec_wrCnt_of_settled h, ?cnt, hchan, ?irq, ?platIf, onlyChannel_writeCnt_logged .., ?other, ?pending⟩
  case cnt => exact (congrArg ChannelState.cnt hchan).trans (cnt_storeCnt (s.chan n) d false hd.symm)
  case irq => rw [hw, cancelArmed_eq]; exact hirq
  case platIf => rw [hw, cancelArmed_eq]; exact hplatIf
  case other =>
    intro hu
    have habort : abortPendingUnit n (s.noteCancel n) = s.noteCancel n := abort_other hu
    rw [logTransaction_eq, hw, cancelArmed_eq, habort]
    exact ⟨rfl, rfl, rfl, rfl, rfl⟩
  case pending =>
    intro hu
    obtain ⟨hunit, hdraws, -, hmem, hfaults, hevents⟩ := abort_fields (s := s.noteCancel n) hu
    rw [logTransaction_eq, hw, cancelArmed_eq]
    exact ⟨hunit, hdraws, hmem, hfaults, congrArg (· ++ _) hevents⟩

/-- The state in which a re-arming write arms its channel: the overwritten transfer is paused, and its unit is decided
on (R110, R141). -/
def State.overwritten (s : State) (n : ChanId) (d : Word) : State :=
  (abortPendingUnit n (s.raise (.issueOnBusy n .cnt))).modChan n fun c => c.pause.storeCnt d

theorem rearm_eq (s : State) (n : ChanId) (d : Word) : rearm n d s = arm n (s.overwritten n d) := rfl

/-- The state with the same registers in which channel n is Idle. -/
def State.withIdle (s : State) (n : ChanId) : State :=
  s.setChan n { s.chan n with enabled := false, running := false, budget := 0 }

/-- A settle delay covers an access to the Idle channel as it covers one to the Armed channel. -/
theorem settleHit_withIdle (s : State) (n m : ChanId) : (s.withIdle n).settleHit m = s.settleHit m := by
  have hsettle (k : ChanId) : ((s.withIdle n).chan k).settle = (s.chan k).settle := by
    rw [State.withIdle, chan_setChan]
    split
    · rw [‹k = n›]
    · rfl
  unfold State.settleHit
  simp only [hsettle]
  rfl

/-- The overwritten channel is armed as the Idle channel is that holds the same word (R110). -/
theorem rearm_like_idle (s : State) (n : ChanId) {d : Word} (hd : cntEnable d = true) :
    let t := rearm n d s
    let u := writeCnt n d (s.withIdle n)
    t.chan n = u.chan n ∧ t.irq = u.irq ∧ t.platIf = u.platIf ∧
      t.faults = (s.overwritten n d).faults ++ u.faults.drop s.faults.length := by
  obtain ⟨hirq, hplatIf, hparams, hclock⟩ := abort_signals n (s.raise (.issueOnBusy n .cnt))
  dsimp only
  rw [writeCnt_idle (by simp [State.withIdle]) hd, rearm_eq]
  refine arm_congr hparams hclock hirq hplatIf ?_
  rw [State.overwritten, chan_modChan_same, chan_modChan_same, abort_chan, raise_chan, State.withIdle, chan_setChan,
    if_pos rfl]
  rfl

/-- Settles O17: both writes arm the same channel; the Armed one first records the overwrite and decides on the unit. -/
theorem rearmOverwrites : Obligations.RearmOverwrites := by
  unfold Obligations.RearmOverwrites
  intro s n d h he hd
  have hw : writeCnt n d s = rearm n d s := writeCnt_rearm he hd
  obtain ⟨hchan, hirq, hplatIf, hfaults⟩ := rearm_like_idle s n hd
  rw [← hw] at hchan hirq hplatIf hfaults
  have hidle : (s.withIdle n).settleHit n = false := (settleHit_withIdle s n n).trans h
  refine ⟨_, _, exec_wrCnt_of_settled h, exec_wrCnt_of_settled hidle, hchan, hirq, hplatIf,
    onlyChannel_writeCnt_logged .., fun hu => ⟨(writeCnt_otherUnit hu).trans (sameUnit_log ..), ?other⟩,
    fun hu => ?pending⟩
  case other =>
    have hover : (s.overwritten n d).faults = s.faults ++ [{ info := .issueOnBusy n .cnt, step := s.clock }] := by
      have hunit : (s.raise (.issueOnBusy n .cnt)).unitCh ≠ some n := hu
      rw [State.overwritten, abort_other hunit]
      rfl
    exact hfaults.trans (congrArg (· ++ _) hover)
  case pending =>
    obtain ⟨hunit, hdraws, -, hmem, hover, -⟩ := abort_fields (s := s.raise (.issueOnBusy n .cnt)) hu
    have hsame : SameUnit (s.overwritten n d) (writeCnt n d s) := by
      rw [hw, rearm_eq]
      exact sameUnit_arm n _
    exact ⟨hsame.unitCh.trans hunit, hsame.draws.trans hdraws, hsame.mem.trans hmem,
      hfaults.trans (congrArg (· ++ _) hover)⟩

/-! ### Every register transaction (spec/40_register_access.md R114, R116) -/

/-- A write inside a settle period raises, and records that it did (R114). -/
theorem registerWrite_of_hit {n : ChanId} {s : State} (h : s.settleHit n = true) (r : Reg) (d : Word)
    (body : State → State) : registerWrite n r d body s =
      (s.raise (.settleViolation n (regOp true n r))).log (.transaction (regOp true n r) (some d) none
        [{ info := .settleViolation n (regOp true n r), step := s.clock }]) := by
  rw [← logTransaction_of_faults (raise_faults s _)]
  simp [registerWrite, h]

/-- A read inside a settle period raises, records that it did, and returns nothing to bind (R114). -/
theorem registerRead_of_hit {n : ChanId} {s : State} (h : s.settleHit n = true) (r : Reg)
    (body : State → State × Option Word) : registerRead n r body s =
      { (s.raise (.settleViolation n (regOp false n r))).log (.transaction (regOp false n r) none none
          [{ info := .settleViolation n (regOp false n r), step := s.clock }]) with lastRead := none } := by
  rw [← logTransaction_of_faults (raise_faults s _)]
  simp [registerRead, h]

/-- Settles O19: a settle delay that covers the access is a hit, and every register transaction checks for one first. -/
theorem settleViolationBlocks : Obligations.SettleViolationBlocks := by
  unfold Obligations.SettleViolationBlocks
  intro s i n op ha hs
  have hit : s.settleHit n = true := settleHit_iff.2 hs
  rcases registerAccess_cases ha with ⟨r, body, rfl, hop, hexec, -⟩ | ⟨r, d, body, rfl, hop, hexec, -⟩
  · rw [hexec, registerRead_of_hit hit, hop]; rfl
  · rw [hexec, registerWrite_of_hit hit, hop]; rfl

/-- A register write is its body, or the settle violation alone, and then its entry. -/
theorem registerWrite_cases (n : ChanId) (r : Reg) (d : Word) (body : State → State) (s : State) :
    ∃ u e, (u = body s ∨ SameUnit s u) ∧ registerWrite n r d body s = u.log e := by
  cases h : s.settleHit n with
  | false => exact ⟨_, _, .inl rfl, registerWrite_ok h⟩
  | true => exact ⟨_, _, .inr (sameUnit_raise s _), registerWrite_of_hit h r d body⟩

/-- A read whose body leaves the pending unit and memory alone leaves them alone. -/
theorem registerRead_unit {n : ChanId} {body : State → State × Option Word} {s : State} (r : Reg)
    (hu : (body s).1.unitCh = s.unitCh) (hd : (body s).1.unitData = s.unitData) (hm : (body s).1.mem = s.mem) :
    let t := registerRead n r body s
    t.unitCh = s.unitCh ∧ t.unitData = s.unitData ∧ t.mem = s.mem := by
  cases h : s.settleHit n with
  | false => rw [registerRead_ok h]; exact ⟨hu, hd, hm⟩
  | true => rw [registerRead_of_hit h]; exact ⟨rfl, rfl, rfl⟩

/-- A store into a register leaves the pending unit and memory alone. -/
theorem sameUnit_noteBusy_store (s : State) (n : ChanId) (r : Reg) (f : ChannelState → ChannelState) :
    SameUnit s ((s.noteBusy n r).modChan n f) := by
  unfold State.noteBusy
  split <;> exact ⟨rfl, rfl, rfl, rfl, rfl⟩

/-- Settles O18: a read and a store leave the pending unit and memory alone, and a write of CNT takes at most the unit of
its own channel. -/
theorem registerTransactionIsolation : Obligations.RegisterTransactionIsolation := by
  unfold Obligations.RegisterTransactionIsolation
  intro s i n op ha
  rcases registerAccess_cases ha with ⟨r, body, -, hop, hexec, hbody⟩ | ⟨r, d, body, -, hop, hexec, hbody⟩
  · obtain ⟨-, hu, hd, hm, -, -⟩ := hbody s
    obtain ⟨hunit, hdata, hmem⟩ := registerRead_unit (n := n) r hu hd hm
    exact ⟨_, hexec s, onlyChannel_registerAccess ha (hexec s), hdata, by simp [hop], fun _ => ⟨hunit, hmem⟩,
      fun b _ => by rw [hmem]⟩
  · obtain ⟨u, e, hu, hlog⟩ := registerWrite_cases n r d body s
    refine ⟨_, hexec s, onlyChannel_registerAccess ha (hexec s), ?_⟩
    rw [hlog]
    have hcases : SameUnit s u ∨ i = .wrCnt n d ∧ u = writeCnt n d s := by
      rcases hu with rfl | hu
      · rcases hbody with ⟨f, -, hstore⟩ | ⟨hi, rfl⟩
        · exact .inl (hstore s ▸ sameUnit_noteBusy_store s n r f)
        · exact .inr ⟨hi, rfl⟩
      · exact .inl hu
    rcases hcases with h | ⟨rfl, rfl⟩
    · exact ⟨h.unitData, fun _ => h.lastRead, fun _ => ⟨h.unitCh, h.mem⟩, fun b _ => congrArg (byteAt · b) h.mem⟩
    · obtain ⟨hdata, hread, hbytes⟩ := writeCnt_memory (s := s) (n := n) (d := d)
      refine ⟨hdata, fun _ => hread, fun h => ?_, hbytes⟩
      have hother : SameUnit s (writeCnt n d s) := writeCnt_otherUnit (h.resolve_right fun hne => hne d rfl)
      exact ⟨hother.unitCh, hother.mem⟩

end Sys2Proof.Machine

namespace Sys2Proof.Machine

/-! ### TICK (spec/40_register_access.md R113, R142) -/

/-- TICK raises nothing, so its entry holds no fault. -/
theorem exec_tick (s : State) : exec .tick s = .next ((tickAll s).log (.transaction tickOp none none [])) :=
  congrArg Host.Outcome.next (logTransaction_of_faults (List.append_nil _).symm _ _ _)

/-- Settles O21: the counter of each channel goes down by one, as far as 0. -/
theorem tickCountsDown : Obligations.TickCountsDown := by
  unfold Obligations.TickCountsDown
  intro s
  refine ⟨_, exec_tick s, fun k => ?_, ?_⟩
  · rw [log_chan, tickAll_chan, ChannelState.tickSettle, Nat.zero_max]
  · rw [tickAll_eq]
    rfl

/-- The record of a trigger, and the end of a wait, leave each channel as the delivery did (R112). -/
theorem triggerEvent_chan (t : Trigger) (s : State) (w : Option Wait) (k : ChanId) :
    ({ triggerEvent t s with waiting := w } : State).chan k = (deliverTrigger t s).chan k := by
  rw [triggerEvent]
  generalize deliverTrigger t s = u
  rfl

/-- An instruction other than TICK counts no settle counter down (R113). -/
theorem settle_exec {i : Instr} {s t : State} (h : exec i s = .next t) :
    (∀ k, (s.chan k).settle ≤ (t.chan k).settle) ∨ t = (tickAll s).log (.transaction tickOp none none []) := by
  rcases exec_cases h with ⟨n, op, ha⟩ | ⟨tr, w, rfl⟩ | rfl | ⟨n, rfl⟩ | ⟨n, rfl⟩ | ⟨-, -, hchans, -⟩
  · exact .inl (settle_registerAccess ha h)
  · refine .inl fun k => ?_
    rw [triggerEvent_chan, (keepsSetup_deliverTrigger s tr k).2.1]
  · exact .inr (Host.Outcome.next.inj (exec_tick s))
  · exact .inl (settle_registerAccess (i := .rdCnt n) (t := registerRead n .cnt (readCnt n) s) rfl rfl)
  · exact .inl (settle_registerAccess (i := .wrCnt n 0) (s := s) rfl rfl)
  · exact .inl fun k => by rw [State.chan, State.chan, hchans]

/-- Settles O22: a turn in which a counter falls has run an instruction, and that was a TICK. -/
theorem onlyTickSettles : Obligations.OnlyTickSettles := by
  unfold Obligations.OnlyTickSettles
  intro s t a k h hfall
  rcases agentStep_cases h with hb | rfl | ⟨i, u, v, hpre, hexec, hpost⟩
  · rw [hb.chan k] at hfall
    exact absurd hfall (lt_irrefl _)
  · rw [(keepsSetup_engineStep s k).2.1] at hfall
    exact absurd hfall (lt_irrefl _)
  · have htick : v = (tickAll u).log (.transaction tickOp none none []) := by
      refine (settle_exec hexec).resolve_left fun hle => ?_
      rw [hpost.chan k, ← hpre.chan k] at hfall
      exact absurd hfall (not_lt.2 (hle k))
    have hsettle : (t.chan k).settle = (s.chan k).settle - 1 := by
      rw [hpost.chan k, htick, log_chan, tickAll_chan, hpre.chan k, ChannelState.tickSettle]
    have hevents : v.events = s.events ++ [.transaction tickOp none none []] := by
      rw [htick, ← hpre.events]
      rfl
    exact ⟨by omega, hpost.events.trans hevents⟩

/-! ### Triggers (spec/40_register_access.md R112; 41_engine.md R127, R128) -/

/-- Each trigger instruction delivers its trigger and records it; `TRIG 1` may also end a wait (R112, R189). -/
theorem exec_trigger (t : Trigger) (s : State) :
    ∃ w, exec t.instr s = .next { triggerEvent t s with waiting := w } := by
  cases t with
  | vblank =>
    by_cases hw : (triggerEvent .vblank s).waiting = some .vblank
    · exact ⟨none, congrArg Host.Outcome.next (if_pos hw)⟩
    · exact ⟨_, congrArg Host.Outcome.next (if_neg hw)⟩
  | _ => exact ⟨_, rfl⟩

theorem waitsOn_iff {c : ChannelState} {t : Trigger} : c.waitsOn t = true ↔
    c.enabled = true ∧ c.armOk = true ∧ c.timing = .on t ∧ c.running = false := by
  simp [ChannelState.waitsOn, and_assoc]

/-- A channel that waits on a trigger reloads on completion exactly if its word repeats (R135). -/
theorem repeats_of_timing {c : ChannelState} {t : Trigger} (h : c.timing = .on t) :
    repeats c.cnt = cntRepeat c.cnt := by
  unfold ChannelState.timing at h
  simp [repeats, h]

/-- What starting a channel signals on it: the pulse of an empty block that asks for it (R127, R139). -/
theorem start_signals (n : ChanId) (k : Units) (s : State) :
    (start n k s).irq.get n = (s.irq.get n || (decide ((s.chan n).remaining = 0) && cntIrq (s.chan n).cnt)) ∧
    (start n k s).platIf.get n = (s.platIf.get n || (decide ((s.chan n).remaining = 0) && cntIrq (s.chan n).cnt)) := by
  by_cases h0 : (s.chan n).remaining = 0
  · obtain ⟨hirq, hplatIf, -⟩ := complete_signals n s
    rw [chan_start_zero n s k h0, hirq, hplatIf]
    cases cntIrq (s.chan n).cnt <;> simp [h0]
  · rw [chan_start_pos n s k h0]
    simp [h0]

/-- What a start trigger leaves as it was (R25, R128). -/
structure TriggerFrame (s t : State) : Prop where
  params : t.params = s.params
  program : t.program = s.program
  rpc : t.rpc = s.rpc
  todo : t.todo = s.todo
  halted : t.halted = s.halted
  refused : t.refused = s.refused
  platIe : t.platIe = s.platIe
  names : t.names = s.names
  faults : s.faults <+: t.faults

theorem TriggerFrame.trans {s t u : State} (h : TriggerFrame s t) (g : TriggerFrame t u) : TriggerFrame s u where
  params := g.params.trans h.params
  program := g.program.trans h.program
  rpc := g.rpc.trans h.rpc
  todo := g.todo.trans h.todo
  halted := g.halted.trans h.halted
  refused := g.refused.trans h.refused
  platIe := g.platIe.trans h.platIe
  names := g.names.trans h.names
  faults := h.faults.trans g.faults

theorem OnlyChannel.triggerFrame {n : ChanId} {s t : State} (h : OnlyChannel n s t) : TriggerFrame s t :=
  ⟨h.params, h.program, h.rpc, h.todo, h.halted, h.refused, h.platIe, h.names, h.faults⟩

theorem triggerFrame_deliverTrigger (s : State) (t : Trigger) : TriggerFrame s (deliverTrigger t s) :=
  deliverTrigger_induction s t (fun _ _ _ => .trans) fun s n => (onlyChannel_triggerChannel s t n).triggerFrame

section deliver
variable (s : State) (t : Trigger) (n : ChanId)

/-- A channel that does not wait on the trigger is left as it is, and pulses nothing (R128). -/
theorem deliverTrigger_notWaiting (h : (s.chan n).waitsOn t = false) :
    (deliverTrigger t s).chan n = s.chan n ∧ (deliverTrigger t s).irq.get n = s.irq.get n ∧
      (deliverTrigger t s).platIf.get n = s.platIf.get n := by
  obtain ⟨u, hu, -, huirq, huplatIf, hchan, hirq, hplatIf⟩ := deliverTrigger_chan s t n
  have hturn : triggerChannel t u n = u := by simp [triggerChannel, hu, h]
  rw [hchan, hirq, hplatIf, hturn]
  exact ⟨hu, huirq, huplatIf⟩

/-- A channel that waits on the trigger is started with the units the trigger allows: one with units left runs, one
without completes (R127, R128). -/
theorem deliverTrigger_waiting (h : (s.chan n).waitsOn t = true) :
    (deliverTrigger t s).irq.get n =
      (s.irq.get n || (decide ((s.chan n).remaining = 0) && cntIrq (s.chan n).cnt)) ∧
    (deliverTrigger t s).platIf.get n =
      (s.platIf.get n || (decide ((s.chan n).remaining = 0) && cntIrq (s.chan n).cnt)) ∧
    ((s.chan n).remaining ≠ 0 → (deliverTrigger t s).chan n = { s.chan n with
      running := true
      budget := budgetFor (s.params.unitsPerTrigger.get t) (s.chan n).remaining }) ∧
    ((s.chan n).remaining = 0 → repeats (s.chan n).cnt = false → (deliverTrigger t s).chan n = (s.chan n).halt) ∧
    ((s.chan n).remaining = 0 → repeats (s.chan n).cnt = true → ∀ count, countOf s.params (s.chan n).cnt = some count →
      (deliverTrigger t s).chan n = (s.chan n).reloaded s.params count) := by
  obtain ⟨u, hu, hparams, huirq, huplatIf, hchan, hirq, hplatIf⟩ := deliverTrigger_chan s t n
  have hturn : triggerChannel t u n = start n (s.params.unitsPerTrigger.get t) u := by
    simp [triggerChannel, hu, h, hparams]
  rw [hchan, hirq, hplatIf, hturn, ← hu, ← hparams, ← huirq, ← huplatIf]
  obtain ⟨hsirq, hsplatIf⟩ := start_signals n (u.params.unitsPerTrigger.get t) u
  refine ⟨hsirq, hsplatIf, fun h0 => ?_, fun h0 hidle => ?_, fun h0 hagain count hc => ?_⟩
  · rw [chan_start_pos n u _ h0, chan_modChan_same]
  · rw [chan_start_zero n u _ h0, chan_complete_idle n u hidle]
  · rw [chan_start_zero n u _ h0, chan_complete_repeat n u hagain hc]

end deliver

/-- Settles O23: a channel that waits is started, any other is left alone, and the records are those of the pulses and
of the event. -/
theorem triggerStartsWaiting : Obligations.TriggerStartsWaiting := by
  unfold Obligations.TriggerStartsWaiting
  intro s t
  obtain ⟨w, hexec⟩ := exec_trigger t s
  have hnot := deliverTrigger_notWaiting s t
  have hwaits := deliverTrigger_waiting s t
  have hframe := triggerFrame_deliverTrigger s t
  have hsame := sameUnit_deliverTrigger s t
  obtain ⟨hevents, hquiet⟩ := deliverTrigger_records t s
  rw [triggerEvent] at hexec
  generalize deliverTrigger t s = u at *
  refine ⟨_, hexec, ?notWaiting, ?waiting, ⟨hsame.unitCh, hsame.unitData, hsame.mem, hsame.draws, hsame.lastRead⟩,
    hframe.params, hframe.program, hframe.rpc, hframe.todo, hframe.halted, hframe.refused, hframe.platIe, hframe.names,
    congrArg (· ++ _) hevents, hframe.faults, hquiet⟩
  case notWaiting => exact fun n hn => hnot n (Bool.eq_false_iff.2 (mt waitsOn_iff.1 hn))
  case waiting =>
    intro n he ha ht hr
    obtain ⟨hirq, hplatIf, hruns, hidles, hreloads⟩ := hwaits n (waitsOn_iff.2 ⟨he, ha, ht, hr⟩)
    rw [repeats_of_timing ht] at hidles hreloads
    exact ⟨hirq, hplatIf, hruns, hidles, hreloads⟩

end Sys2Proof.Machine

namespace Sys2Proof.Machine

/-! ### Arming faults (spec/41_engine.md R126) -/

/-- The arming write of `d` raises `f` and nothing else, and leaves the channel Armed, with `arm_ok = 0`, in its settle
period, and not started: what R126 says of every arming fault. -/
def ArmingRaises (s : State) (n : ChanId) (d : Word) (f : FaultInfo) : Prop :=
  ∃ t, exec (.wrCnt n d) s = .next t ∧
    t.faults = s.faults ++ [{ info := f, step := s.clock }] ∧ (t.chan n).cnt = d ∧ (t.chan n).enabled = true ∧
    (t.chan n).armOk = false ∧ (t.chan n).settle = s.params.settleCycles ∧
    (t.chan n).running = (s.chan n).running ∧ SameUnit s t ∧ OnlyChannel n s t

theorem countOf_eq_none {p : Params} {v : Word} : countOf p v = none ↔ cntCount v = 0 ∧ p.zeroCount = .fault := by
  by_cases h0 : cntCount v = 0
  · cases hz : p.zeroCount <;> simp [countOf, h0, hz]
  · rw [countOf, if_pos h0]
    exact iff_of_false (Option.some_ne_none _) fun h => h0 h.1

/-- The checks of R126, of a channel into which the arming word `d` has been written. -/
theorem armCheck_storeCnt (c : ChannelState) (p : Params) (n : ChanId) {d : Word} (h : cntEnable d = true) :
    armCheck p n ((c.storeCnt d).beginArm p) =
      if cntSrcMode d = none then .error (.reservedSourceMode n)
      else if c.sadW = false then .error (.unwrittenRegister n .sad)
      else if c.dadW = false then .error (.unwrittenRegister n .dad)
      else if cntRepeat d = true ∧ cntTiming d = .immediate ∧ p.repeatImmediate = .fault then
        .error (.repeatImmediate n)
      else (countOf p d).elim (.error (.zeroLengthIssue n)) .ok := by
  unfold armCheck
  rw [cnt_beginArm_storeCnt c p h, (fields_beginArm_storeCnt c p h).2]
  cases countOf p d <;> rfl

section armingRaises
variable {s : State} {n : ChanId} {d : Word} (hs : s.settleHit n = false) (he : (s.chan n).enabled = false)
  (hd : cntEnable d = true)
include hs he hd

/-- It is enough to know the channel that the body of the write leaves beside its one record. -/
theorem armingRaises_of_writeCnt {f : FaultInfo} {c : ChannelState} (hw : writeCnt n d s = (s.setChan n c).raise f)
    (hc : c = ((s.chan n).storeCnt d).beginArm s.params ∨
      c = (((s.chan n).storeCnt d).beginArm s.params).latch s.params) :
    ArmingRaises s n d f := by
  have hchan : (writeCnt n d s).chan n = c := by rw [hw]; simp
  have hcnt : c.cnt = d := by
    rcases hc with rfl | rfl <;> exact cnt_beginArm_storeCnt (s.chan n) s.params hd
  refine ⟨_, exec_wrCnt_of_settled hs, congrArg State.faults hw, (congrArg ChannelState.cnt hchan).trans hcnt,
    (congrArg ChannelState.enabled hchan).trans ?_, (congrArg ChannelState.armOk hchan).trans ?_,
    (congrArg ChannelState.settle hchan).trans ?_, (congrArg ChannelState.running hchan).trans ?_,
    (sameUnit_writeCnt_idle he d).trans (sameUnit_log ..), onlyChannel_writeCnt_logged ..⟩ <;>
  rcases hc with rfl | rfl <;> rfl

/-- A check that fails is the one fault of the arming, and nothing is latched. -/
theorem armingRaises_of_check {f : FaultInfo}
    (hf : armCheck s.params n (((s.chan n).storeCnt d).beginArm s.params) = .error f) : ArmingRaises s n d f := by
  refine armingRaises_of_writeCnt hs he hd ?_ (.inl rfl)
  rw [writeCnt_idle he hd, arm_fault (by rw [chan_modChan_same]; exact hf), modChan_modChan]
  rfl

/-- A misaligned address is the one fault of an arming that passes the checks, and the addresses are latched. -/
theorem armingRaises_of_misaligned {count : Nat}
    (hok : armCheck s.params n (((s.chan n).storeCnt d).beginArm s.params) = .ok count)
    (hm : misaligned ((s.chan n).sad &&& s.params.addrMask) (cntWidth d) = true ∨
      misaligned ((s.chan n).dad &&& s.params.addrMask) (cntWidth d) = true) :
    ArmingRaises s n d (.misalignedTransfer n ((s.chan n).sad &&& s.params.addrMask)
      ((s.chan n).dad &&& s.params.addrMask)) := by
  refine armingRaises_of_writeCnt hs he hd ?_ (.inr rfl)
  have hwidth := (fields_beginArm_storeCnt (s.chan n) s.params hd).1
  rw [writeCnt_idle he hd, arm_misaligned (k := count) (by rw [chan_modChan_same]; exact hok), modChan_modChan,
    chan_modChan_same]
  · rfl
  · rw [chan_modChan_same, modChan_params, hwidth, storeCnt_sad, storeCnt_dad, Bool.or_eq_true]
    exact hm

end armingRaises

/-- Settles O15: the branches of the statement are those of the checks, and then the alignment. -/
theorem armingFaultOrder : Obligations.ArmingFaultOrder := by
  unfold Obligations.ArmingFaultOrder
  intro s n d hs he hd src dst raises
  have hcheck := armCheck_storeCnt (s.chan n) s.params n hd
  split_ifs with hmode hsad hdad hrepeat hzero
  · exact armingRaises_of_check hs he hd (hcheck.trans (if_pos hmode))
  all_goals rw [if_neg hmode] at hcheck
  · exact armingRaises_of_check hs he hd (hcheck.trans (if_pos hsad))
  all_goals rw [if_neg hsad] at hcheck
  · exact armingRaises_of_check hs he hd (hcheck.trans (if_pos hdad))
  all_goals rw [if_neg hdad] at hcheck
  · exact armingRaises_of_check hs he hd (hcheck.trans (if_pos hrepeat))
  all_goals rw [if_neg hrepeat] at hcheck
  · exact armingRaises_of_check hs he hd (hcheck.trans (by rw [countOf_eq_none.2 hzero]; rfl))
  · obtain ⟨count, hcount⟩ := Option.ne_none_iff_exists'.1 (mt countOf_eq_none.1 hzero)
    exact armingRaises_of_misaligned hs he hd (hcheck.trans (by rw [hcount]; rfl))

end Sys2Proof.Machine

namespace Sys2Proof.Machine

/-! ### Triggers that find nothing to start (spec/41_engine.md R129) -/

/-- A trigger that no channel waits on delivers nothing. -/
theorem deliverTrigger_of_noneWaiting {s : State} {t : Trigger} (h : ∀ n, (s.chan n).waitsOn t = false) :
    deliverTrigger t s = s := by
  have hturn (n : ChanId) : triggerChannel t s n = s := by simp [triggerChannel, h n]
  simp [deliverTrigger, allChannels, hturn]

/-- Only the vertical blank ends a wait for it (R189). -/
theorem exec_trigger_eq (t : Trigger) (s : State) : exec t.instr s = .next { triggerEvent t s with
    waiting := if t = .vblank ∧ (triggerEvent t s).waiting = some .vblank then none
      else (triggerEvent t s).waiting } := by
  cases t with
  | vblank =>
    by_cases hw : (triggerEvent .vblank s).waiting = some .vblank
    · rw [if_pos ⟨rfl, hw⟩]
      exact congrArg Host.Outcome.next (if_pos hw)
    · rw [if_neg fun h => hw h.2]
      exact congrArg Host.Outcome.next (if_neg hw)
  | _ => rfl

/-- Settles O24: the loop of the delivery starts no channel that does not wait. -/
theorem triggersAreNotLatched : Obligations.TriggersAreNotLatched := by
  unfold Obligations.TriggersAreNotLatched
  refine ⟨fun s t hnone => ?nobody, fun s t n hrun => ?running⟩
  case nobody =>
    have hevent : triggerEvent t s = s.log (.transaction (trigOp t) none none []) := by
      rw [triggerEvent, deliverTrigger_of_noneWaiting hnone]
      exact logTransaction_of_faults (List.append_nil _).symm _ _ _
    rw [exec_trigger_eq, hevent]
    rfl
  case running =>
    have hw : (s.chan n).waitsOn t = false := by simp [ChannelState.waitsOn, hrun]
    exact ⟨_, exec_trigger_eq t s,
      (triggerEvent_chan t s _ n).trans (deliverTrigger_notWaiting s t n hw).1⟩

end Sys2Proof.Machine

namespace Sys2Proof.Machine

/-! ### The engine's turn (spec/41_engine.md R131-R133, R140, R143) -/

theorem raise_ne (s : State) (f : FaultInfo) : s.raise f ≠ s := fun h => by
  simpa using congrArg State.faults h

theorem selected_eq_none {s : State} : s.selected = none ↔ ∀ n, (s.chan n).running = false := by
  simp [State.selected, mem_allChannels]

theorem admitted_iff {s : State} {a : Word} {w : Width} :
    s.admitted a w = true ↔ route s.params a ≠ .memory ∨ memAdmits s.params a w = true := by
  simp [State.admitted]

section turn
variable {s : State} {n : ChanId} {m : SrcMode}

/-- A `UNIT_READ` whose master read succeeds latches the value (R133). -/
theorem unitRead_ok {v : Word} (h : s.masterRead (s.chan n).curSrc (s.chan n).width = .ok v) :
    unitRead n s = { s with
      unitCh := some n
      unitData := v
      events := s.events ++ [.masterRead (s.chan n).curSrc (s.chan n).width v] } := by
  simp only [unitRead, h]
  rfl

/-- A `UNIT_READ` whose master read raises does nothing else (R15, R63). -/
theorem unitRead_error {f : FaultInfo} (h : s.masterRead (s.chan n).curSrc (s.chan n).width = .error f) :
    unitRead n s = s.raise f := by
  simp only [unitRead, h]

/-- A `UNIT_READ` raises, or leaves a unit of its channel pending. -/
theorem unitRead_cases (n : ChanId) (s : State) : (∃ f, unitRead n s = s.raise f) ∨
    ∃ v, unitRead n s = { s with
      unitCh := some n
      unitData := v
      events := s.events ++ [.masterRead (s.chan n).curSrc (s.chan n).width v] } := by
  cases h : s.masterRead (s.chan n).curSrc (s.chan n).width with
  | error f => exact .inl ⟨f, unitRead_error h⟩
  | ok v => exact .inr ⟨v, unitRead_ok h⟩

theorem engineEnabled_pending (hu : s.unitCh = some n) (hm : cntSrcMode (s.chan n).cnt = some m) :
    s.engineEnabled = s.admitted (s.chan n).curDst (s.chan n).width := by
  simp [State.engineEnabled, hu, hm]

theorem engineEnabled_selected (hu : s.unitCh = none) (hs : s.selected = some n) :
    s.engineEnabled = s.admitted (s.chan n).curSrc (s.chan n).width := by
  simp [State.engineEnabled, hu, hs]

theorem engineEnabled_idle (hu : s.unitCh = none) (hs : s.selected = none) : s.engineEnabled = false := by
  simp [State.engineEnabled, hu, hs]

/-- Without an enabled step a turn of the engine changes nothing (R140, log 15). -/
theorem engineStep_of_disabled (h : s.engineEnabled = false) : engineStep s = s := by
  rcases engineStep_cases s with hstep | ⟨k, hu, hs, ha, -⟩ | ⟨k, m, hu, hm, ha, -⟩
  · exact hstep
  · rw [engineEnabled_selected hu hs, ha] at h
    cases h
  · rw [engineEnabled_pending hu hm, ha] at h
    cases h

/-- With an enabled step the engine reads a unit, if none is pending, or writes the pending one (R133, R134). -/
theorem engineStep_of_enabled (h : s.engineEnabled = true) :
    (∃ k, s.unitCh = none ∧ engineStep s = unitRead k s) ∨
    ∃ k m, s.unitCh = some k ∧ engineStep s = unitWrite k m s := by
  cases hu : s.unitCh with
  | none =>
    cases hs : s.selected with
    | none => simp [engineEnabled_idle hu hs] at h
    | some k =>
      rw [engineEnabled_selected hu hs] at h
      exact .inl ⟨k, rfl, by rw [engineStep_read hu hs, if_pos h]⟩
  | some k =>
    cases hm : cntSrcMode (s.chan k).cnt with
    | none => simp [State.engineEnabled, hu, hm] at h
    | some m =>
      rw [engineEnabled_pending hu hm] at h
      exact .inr ⟨k, m, rfl, by rw [engineStep_write hu hm, if_pos h]⟩

/-- A `UNIT_READ` changes the state: it raises, or it fills the latch that was empty. -/
theorem unitRead_ne (hu : s.unitCh = none) : unitRead n s ≠ s := by
  rcases unitRead_cases n s with ⟨f, h⟩ | ⟨v, h⟩ <;> rw [h]
  · exact raise_ne s f
  · intro heq
    have hlatch : some n = s.unitCh := congrArg State.unitCh heq
    rw [hu] at hlatch
    cases hlatch

/-- A `UNIT_WRITE` changes the state: it raises, or it empties the latch that was full. -/
theorem unitWrite_ne (hu : s.unitCh = some n) : unitWrite n m s ≠ s := by
  by_cases hr : route s.params (s.chan n).curDst = .memory
  · intro heq
    have hlatch : (unitWrite n m s).unitCh = none := by
      rw [unitWrite_memory hr]
      exact (sameUnit_afterUnit n _).unitCh
    rw [heq, hu] at hlatch
    cases hlatch
  · rw [unitWrite_register hr]
    exact raise_ne s _

/-- The engine takes no free value and returns nothing to the requester. -/
theorem engineStep_draws_lastRead (s : State) :
    (engineStep s).draws = s.draws ∧ (engineStep s).lastRead = s.lastRead := by
  rcases engineStep_cases s with h | ⟨k, -, -, -, h⟩ | ⟨k, m, -, -, -, h⟩ <;> rw [h]
  · exact ⟨rfl, rfl⟩
  · rcases unitRead_cases k s with ⟨f, h⟩ | ⟨v, h⟩ <;> rw [h] <;> exact ⟨rfl, rfl⟩
  · by_cases hr : route s.params (s.chan k).curDst = .memory
    · have hsame := sameUnit_afterUnit k (s.unitWritten k m)
      rw [unitWrite_memory hr]
      exact ⟨hsame.draws, hsame.lastRead⟩
    · rw [unitWrite_register hr]
      exact ⟨rfl, rfl⟩

/-- The channel a turn of the engine changes is the one it serves: that of the pending unit, or else the selected one
(R132, R143). -/
theorem onlyChannel_engineStep_served (h : s.unitCh = some n ∨ s.unitCh = none ∧ s.selected = some n) :
    OnlyChannel n s (engineStep s) := by
  rcases engineStep_cases s with hstep | ⟨k, hu, hs, -, hstep⟩ | ⟨k, m, hu, -, -, hstep⟩ <;> rw [hstep]
  · exact .refl n s
  · obtain rfl : k = n := by simpa [hu, hs] using h
    exact onlyChannel_unitRead k s
  · obtain rfl : k = n := by simpa [hu] using h
    exact onlyChannel_unitWrite k s m

end turn

/-- Settles O25: the selection is the lowest running channel, and a read raises or latches a unit of that channel. -/
theorem lowestRunningIsServed : Obligations.LowestRunningIsServed := by
  unfold Obligations.LowestRunningIsServed
  intro s hu
  refine ⟨selected_iff s, ?latch, fun hidle => ?idle⟩
  case latch =>
    rcases engineStep_cases s with h | ⟨k, -, hs, -, h⟩ | ⟨k, m, hpending, -, -, -⟩
    · exact .inl (h.symm ▸ hu)
    · rcases unitRead_cases k s with ⟨f, hread⟩ | ⟨v, hread⟩ <;> rw [h, hread]
      · exact .inl hu
      · exact .inr hs.symm
    · rw [hu] at hpending
      cases hpending
  case idle =>
    have hoff := engineEnabled_idle hu (selected_eq_none.2 hidle)
    exact ⟨hoff, engineStep_of_disabled hoff⟩

/-- Settles O26: the route of the source address decides what the master read answers. -/
theorem unitReadOutcomes : Obligations.UnitReadOutcomes := by
  unfold Obligations.UnitReadOutcomes
  intro s n hu hs a w latches
  have hturn (hr : route s.params a ≠ .memory) : engineStep s = unitRead n s := by
    rw [engineStep_read hu hs, if_pos (admitted_iff.2 (.inl hr))]
  refine ⟨engineStep_readMemory hu hs, fun m hr hw => ?cell, fun m hr hw => ?unwritten, fun hr => ?register⟩
  case cell => exact (hturn (by simp [hr])).trans (unitRead_ok (by simp [State.masterRead, a, w, hr, hw]))
  case unwritten => exact (hturn (by simp [hr])).trans (unitRead_error (by simp [State.masterRead, a, hr, hw]))
  case register => exact (hturn (by simp [hr])).trans (unitRead_error (by simp [State.masterRead, a, hr]))

/-- Settles O31: the frame of the channel served, and the turn of an engine with nothing to do. -/
theorem engineIsolation : Obligations.EngineIsolation := by
  unfold Obligations.EngineIsolation
  intro s
  exact ⟨fun n h => ⟨onlyChannel_engineStep_served h, engineStep_draws_lastRead s⟩,
    fun hu hs => engineStep_of_disabled (engineEnabled_idle hu hs)⟩

/-- Settles O33: the engine's next access is the write of the pending unit, or else the read of the selected channel. -/
theorem engineEnabledness : Obligations.EngineEnabledness := by
  unfold Obligations.EngineEnabledness
  intro s
  refine ⟨fun n hu hmode => ?pending, fun hu => ?selected, fun h => ?changes, engineStep_of_disabled⟩
  case pending =>
    obtain ⟨m, hm⟩ := Option.ne_none_iff_exists'.1 hmode
    rw [engineEnabled_pending hu hm, admitted_iff]
  case selected =>
    cases hs : s.selected with
    | none => simp [engineEnabled_idle hu hs]
    | some n => simp [engineEnabled_selected hu hs, admitted_iff]
  case changes =>
    rcases engineStep_of_enabled h with ⟨k, hu, hstep⟩ | ⟨k, m, hu, hstep⟩ <;> rw [hstep]
    · exact unitRead_ne hu
    · exact unitWrite_ne hu

end Sys2Proof.Machine

namespace Sys2Proof.Machine

/-! ### The write of a unit (spec/41_engine.md R130, R134-R136, R139) -/

/-- Writing back the channel that stands there changes nothing. -/
theorem setChan_chan (s : State) (n : ChanId) : s.setChan n (s.chan n) = s := by
  simp [State.setChan, State.chan]

/-- The end of a unit that is not the last: the channel stops running if its budget is out (R130). -/
theorem afterUnit_continues {n : ChanId} {s : State} (h : (s.chan n).remaining ≠ 0) :
    afterUnit n s = s.modChan n fun c => { c with running := if c.budget = 0 then false else c.running } := by
  by_cases hb : (s.chan n).budget = 0
  · simp [afterUnit, h, State.modChan, hb]
  · have hkeep : ({ s.chan n with running := if (s.chan n).budget = 0 then false else (s.chan n).running } :
        ChannelState) = s.chan n := by rw [if_neg hb]
    rw [afterUnit, if_neg h, if_neg hb, State.modChan, hkeep, setChan_chan]

/-- The end of the last unit of a block is its completion (R134). -/
theorem afterUnit_completes {n : ChanId} {s : State} (h : (s.chan n).remaining = 0) :
    afterUnit n s = complete n s := if_pos h

/-- A completion reloads with REPEAT = 1 and a trigger other than Immediate (R135, R137). -/
theorem repeats_eq_true {c : ChannelState} : repeats c.cnt = true ↔ cntRepeat c.cnt = true ∧ c.timing ≠ .immediate := by
  simp [repeats, ChannelState.timing]

/-- A completion goes Idle without REPEAT, and with Immediate timing (R135, R137). -/
theorem repeats_eq_false {c : ChannelState} :
    repeats c.cnt = false ↔ cntRepeat c.cnt = false ∨ c.timing = .immediate := by
  rw [← Bool.not_eq_true, repeats_eq_true, not_and_or, Bool.not_eq_true, not_not]

/-- The channel whose unit has been written has stepped its addresses and counted down (R134). -/
theorem unitWritten_chan_same (s : State) (n : ChanId) (m : SrcMode) :
    (s.unitWritten n m).chan n = (s.chan n).advance s.params m := by
  rw [unitWritten_chan, if_pos rfl]

section unitWrite
variable {s : State} {n : ChanId} {m : SrcMode}

/-- The turn that writes the pending unit to memory (R134). -/
theorem engineStep_writeMemory (hu : s.unitCh = some n) (hm : cntSrcMode (s.chan n).cnt = some m)
    (hr : route s.params (s.chan n).curDst = .memory)
    (ha : memAdmits s.params (s.chan n).curDst (s.chan n).width = true) :
    engineStep s = afterUnit n (s.unitWritten n m) := by
  rw [engineStep_write hu hm, if_pos (admitted_of_memAdmits ha), unitWrite_memory hr]

/-- A completion that does not reload raises nothing (R135). -/
theorem faults_complete_idle (h : repeats (s.chan n).cnt = false) : (complete n s).faults = s.faults := by
  rw [complete_idle h]
  cases cntIrq (s.chan n).cnt <;> rfl

end unitWrite

/-- Settles O28: a write to memory ends with the budget check, and one to a block register only raises. -/
theorem unitWriteOutcomes : Obligations.UnitWriteOutcomes := by
  unfold Obligations.UnitWriteOutcomes
  intro s n m hu hm c
  refine ⟨fun hr ha h2 => ?memory, fun hr => ?register⟩
  case memory =>
    have hleft : ((s.unitWritten n m).chan n).remaining ≠ 0 := by
      rw [unitWritten_chan_same, advance_remaining]
      exact Nat.sub_ne_zero_of_lt h2
    have hstep := (engineStep_writeMemory hu hm hr ha).trans (afterUnit_continues hleft)
    refine ⟨_, hstep, rfl, rfl, rfl, ?_, rfl, rfl, rfl, hstep ▸ onlyChannel_engineStep_served (.inl hu)⟩
    rw [chan_modChan_same, unitWritten_chan_same]
    rfl
  case register =>
    rw [engineStep_write hu hm, if_pos (admitted_iff.2 (.inl hr)), unitWrite_register hr]

/-- Settles O29: the last unit is written and then the block completes, going Idle or reloading. -/
theorem lastUnitCompletes : Obligations.LastUnitCompletes := by
  unfold Obligations.LastUnitCompletes
  intro s n m hu hm c hr ha h1
  have hchan := unitWritten_chan_same s n m
  have hlast : ((s.unitWritten n m).chan n).remaining = 0 := by
    rw [hchan, advance_remaining]
    exact Nat.sub_eq_zero_of_le h1.le
  have hstep := (engineStep_writeMemory hu hm hr ha).trans (afterUnit_completes hlast)
  have hsame := sameUnit_complete n (s.unitWritten n m)
  obtain ⟨hirq, hplatIf, hevents⟩ := complete_signals n (s.unitWritten n m)
  rw [hchan] at hirq hplatIf hevents
  refine ⟨_, hstep, hsame.mem, hsame.unitCh, hstep ▸ onlyChannel_engineStep_served (.inl hu), hirq, hplatIf, hevents,
    fun hend => ?idle, fun hrep htime count hcount => ?reload⟩
  case idle =>
    have hrepeats : repeats ((s.unitWritten n m).chan n).cnt = false := hchan ▸ repeats_eq_false.2 hend
    exact ⟨faults_complete_idle hrepeats, (chan_complete_idle n _ hrepeats).trans (by rw [hchan]; rfl)⟩
  case reload =>
    have hrepeats : repeats ((s.unitWritten n m).chan n).cnt = true := hchan ▸ repeats_eq_true.2 ⟨hrep, htime⟩
    have hblock : countOf s.params ((s.unitWritten n m).chan n).cnt = some count := hchan ▸ hcount
    exact ⟨(complete_faults hrepeats hblock).trans (by rw [hchan]; rfl),
      (chan_complete_repeat n _ hrepeats hblock).trans (by rw [hchan]; rfl)⟩

end Sys2Proof.Machine

namespace Sys2Proof.Machine

/-! ### Who may arm (spec/42_driver_protocol.md R155; 41_engine.md R134) -/

/-- Settles O32: the engine's turn keeps the set-up of every channel. -/
theorem engineNeverArms : Obligations.EngineNeverArms := by
  unfold Obligations.EngineNeverArms
  intro s k
  obtain ⟨hregisters, hsettle, -, henabled⟩ := keepsSetup_engineStep s k
  exact ⟨hregisters, hsettle, henabled⟩

/-! ### Turns of a free requester (spec/10_state.md R33) -/

@[simp] theorem retire_chans (s : State) : (retire s).chans = s.chans := by unfold retire; split <;> rfl
@[simp] theorem retire_todo (s : State) : (retire s).todo = s.todo := by unfold retire; split <;> rfl
@[simp] theorem retire_faults (s : State) : (retire s).faults = s.faults := by unfold retire; split <;> rfl
@[simp] theorem chan_retire (s : State) (n : ChanId) : (retire s).chan n = s.chan n :=
  congrArg (·.get n) (retire_chans s)
@[simp] theorem push_nil (s : State) : s.push [] = s := rfl

/-- What is outside the requester's own progress does not block or free it. -/
theorem SameOutside.requesterFree {s t : State} (h : SameOutside s t) (hs : s.requesterFree) : t.requesterFree :=
  ⟨h.halted.trans hs.1, h.waiting.trans hs.2⟩

theorem sameOutside_push (s : State) (ms : List Micro) : SameOutside s (s.push ms) := by constructor <;> rfl

/-- The turn that runs the first piece of an expansion finds the other pieces before what was left to run. -/
theorem requesterStep_push {s : State} (h : s.requesterFree) (m : Micro) (ms : List Micro) :
    requesterStep (s.push (m :: ms)) = thenDo (runMicro m (s.push ms)) retire :=
  requesterStep_micro (s := s.push (m :: ms)) h rfl

/-- The turn that runs a piece which answers `t` ends in `t`, with the end of the statement if nothing is left. -/
theorem requesterStep_of_piece {s t : State} {m : Micro} {rest : List Micro} (h : s.requesterFree)
    (ht : s.todo = m :: rest) (hm : runMicro m { s with todo := rest } = .next t) :
    requesterStep s = .next (retire t) := by
  rw [requesterStep_micro h ht, hm]
  rfl

/-! ### SETTLE_DELAY (spec/42_driver_protocol.md R151) -/

/-- A turn that runs a TICK (R113). -/
theorem tickTurn {s : State} {rest : List Micro} (h : s.requesterFree) (ht : s.todo = .run .tick :: rest) :
    ∃ t, requesterStep s = .next t ∧ (∀ k, t.chan k = (s.chan k).tickSettle) ∧ t.todo = rest ∧
      t.faults = s.faults ∧ SameOutside s t := by
  refine ⟨_, requesterStep_of_piece h ht (exec_tick _), fun k => ?_, retire_todo _, retire_faults _, ?_⟩
  · rw [chan_retire, log_chan, tickAll_chan]
    rfl
  · refine SameOutside.trans ?_ (sameOutside_retire _)
    exact sameOutside_rest s _ _ _ _ _ _ _ _ _

/-- As many turns as TICKs stand next to run take as much from every settle counter. -/
theorem tickTurns (k : Nat) {s : State} {rest : List Micro} (h : s.requesterFree)
    (ht : s.todo = List.replicate k (.run .tick) ++ rest) :
    ∃ t, requesterTurns k s = .next t ∧ (∀ m, t.chan m = { s.chan m with settle := (s.chan m).settle - k }) ∧
      t.todo = rest ∧ t.faults = s.faults ∧ SameOutside s t := by
  induction k generalizing s with
  | zero => exact ⟨s, rfl, fun _ => rfl, ht, rfl, .refl s⟩
  | succ k ih =>
    obtain ⟨t, hstep, hchan, htodo, hfaults, hout⟩ := tickTurn h ht
    obtain ⟨u, hturns, hchan', htodo', hfaults', hout'⟩ := ih (hout.requesterFree h) htodo
    refine ⟨u, (requesterTurns_succ hstep).trans hturns, fun m => ?_, htodo', hfaults'.trans hfaults, hout.trans hout'⟩
    rw [hchan', hchan, ChannelState.tickSettle, Nat.sub_sub, Nat.add_comm]

/-- Settles O41: the expansion is SETTLE_CYCLES TICKs, each a turn of its own. -/
theorem settleDelayElapses : Obligations.SettleDelayElapses := by
  unfold Obligations.SettleDelayElapses
  intro s h
  obtain ⟨u, hturns, hchan, htodo, hfaults, hout⟩ :=
    tickTurns s.params.settleCycles (s := s.push (List.replicate s.params.settleCycles (.run .tick))) h rfl
  exact ⟨_, u, rfl, hturns, hchan, htodo, hfaults, (sameOutside_push s _).trans hout⟩

end Sys2Proof.Machine

namespace Sys2Proof.Machine

/-! ### IS_BUSY (spec/42_driver_protocol.md R150) -/

/-- The state after `RD n.CNT` (R107). -/
def State.cntRead (s : State) (n : ChanId) : State := registerRead n .cnt (readCnt n) s

theorem exec_rdCnt (s : State) (n : ChanId) : exec (.rdCnt n) s = .next (s.cntRead n) := rfl

/-- The state after `IS_BUSY n`: a read of CNT whose bit 31 is kept (R150). -/
def State.busyRead (s : State) (n : ChanId) : State :=
  { s.cntRead n with lastBusy := (s.cntRead n).lastRead.map busyBit }

theorem exec_isBusy (s : State) (n : ChanId) : exec (.isBusy n) s = .next (s.busyRead n) := rfl

theorem cntRead_of_settled {s : State} {n : ChanId} (h : s.settleHit n = false) : s.cntRead n = { s with
    draws := s.draws + 1
    lastRead := some (cntReadback (s.chan n) s.drawWord)
    events := s.events ++ [.transaction (regOp false n .cnt) none (some (cntReadback (s.chan n) s.drawWord)) []] } :=
  Host.Outcome.next.inj (exec_rdCnt_of_settled h)

theorem cntRead_of_hit {s : State} {n : ChanId} (h : s.settleHit n = true) : s.cntRead n = { s with
    faults := s.faults ++ [{ info := .settleViolation n (regOp false n .cnt), step := s.clock }]
    lastRead := none
    events := s.events ++ [.transaction (regOp false n .cnt) none none
      [{ info := .settleViolation n (regOp false n .cnt), step := s.clock }]] } :=
  registerRead_of_hit h .cnt (readCnt n)

/-- The bits of a word read from CNT that the waits test are live (R107). -/
@[simp] theorem busyBit_cntReadback (c : ChannelState) (x : Word) : busyBit (cntReadback c x) = c.enabled :=
  (cntReadback_bits c x).1

@[simp] theorem cntIrq_cntReadback (c : ChannelState) (x : Word) : cntIrq (cntReadback c x) = cntIrq c.cnt := by
  obtain ⟨-, live, -⟩ := cntReadback_bits c x
  exact live 30 (by decide)

/-- Settles O40: the bit kept is bit 31 of the word that the read of CNT returned, if it returned one. -/
theorem isBusyReadsEnable : Obligations.IsBusyReadsEnable := by
  unfold Obligations.IsBusyReadsEnable
  refine fun s n => ⟨fun h => ⟨cntReadback (s.chan n) s.drawWord, busyBit_cntReadback _ _, ?settled⟩, fun h => ?hit⟩
  case settled =>
    rw [exec_isBusy, State.busyRead, cntRead_of_settled h, Option.map_some, busyBit_cntReadback]
  case hit =>
    rw [exec_isBusy, State.busyRead, cntRead_of_hit (settleHit_iff.2 h), Option.map_none]

/-! ### The wait loops (spec/42_driver_protocol.md R152, R153) -/

section cntRead
variable (s : State) (n : ChanId)

/-- A read of CNT changes no channel, nothing outside the requester and its records, and nothing left to run. -/
theorem cntRead_frame : (s.cntRead n).chans = s.chans ∧ (s.cntRead n).todo = s.todo ∧ SameOutside s (s.cntRead n) := by
  cases h : s.settleHit n with
  | false => rw [cntRead_of_settled h]; exact ⟨rfl, rfl, sameOutside_rest s ..⟩
  | true => rw [cntRead_of_hit h]; exact ⟨rfl, rfl, sameOutside_rest s ..⟩

theorem cntRead_faults : (s.cntRead n).faults = s.faults ++
    (if s.settleHit n then [{ info := .settleViolation n (regOp false n .cnt), step := s.clock }] else []) := by
  cases h : s.settleHit n with
  | false => rw [cntRead_of_settled h]; exact (List.append_nil _).symm
  | true => rw [cntRead_of_hit h]; rfl

/-- The read returns nothing inside a settle period (log 11). -/
theorem cntRead_lastRead : (s.cntRead n).lastRead =
    if s.settleHit n then none else some (cntReadback (s.chan n) s.drawWord) := by
  cases h : s.settleHit n with
  | false => rw [cntRead_of_settled h]; rfl
  | true => rw [cntRead_of_hit h]; rfl

/-- A read of CNT runs the same before whatever is left to run. -/
theorem cntRead_push (ms : List Micro) : (s.push ms).cntRead n = (s.cntRead n).push ms := by
  cases h : s.settleHit n with
  | false => rw [cntRead_of_settled h, cntRead_of_settled (s := s.push ms) h]; rfl
  | true => rw [cntRead_of_hit h, cntRead_of_hit (s := s.push ms) h]; rfl

theorem busyRead_lastBusy :
    (s.busyRead n).lastBusy = if s.settleHit n then none else some (s.chan n).enabled := by
  rw [State.busyRead, cntRead_lastRead]
  split <;> simp

theorem busyRead_frame : (s.busyRead n).chans = s.chans ∧ (s.busyRead n).todo = s.todo ∧
    SameOutside s (s.busyRead n) := by
  obtain ⟨hchans, htodo, hout⟩ := cntRead_frame s n
  exact ⟨hchans, htodo, hout.trans (sameOutside_rest (s.cntRead n) ..)⟩

theorem busyRead_push (ms : List Micro) : (s.push ms).busyRead n = (s.busyRead n).push ms := by
  rw [State.busyRead, cntRead_push]
  rfl

/-! What the decisions do to the rest of the expansion. -/

theorem pollCheck_todo : (pollCheck n s).todo =
    (if s.lastBusy = some false then [] else [.run .vblankWait, .run (.isBusy n), .pollCheck n]) ++ s.todo := by
  unfold pollCheck
  split <;> rfl

theorem pollCheck_faults : (pollCheck n s).faults = s.faults := by
  unfold pollCheck
  split <;> rfl

theorem sameOutside_pollCheck : SameOutside s (pollCheck n s) := by
  unfold pollCheck
  split
  · exact .refl s
  · exact sameOutside_push s _

/-- The three outcomes of the decision of `WAIT_IRQ`: it returns, raises and returns, or loops (R153, log 11). -/
theorem irqCheck_returns {x : Word} (hr : s.lastRead = some x) (hb : busyBit x = false) : irqCheck n s = s := by
  simp [irqCheck, hr, hb]

theorem irqCheck_raises {x : Word} (hr : s.lastRead = some x) (hb : busyBit x = true) (hi : cntIrq x = false) :
    irqCheck n s = s.raise (.irqWaitMisconfigured n .noRequest) := by
  simp [irqCheck, hr, hb, hi]

theorem irqCheck_loops (h : ∀ x, s.lastRead = some x → busyBit x = true ∧ cntIrq x = true) :
    irqCheck n s = s.push [.run (.waitInt n false), .run (.rdCnt n), .irqCheck n] := by
  unfold irqCheck
  split
  · rfl
  · obtain ⟨hb, hi⟩ := h _ ‹_›
    simp [hb, hi, irqLoop]

theorem sameOutside_irqCheck : SameOutside s (irqCheck n s) := by
  unfold irqCheck
  split
  · exact sameOutside_push s _
  · split
    · exact .refl s
    · split
      · exact sameOutside_rest s ..
      · exact sameOutside_push s _

end cntRead

/-- The two turns of a wait loop: its read, which answers `t`, and its decision on `t`. -/
theorem requesterTurns_readAndDecide {s t u : State} {i : Instr} {m : Micro} (h : s.requesterFree)
    (ht : SameOutside s t) (hi : exec i (s.push [m]) = .next (t.push [m])) (hm : runMicro m t = .next u) :
    requesterTurns 2 (s.push [.run i, m]) = .next (retire u) := by
  have hread : requesterStep (s.push [.run i, m]) = .next (t.push [m]) := by
    rw [requesterStep_push h, runMicro, hi, thenDo, retire_of_todo (by simp)]
  have hdecide : requesterStep (t.push [m]) = .next (retire u) := by
    rw [requesterStep_push (ht.requesterFree h), push_nil, hm, thenDo]
  rw [requesterTurns_succ hread, requesterTurns_succ hdecide, requesterTurns]

/-- Settles O42: the decision returns exactly if the bit that `IS_BUSY` kept is 0, and it keeps none inside a settle
period. -/
theorem waitPollReturnsWhenIdle : Obligations.WaitPollReturnsWhenIdle := by
  unfold Obligations.WaitPollReturnsWhenIdle
  refine ⟨fun s n h => ?turns, fun s u n hu => ?decision⟩
  case turns =>
    obtain ⟨hchans, htodo, hout⟩ := busyRead_frame s n
    have hturns : requesterTurns 2 (s.push (pollLoop n)) = .next (retire (pollCheck n (s.busyRead n))) :=
      requesterTurns_readAndDecide h hout (by rw [exec_isBusy, busyRead_push]) rfl
    refine ⟨_, _, rfl, hturns, ?_, (hout.trans (sameOutside_pollCheck _ n)).trans (sameOutside_retire _), ?_, ?_⟩
    · rw [retire_chans, (bookkeeping_pollCheck _ n).chans, hchans]
    · rw [retire_faults, pollCheck_faults]
      exact cntRead_faults s n
    · rw [retire_todo, pollCheck_todo, busyRead_lastBusy, htodo]
      cases s.settleHit n <;> simp
  case decision =>
    obtain rfl : pollCheck n s = u := Host.Outcome.next.inj hu
    rw [pollCheck_todo]
    by_cases hb : s.lastBusy = some false
    · exact .inl ⟨by simp [hb], hb⟩
    · exact .inr (by rw [if_neg hb])

/-- `WAIT_IRQ` with the platform's enable bit set: after two turns it has read CNT and decided on what it read (R153). -/
theorem waitIrq_turns {s : State} {n : ChanId} (hie : s.platIe.get n = true) (h : s.requesterFree) :
    ∃ t, exec (.waitIrq n) s = .next t ∧ requesterTurns 2 t = .next (retire (irqCheck n (s.cntRead n))) ∧
      (retire (irqCheck n (s.cntRead n))).chans = s.chans ∧ SameOutside s (retire (irqCheck n (s.cntRead n))) := by
  obtain ⟨hchans, -, hout⟩ := cntRead_frame s n
  refine ⟨s.push (irqLoop n), ?_, ?_, ?_, ?_⟩
  · simp [exec, execWaitIrq, hie]
  · exact requesterTurns_readAndDecide h hout (by rw [exec_rdCnt, cntRead_push]) rfl
  · rw [retire_chans, (bookkeeping_irqCheck _ n).chans, hchans]
  · exact (hout.trans (sameOutside_irqCheck _ n)).trans (sameOutside_retire _)

/-- Settles O43: by whether the read returned a word, and by bits 31 and 30 of that word. -/
theorem waitIrqChecksAndLoops : Obligations.WaitIrqChecksAndLoops := by
  unfold Obligations.WaitIrqChecksAndLoops
  intro s n
  obtain ⟨-, htodo, hout⟩ := cntRead_frame s n
  have hclock : (s.cntRead n).clock = s.clock := hout.clock
  have hfaults := cntRead_faults s n
  have hread := cntRead_lastRead s n
  refine ⟨fun hie => ?platform, fun hie h hit => ?hit, fun hie h hsettled => ?settled⟩
  case platform => simp [exec, execWaitIrq, hie]
  case hit =>
    obtain ⟨t, hexec, hturns, hchans, hout⟩ := waitIrq_turns hie h
    rw [if_pos hit] at hread hfaults
    have hloop := irqCheck_loops (s.cntRead n) n (by simp [hread])
    refine ⟨t, _, hexec, hturns, hchans, hout, ?_, ?_⟩ <;> rw [hloop]
    · rw [retire_faults, push_faults, hfaults]
    · rw [retire_todo, push_todo, htodo]
  case settled =>
    obtain ⟨t, hexec, hturns, hchans, hout⟩ := waitIrq_turns hie h
    rw [hsettled, if_neg Bool.false_ne_true] at hread hfaults
    rw [List.append_nil] at hfaults
    refine ⟨t, _, hexec, hturns, hchans, hout, fun hidle => ?idle, fun hen hirq => ?noRequest, fun hen hirq => ?loops⟩
    case idle =>
      rw [irqCheck_returns _ n hread (by rw [busyBit_cntReadback, hidle]), retire_todo, retire_faults]
      exact ⟨htodo, hfaults⟩
    case noRequest =>
      rw [irqCheck_raises _ n hread (by rw [busyBit_cntReadback, hen]) (by rw [cntIrq_cntReadback, hirq]), retire_todo,
        retire_faults, raise_todo, raise_faults, hfaults, hclock]
      exact ⟨htodo, rfl⟩
    case loops =>
      rw [irqCheck_loops _ n (by simp [hread, hen, hirq]), retire_todo, retire_faults, push_todo, push_faults, htodo]
      exact ⟨hfaults, rfl⟩

end Sys2Proof.Machine

namespace Sys2Proof.Machine

/-! ### The waits and the façade (spec/42_driver_protocol.md R154, R163-R166) -/

/-- Settles O44: `WAIT_FOR` leaves the wait that the strategy names as the one piece to run. -/
theorem waitForFollowsStrategy : Obligations.WaitForFollowsStrategy := by
  unfold Obligations.WaitForFollowsStrategy
  intro s n h
  refine ⟨_, rfl, fun hpoll => ?_, fun hirq => ?_⟩
  · rw [hpoll, requesterStep_push h, push_nil, runMicro]
  · rw [hirq, requesterStep_push h, push_nil, runMicro]

theorem widthOfBytes_ne_none {w : Nat} (h : w = 2 ∨ w = 4) : widthOfBytes w ≠ none := by
  rw [Ne, widthOfBytes_none]
  omega

/-- Settles O49: the size is checked first. -/
theorem facadeRejectsElementSize : Obligations.FacadeRejectsElementSize := by
  unfold Obligations.FacadeRejectsElementSize
  intro s esize h2 h4
  have hsize : widthOfBytes esize = none := widthOfBytes_none.2 ⟨h2, h4⟩
  exact ⟨fun _ _ _ _ => congrArg Host.Outcome.next (if_pos hsize),
    fun _ _ _ => congrArg Host.Outcome.next (if_pos hsize)⟩

/-- Settles O50: a size that passes the check leaves the sequence to run. -/
theorem facadeSequences : Obligations.FacadeSequences := by
  unfold Obligations.FacadeSequences
  intro s esize h
  have hsize : widthOfBytes esize ≠ none := widthOfBytes_ne_none h
  exact ⟨fun _ _ _ _ => congrArg Host.Outcome.next (if_neg hsize),
    fun _ _ _ => congrArg Host.Outcome.next (if_neg hsize)⟩

/-! ### The issuer (spec/42_driver_protocol.md R156-R158, R162) -/

/-- A request that passes `check_request` goes on to its register writes (R157, R158). -/
theorem exec_issue_accepted (s : State) (n : ChanId) {req : Request} {w : Width} (hw : widthOfBytes req.width = some w)
    (hlen : req.len ≤ 0x1FFFFF) : exec (.issue n req) s = .next (s.push (issueSequence s.params n req w)) := by
  simp [exec, execIssue, issueRequest, hw, Nat.not_lt.2 hlen]

/-- Settles O45: the width is checked first, then the length. -/
theorem issuerRejectsBadRequests : Obligations.IssuerRejectsBadRequests := by
  unfold Obligations.IssuerRejectsBadRequests
  refine fun s n req => ⟨fun h2 h4 => ?width, fun hwidth hlen => ?length⟩
  case width =>
    have hw : widthOfBytes req.width = none := widthOfBytes_none.2 ⟨h2, h4⟩
    simp [exec, execIssue, issueRequest, hw]
  case length =>
    obtain ⟨w, hw⟩ := Option.ne_none_iff_exists'.1 (widthOfBytes_ne_none hwidth)
    simp [exec, execIssue, issueRequest, hw, hlen]

/-- Settles O46: the control word decodes to the fields it is composed of, and the writes are those of the kind of the
request. -/
theorem issueWritesInOrder : Obligations.IssueWritesInOrder := by
  unfold Obligations.IssueWritesInOrder
  intro s n req w hwidth hlen
  have hw : widthOfBytes req.width = some w := by
    rcases hwidth with ⟨rfl, h⟩ | ⟨rfl, h⟩ <;> rw [h] <;> rfl
  have hexec := exec_issue_accepted s n hw hlen
  refine ⟨issueWord req w, decodeControl_encodeControl _, fun hkind => ?copy, fun hkind => ?fill⟩
  case copy =>
    rw [hexec, issueSequence, hkind]
    rfl
  case fill =>
    refine ⟨fillWord req.srcOrValue w, fun hhalf => hhalf ▸ rfl, fun hword => hword ▸ rfl, ?_⟩
    rw [hexec, issueSequence, hkind]
    rfl

/-! ### CANCEL (spec/42_driver_protocol.md R168) -/

/-- Settles O51: an Idle channel is configured with 0, and an Armed one is cancelled. -/
theorem cancelWritesZero : Obligations.CancelWritesZero := by
  unfold Obligations.CancelWritesZero
  intro s n
  refine ⟨_, rfl, rfl, onlyChannel_registerAccess (i := .wrCnt n 0) rfl rfl, fun h => ?_⟩
  have h0 : cntEnable 0 = false := by decide
  cases he : (s.chan n).enabled with
  | false =>
    obtain ⟨t, hexec, hcnt, hchan, hfaults, hirq, hplatIf, -, -⟩ := cntWriteConfigures s n 0 h he h0
    obtain rfl := Host.Outcome.next.inj hexec
    refine ⟨by rw [hchan, he], hcnt, hirq, hplatIf, fun _ => ?_⟩
    rw [hfaults, if_neg (by simp), List.append_nil]
  | true =>
    obtain ⟨t, hexec, hcnt, hchan, hirq, hplatIf, -, hother, -⟩ := cancellationHalts s n 0 h he h0
    obtain rfl := Host.Outcome.next.inj hexec
    refine ⟨by rw [hchan], hcnt, hirq, hplatIf, fun hu => ?_⟩
    obtain ⟨-, -, -, hfaults, -⟩ := hother hu
    rw [hfaults]
    cases cntRepeat (s.chan n).cnt <;> simp

end Sys2Proof.Machine

namespace Sys2Proof.Machine

/-! ### The expansion of an issue (spec/42_driver_protocol.md R156, R158-R161) -/

/-- Channel n is what `f` makes of it, no fault has been raised, and nothing else changes but the requester's progress
and the records. -/
structure Updates (n : ChanId) (f : ChannelState → ChannelState) (s t : State) : Prop where
  chan : t.chan n = f (s.chan n)
  others : ∀ m, m ≠ n → t.chan m = s.chan m
  faults : t.faults = s.faults
  outside : SameOutside s t

theorem Updates.trans {n : ChanId} {f g : ChannelState → ChannelState} {s t u : State} (h : Updates n f s t)
    (h' : Updates n g t u) : Updates n (fun c => g (f c)) s u where
  chan := h'.chan.trans (congrArg g h.chan)
  others m hm := (h'.others m hm).trans (h.others m hm)
  faults := h'.faults.trans h.faults
  outside := h.outside.trans h'.outside

/-- An update that keeps the settle counter starts and ends no settle period. -/
theorem Updates.settleHit {n : ChanId} {f : ChannelState → ChannelState} {s t : State} (h : Updates n f s t)
    (hf : ∀ c, (f c).settle = c.settle) (m : ChanId) : t.settleHit m = s.settleHit m := by
  have hsettle (k : ChanId) : (t.chan k).settle = (s.chan k).settle := by
    by_cases hk : k = n
    · rw [hk, h.chan, hf]
    · rw [h.others k hk]
  unfold State.settleHit
  simp only [hsettle, h.outside.params]

theorem updates_retire (n : ChanId) (s : State) : Updates n (fun c => c) s (retire s) :=
  ⟨chan_retire s n, fun m _ => chan_retire s m, retire_faults s, sameOutside_retire s⟩

/-- The turn that runs an instruction of an expansion which updates channel n. -/
theorem updateTurn {s : State} {n : ChanId} {f : ChannelState → ChannelState} {i : Instr} {rest : List Micro}
    (hfree : s.requesterFree) (ht : s.todo = .run i :: rest)
    (hrun : ∃ t, exec i { s with todo := rest } = .next t ∧ t.todo = rest ∧ Updates n f { s with todo := rest } t) :
    ∃ u, requesterStep s = .next u ∧ u.todo = rest ∧ Updates n f s u := by
  obtain ⟨t, hexec, htodo, hu⟩ := hrun
  have htaken : Updates n (fun c => c) s { s with todo := rest } :=
    ⟨rfl, fun _ _ => rfl, rfl, sameOutside_rest s ..⟩
  exact ⟨_, requesterStep_of_piece hfree ht hexec, (retire_todo t).trans htodo,
    (htaken.trans hu).trans (updates_retire n t)⟩

/-- What the register writes of an issue need of channel n: the requester is free, no settle delay covers the channel,
and the channel is Idle. -/
structure ReadyToIssue (s : State) (n : ChanId) : Prop where
  free : s.requesterFree
  settled : s.settleHit n = false
  idle : (s.chan n).enabled = false

theorem ReadyToIssue.withTodo {s : State} {n : ChanId} (h : ReadyToIssue s n) (rest : List Micro) :
    ReadyToIssue { s with todo := rest } n := ⟨h.free, h.settled, h.idle⟩

/-- The channel after `d` has been stored in a register (R109-R111). -/
def ChannelState.store (c : ChannelState) (d : Word) : Reg → ChannelState
  | .sad => { c with sad := d, sadW := true }
  | .dad => { c with dad := d, dadW := true }
  | .fill => { c with fill := d, fillW := true }
  | .cnt => c.storeCnt d

@[simp] theorem store_settle (c : ChannelState) (d : Word) (r : Reg) : (c.store d r).settle = c.settle := by
  cases r <;> rfl

@[simp] theorem store_enabled (c : ChannelState) (d : Word) (r : Reg) : (c.store d r).enabled = c.enabled := by
  cases r <;> rfl

/-- A store leaves a channel ready that was. -/
theorem ReadyToIssue.of_store {n : ChanId} {s t : State} {d : Word} {r : Reg} (h : ReadyToIssue s n)
    (hu : Updates n (·.store d r) s t) : ReadyToIssue t n where
  free := hu.outside.requesterFree h.free
  settled := (hu.settleHit (fun c => store_settle c d r) n).trans h.settled
  idle := by rw [hu.chan, store_enabled, h.idle]

/-- A write of SAD, DAD or FILL on an Idle channel stores, and raises nothing (R109, R111). -/
theorem exec_store {s : State} {n : ChanId} (h : ReadyToIssue s n) (d : Word) {r : Reg} (hr : r ≠ .cnt) :
    ∃ t, exec (writeInstr n r d) s = .next t ∧ t.todo = s.todo ∧ Updates n (·.store d r) s t := by
  have hstores : ∃ t, exec (writeInstr n r d) s = .next t ∧ t.chan n = (s.chan n).store d r ∧
      t.faults = s.faults ++ (if (s.chan n).enabled then [{ info := .issueOnBusy n r, step := s.clock }] else []) ∧
      t.irq = s.irq ∧ t.platIf = s.platIf ∧ SameUnit s t ∧ OnlyChannel n s t := by
    obtain ⟨hsad, hdad, hfill⟩ := registerWritesStore s n d h.settled
    cases r with
    | sad => exact hsad
    | dad => exact hdad
    | fill => exact hfill
    | cnt => exact absurd rfl hr
  obtain ⟨t, hexec, hchan, hfaults, hirq, hplatIf, hunit, honly⟩ := hstores
  rw [h.idle, if_neg Bool.false_ne_true, List.append_nil] at hfaults
  exact ⟨t, hexec, honly.todo, hchan, honly.others, hfaults, sameOutside_of honly hunit hirq hplatIf⟩

/-- The turn of an expansion that stores into a register of an Idle channel. -/
theorem storeTurn {s : State} {n : ChanId} {rest : List Micro} (h : ReadyToIssue s n) (r : Reg) {d : Word}
    (hr : r ≠ .cnt) (ht : s.todo = .run (writeInstr n r d) :: rest) :
    ∃ t, requesterStep s = .next t ∧ t.todo = rest ∧ Updates n (·.store d r) s t :=
  updateTurn h.free ht (exec_store (h.withTodo rest) d hr)

/-! The arming write of an issue. -/

/-- The fields of the control word of an issue (R156). -/
theorem fields_issueWord (req : Request) (w : Width) :
    cntCount (issueWord req w) = BitVec.ofNat 21 req.len ∧ cntDstMode (issueWord req w) = req.dstMode ∧
    cntSrcMode (issueWord req w) = some req.srcMode ∧ cntRepeat (issueWord req w) = false ∧
    cntWidth (issueWord req w) = w ∧ cntTiming (issueWord req w) = .immediate ∧ cntIrq (issueWord req w) = true ∧
    cntEnable (issueWord req w) = true :=
  fields_encodeControl _

/-- A length that the issuer accepts fits in COUNT, and is not the zero that R138 speaks of. -/
theorem countOf_issueWord (p : Params) {req : Request} (w : Width) (h1 : 1 ≤ req.len) (h2 : req.len ≤ 0x1FFFFF) :
    countOf p (issueWord req w) = some req.len := by
  obtain ⟨hcount, -⟩ := fields_issueWord req w
  have hlen : (BitVec.ofNat 21 req.len).toNat = req.len := by
    rw [BitVec.toNat_ofNat, Nat.mod_eq_of_lt (by omega)]
  have hne : BitVec.ofNat 21 req.len ≠ 0 := by
    intro h0
    rw [h0] at hlen
    exact absurd hlen.symm (Nat.ne_of_gt h1)
  rw [countOf, hcount, if_pos hne, hlen]

/-- The channel that a clean Immediate arming write of `d` leaves: running, with its whole block as budget (R126, R127). -/
def ChannelState.startedBy (c : ChannelState) (p : Params) (d : Word) (count : Nat) : ChannelState :=
  { c.armedBy p d count with running := true, budget := count }

/-- The turn of an expansion that arms a channel with the word of an issue, after its addresses have been written. -/
theorem armingTurn {s : State} {n : ChanId} {req : Request} {w : Width} {rest : List Micro} (h : ReadyToIssue s n)
    (ht : s.todo = .run (.wrCnt n (issueWord req w)) :: rest) (h1 : 1 ≤ req.len) (h2 : req.len ≤ 0x1FFFFF)
    (hsadW : (s.chan n).sadW = true) (hdadW : (s.chan n).dadW = true)
    (hsrc : misaligned ((s.chan n).sad &&& s.params.addrMask) w = false)
    (hdst : misaligned ((s.chan n).dad &&& s.params.addrMask) w = false) :
    ∃ t, requesterStep s = .next t ∧ t.todo = rest ∧
      Updates n (·.startedBy s.params (issueWord req w) req.len) s t := by
  obtain ⟨-, -, hmode, hrepeat, hwidth, htiming, -, henable⟩ := fields_issueWord req w
  obtain ⟨t, hexec, hfaults, hunit, honly, hstarts, -⟩ :=
    immediateArming { s with todo := rest } n (issueWord req w) req.len h.settled h.idle henable (by simp [hmode]) hsadW
      hdadW (.inl hrepeat) htiming (countOf_issueWord s.params w h1 h2) (by rw [hwidth]; exact hsrc)
      (by rw [hwidth]; exact hdst)
  obtain ⟨-, hirq, hplatIf, hchan⟩ := hstarts (Nat.ne_of_gt h1)
  exact updateTurn h.free ht
    ⟨t, hexec, honly.todo, hchan, honly.others, hfaults, sameOutside_of honly hunit hirq hplatIf⟩

/-- The channel that an issue leaves, which has written `src` and `dst` to SAD and DAD and armed it with `d`. -/
def ChannelState.issued (c : ChannelState) (p : Params) (src dst d : Word) (len : Nat) : ChannelState :=
  ((c.store src .sad).store dst .dad).startedBy p d len

/-- The three turns that every issue ends in, up to the arming write: SAD, DAD, CNT (R158). -/
theorem addressAndArmTurns {s : State} {n : ChanId} {req : Request} {w : Width} {src : Word} {rest : List Micro}
    (h : ReadyToIssue s n)
    (ht : s.todo = .run (.wrSad n src) :: .run (.wrDad n req.dst) :: .run (.wrCnt n (issueWord req w)) :: rest)
    (h1 : 1 ≤ req.len) (h2 : req.len ≤ 0x1FFFFF) (hsrc : misaligned (src &&& s.params.addrMask) w = false)
    (hdst : misaligned (req.dst &&& s.params.addrMask) w = false) :
    ∃ t, requesterTurns 3 s = .next t ∧ t.todo = rest ∧
      Updates n (·.issued s.params src req.dst (issueWord req w) req.len) s t := by
  obtain ⟨s1, hstep1, htodo1, hu1⟩ := storeTurn h .sad (by decide) ht
  obtain ⟨s2, hstep2, htodo2, hu2⟩ := storeTurn (h.of_store hu1) .dad (by decide) htodo1
  have hu := hu1.trans hu2
  have hparams : s2.params = s.params := hu.outside.params
  obtain ⟨s3, hstep3, htodo3, hu3⟩ := armingTurn ((h.of_store hu1).of_store hu2) htodo2 h1 h2 (by rw [hu.chan]; rfl)
    (by rw [hu.chan]; rfl) (by rw [hu.chan, hparams]; exact hsrc) (by rw [hu.chan, hparams]; exact hdst)
  rw [hparams] at hu3
  refine ⟨s3, ?_, htodo3, hu.trans hu3⟩
  rw [requesterTurns_succ hstep1, requesterTurns_succ hstep2, requesterTurns_succ hstep3, requesterTurns]

/-- The fields of the control word of an issued channel. -/
theorem fields_issued (c : ChannelState) (p : Params) (src dst : Word) (req : Request) (w : Width) (len : Nat) :
    let i := c.issued p src dst (issueWord req w) len
    i.width = w ∧ cntSrcMode i.cnt = some req.srcMode ∧ cntDstMode i.cnt = req.dstMode ∧ cntIrq i.cnt = true ∧
      cntRepeat i.cnt = false := by
  obtain ⟨-, hdst, hsrc, hrepeat, hwidth, -, hirq, henable⟩ := fields_issueWord req w
  have hcnt : (c.issued p src dst (issueWord req w) len).cnt = issueWord req w :=
    cnt_armedBy ((c.store src .sad).store dst .dad) p len henable
  dsimp only
  rw [ChannelState.width, hcnt]
  exact ⟨hwidth, hsrc, hdst, hirq, hrepeat⟩

/-- The turn that runs an accepted `ISSUE` leaves its register writes to run (R156). -/
theorem issueTurn {s : State} {n : ChanId} {req : Request} {w : Width} (h : s.requesterFree)
    (hw : widthOfBytes req.width = some w) (hlen : req.len ≤ 0x1FFFFF) :
    requesterStep (s.push [.run (.issue n req)]) = .next (s.push (issueSequence s.params n req w)) := by
  rw [requesterStep_push h, push_nil, runMicro, exec_issue_accepted s n hw hlen, thenDo,
    retire_of_todo (by simp [issueSequence])]

theorem widthOfBytes_widthBytes (w : Width) : widthOfBytes (widthBytes w) = some w := by cases w <;> rfl

/-- Settles O47: the issue, the two addresses and the arming write take a turn each. -/
theorem issueCopyArmsTransfer : Obligations.IssueCopyArmsTransfer := by
  unfold Obligations.IssueCopyArmsTransfer
  refine ⟨fun s n src dst len w h => ⟨_, rfl, requesterStep_push h _ []⟩,
    fun s n src dst len w h hsettled hidle h1 h2 hsrc hdst => ?_⟩
  have hissue := issueTurn (n := n) (req := copyRequest src dst len (widthBytes w)) h (widthOfBytes_widthBytes w) h2
  have hready : ReadyToIssue (s.push (issueSequence s.params n (copyRequest src dst len (widthBytes w)) w)) n :=
    ⟨h, hsettled, hidle⟩
  obtain ⟨u, hturns, htodo, hu⟩ := addressAndArmTurns hready rfl h1 h2 hsrc hdst
  have hchan : u.chan n = (s.chan n).issued .. := hu.chan
  obtain ⟨hwidth, hsrcMode, hdstMode, hirq, hrepeat⟩ :=
    fields_issued (s.chan n) s.params src dst (copyRequest src dst len (widthBytes w)) w len
  refine ⟨_, u, rfl, (requesterTurns_succ hissue).trans hturns, hu.faults, (sameOutside_push s _).trans hu.outside,
    hu.others, htodo, ?_⟩
  rw [hchan]
  exact ⟨rfl, rfl, rfl, rfl, rfl, rfl, rfl, rfl, rfl, rfl, hwidth, hsrcMode, hdstMode, hirq, hrepeat⟩

/-- Settles O48: the issue, the fill word, the two addresses and the arming write take a turn each. -/
theorem issueFillArmsTransfer : Obligations.IssueFillArmsTransfer := by
  unfold Obligations.IssueFillArmsTransfer
  refine ⟨fun s n value dst len w h => ⟨_, rfl, requesterStep_push h _ []⟩,
    fun s n value dst len w h hsettled hidle h1 h2 hcell hdst => ?_⟩
  have hissue := issueTurn (n := n) (req := fillRequest value dst len (widthBytes w)) h (widthOfBytes_widthBytes w) h2
  have hready : ReadyToIssue (s.push (issueSequence s.params n (fillRequest value dst len (widthBytes w)) w)) n :=
    ⟨h, hsettled, hidle⟩
  obtain ⟨t, hstep, htodoFill, hfill⟩ := storeTurn (d := fillWord value w) hready .fill (by decide) rfl
  have hparams : t.params = s.params := hfill.outside.params
  obtain ⟨u, hturns, htodo, harm⟩ := addressAndArmTurns (hready.of_store hfill) htodoFill h1 h2
    (by rw [hparams]; exact hcell) (by rw [hparams]; exact hdst)
  rw [hparams] at harm
  have hu := hfill.trans harm
  have hchan : u.chan n = ((s.chan n).store (fillWord value w) .fill).issued .. := hu.chan
  obtain ⟨hwidth, hsrcMode, hdstMode, hirq, hrepeat⟩ := fields_issued ((s.chan n).store (fillWord value w) .fill)
    s.params (s.params.regAddr n .fill) dst (fillRequest value dst len (widthBytes w)) w len
  refine ⟨_, u, rfl, ?_, hu.faults, (sameOutside_push s _).trans hu.outside, hu.others, htodo, ?_⟩
  · rw [requesterTurns_succ hissue, requesterTurns_succ hstep, hturns]
  · rw [hchan]
    exact ⟨rfl, rfl, rfl, by cases w <;> rfl, rfl, rfl, rfl, rfl, rfl, rfl, rfl, rfl, hwidth, hsrcMode, hdstMode, hirq,
      hrepeat⟩

end Sys2Proof.Machine

namespace Sys2Proof.Machine

/-! ### The records of a register transaction (spec/60_exceptions.md R191; 40_register_access.md R117) -/

/-- From `s` to `t` at most three faults have been recorded, and the last new entry of `events` is that of the
transaction `op`, with its operand, its result and those faults. -/
def RecordsTransaction (s t : State) (op : BitVec 6) (operand result : Option Word) : Prop :=
  s.faults <+: t.faults ∧ t.faults.length ≤ s.faults.length + 3 ∧
    ∃ caused, t.events = s.events ++ caused ++ [.transaction op operand result (t.faults.drop s.faults.length)]

theorem recordsTransaction_logTransaction {n : ChanId} {s u : State} (ho : OnlyChannel n s u)
    (hcount : u.faults.length ≤ s.faults.length + 3) (op : BitVec 6) (x y : Option Word) :
    RecordsTransaction s (u.logTransaction op x y s) op x y := by
  obtain ⟨caused, hevents⟩ := ho.events
  exact ⟨ho.faults, hcount, caused, by rw [hevents]; rfl⟩

theorem faults_raise_le (s : State) (f : FaultInfo) : (s.raise f).faults.length ≤ s.faults.length + 3 := by
  simp

section records
variable {n : ChanId} {s : State}

/-- A read records itself as its body does, or the settle violation (R114). -/
theorem registerRead_records {body : State → State × Option Word} (r : Reg) (ho : OnlyChannel n s (body s).1)
    (hcount : (body s).1.faults.length ≤ s.faults.length + 3) :
    let t := registerRead n r body s
    RecordsTransaction s t (regOp false n r) none t.lastRead := by
  cases h : s.settleHit n with
  | false =>
    rw [registerRead_ok h]
    exact recordsTransaction_logTransaction ho hcount _ none _
  | true =>
    rw [registerRead_of_hit h, ← logTransaction_of_faults (raise_faults s _)]
    exact recordsTransaction_logTransaction (onlyChannel_raise n s _) (faults_raise_le s _) _ none none

/-- A write records itself as its body does, or the settle violation (R114). -/
theorem registerWrite_records {body : State → State} (r : Reg) (d : Word) (ho : OnlyChannel n s (body s))
    (hcount : (body s).faults.length ≤ s.faults.length + 3) :
    RecordsTransaction s (registerWrite n r d body s) (regOp true n r) (some d) none := by
  cases h : s.settleHit n with
  | false =>
    rw [registerWrite_ok h]
    exact recordsTransaction_logTransaction ho hcount _ _ _
  | true =>
    rw [registerWrite_of_hit h, ← logTransaction_of_faults (raise_faults s _)]
    exact recordsTransaction_logTransaction (onlyChannel_raise n s _) (faults_raise_le s _) _ _ _

end records

/-- Settles O20: a read and a store raise at most one fault, and a write of CNT at most three. -/
theorem transactionFaultsRecorded : Obligations.TransactionFaultsRecorded := by
  unfold Obligations.TransactionFaultsRecorded
  intro s i n op ha
  rcases registerAccess_cases ha with ⟨r, body, rfl, hop, hexec, hbody⟩ | ⟨r, d, body, rfl, hop, hexec, hbody⟩ <;>
    rw [hop]
  · obtain ⟨hframe, -, -, -, -, hcount⟩ := hbody s
    exact ⟨_, hexec s, registerRead_records r hframe (by omega)⟩
  · refine ⟨_, hexec s, ?_⟩
    rcases hbody with ⟨f, -, hstore⟩ | ⟨-, rfl⟩
    · have hcount := faults_noteBusy s n r
      refine registerWrite_records r d ?_ ?_ <;> rw [hstore]
      · exact (onlyChannel_noteBusy n s r).trans (onlyChannel_modChan n _ f)
      · exact hcount.trans (by omega)
    · exact registerWrite_records r d (onlyChannel_writeCnt n s d) (faults_writeCnt s n d)

end Sys2Proof.Machine

namespace Sys2Proof.Machine

/-! ### Sticky records and the end of a run (spec/60_exceptions.md R180, R182, R199) -/

theorem final_eq_true {s : State} : s.final = true ↔ s.halted = true ∧ (∀ n, (s.chan n).enabled = false) ∧
    s.unitCh = none ∧ s.faults = [] ∧ s.refused = false := by
  simp [State.final, mem_allChannels, and_assoc]

theorem faulted_eq_true {s : State} : s.faulted = true ↔ s.faults ≠ [] := by
  simp [State.faulted]

/-- The fault record and the event history grow, and the refused mark stays (R180, R40). -/
structure RecordsGrow (s t : State) : Prop where
  faults : s.faults <+: t.faults
  events : s.events <+: t.events
  refused : s.refused = true → t.refused = true

theorem RecordsGrow.trans {s t u : State} (h : RecordsGrow s t) (g : RecordsGrow t u) : RecordsGrow s u :=
  ⟨h.faults.trans g.faults, h.events.trans g.events, fun hs => g.refused (h.refused hs)⟩

theorem OnlyChannel.recordsGrow {n : ChanId} {s t : State} (h : OnlyChannel n s t) : RecordsGrow s t :=
  ⟨h.faults, h.events, h.refused.trans⟩

theorem Bookkeeping.recordsGrow {s t : State} (h : Bookkeeping s t) : RecordsGrow s t :=
  ⟨h.faults, h.events ▸ List.prefix_refl _, h.refused⟩

theorem recordsGrow_logTransaction (s : State) (op : BitVec 6) (x y : Option Word) (b : State) :
    RecordsGrow s (s.logTransaction op x y b) :=
  (onlyChannel_log 0 s _).recordsGrow

/-- A trigger adds the records of the channels it starts, and then its own (R117, R128). -/
theorem recordsGrow_triggerEvent (t : Trigger) (s : State) : RecordsGrow s (triggerEvent t s) :=
  have hdeliver : RecordsGrow s (deliverTrigger t s) :=
    deliverTrigger_induction s t (fun _ _ _ => .trans) fun s n => (onlyChannel_triggerChannel s t n).recordsGrow
  hdeliver.trans (recordsGrow_logTransaction _ _ _ _ _)

theorem recordsGrow_exec {i : Instr} {s t : State} (h : exec i s = .next t) : RecordsGrow s t := by
  rcases exec_cases h with ⟨n, op, ha⟩ | ⟨tr, w, rfl⟩ | rfl | ⟨n, rfl⟩ | ⟨n, rfl⟩ |
    ⟨-, -, -, -, -, -, hevents, hfaults, hrefused, -⟩
  · exact (onlyChannel_registerAccess ha h).recordsGrow
  · obtain ⟨hfaults, hevents, hrefused⟩ := recordsGrow_triggerEvent tr s
    exact ⟨hfaults, hevents, hrefused⟩
  · exact ⟨List.prefix_refl _, List.prefix_append _ _, id⟩
  · have ho := onlyChannel_registerAccess (i := .rdCnt n) (s := s) rfl rfl
    exact ⟨ho.faults, ho.events, ho.refused.trans⟩
  · exact (onlyChannel_registerAccess (i := .wrCnt n 0) (s := s) rfl rfl).recordsGrow
  · exact ⟨hfaults, hevents, hrefused.trans⟩

theorem recordsGrow_engineStep (s : State) : RecordsGrow s (engineStep s) := by
  obtain ⟨n, ho⟩ := onlyChannel_engineStep s
  exact ho.recordsGrow

theorem recordsGrow_step {s t : State} (h : step s = .next t) : RecordsGrow s t :=
  step_induction (P := RecordsGrow)
    (book := fun _ _ hb => hb.recordsGrow)
    (pre := fun _ _ _ hb hg => hb.recordsGrow.trans hg)
    (post := fun _ _ _ hg hb => hg.trans hb.recordsGrow)
    (hexec := fun _ _ _ he => recordsGrow_exec he)
    (engine := recordsGrow_engineStep) h

/-- A final state has no record of a fault or a refusal, so the state it grew from has none (R199). -/
theorem RecordsGrow.final_eq_false {s t : State} (h : RecordsGrow s t) (hs : s.faulted = true ∨ s.refused = true) :
    t.final = false := by
  by_contra hfinal
  obtain ⟨-, -, -, hfaults, hrefused⟩ := final_eq_true.1 (Bool.eq_true_of_not_eq_false hfinal)
  rcases hs with hs | hs
  · exact faulted_eq_true.1 hs (List.prefix_nil.1 (hfaults ▸ h.faults))
  · exact absurd (h.refused hs) (Bool.eq_false_iff.1 hrefused)

/-- Settles O38: instructions, turns of the engine and bookkeeping only add records. -/
theorem faultsAreSticky : Obligations.FaultsAreSticky := by
  unfold Obligations.FaultsAreSticky
  intro s t h
  have hg : RecordsGrow s t := recordsGrow_step h
  exact ⟨hg.faults, hg.events, hg.refused, hg.final_eq_false⟩

/-- A halted requester has no step (R99). -/
theorem requesterStep_of_halted {s : State} (h : s.halted = true) : requesterStep s = .next s := if_pos h

/-- Settles O52: the end of a run is the conjunction of its conditions. -/
theorem haltAndFinalState : Obligations.HaltAndFinalState := by
  unfold Obligations.HaltAndFinalState
  exact ⟨fun _ => rfl, fun _ => final_eq_true, fun _ => requesterStep_of_halted⟩

end Sys2Proof.Machine

namespace Sys2Proof.Machine

/-! ### Platform calls and waits (spec/60_exceptions.md R183, R187-R190) -/

/-- A blocked requester's turn is the check whether its wait ends (R183). -/
theorem requesterStep_of_waiting {s : State} {w : Wait} (hh : s.halted = false) (hw : s.waiting = some w) :
    requesterStep s = .next (wake w s) := by
  simp [requesterStep, hh, hw]

section awaitIrq
variable {s : State} {n : ChanId}

/-- A flag that is set is consumed at once (R188, log 24). -/
theorem awaitIrq_of_set (h : s.platIf.get n = true) : awaitIrq n s = { s with platIf := s.platIf.set n false } :=
  if_pos h

/-- The requester blocks on a flag that is clear (R188). -/
theorem awaitIrq_of_clear (h : s.platIf.get n = false) : awaitIrq n s = { s with waiting := some (.int n) } :=
  if_neg (Bool.eq_false_iff.1 h)

/-- A wait for a flag that is clear goes on (R183, R188). -/
theorem wake_int_of_clear (h : s.platIf.get n = false) : wake (.int n) s = s :=
  if_neg (Bool.eq_false_iff.1 h)

/-- A wait for a flag that is set ends and consumes it (R188). -/
theorem wake_int_of_set (h : s.platIf.get n = true) :
    wake (.int n) s = retire { s with waiting := none, platIf := s.platIf.set n false } :=
  if_pos h

end awaitIrq

theorem exec_waitInt_false (n : ChanId) (s : State) : exec (.waitInt n false) s = .next (awaitIrq n s) := rfl

theorem exec_waitInt_true (n : ChanId) (s : State) :
    exec (.waitInt n true) s = .next (awaitIrq n { s with platIf := s.platIf.set n false }) := rfl

/-- Writing the bit of channel n leaves the bits of the other channels as they were. -/
theorem get_set_frame (v : PerChannel Bool) (n : ChanId) (b : Bool) :
    (v.set n b).get n = b ∧ ∀ m, m ≠ n → (v.set n b).get m = v.get m :=
  ⟨by simp, fun m hm => by simp [hm]⟩

/-- Settles O54: by whether the flag is set when the call looks at it, and when a blocked requester does. -/
theorem waitIntConsumesFlag : Obligations.WaitIntConsumesFlag := by
  unfold Obligations.WaitIntConsumesFlag
  refine ⟨fun s n hset => ?consumes, fun s n next h => ?blocks,
    fun s n hh hw => ⟨fun hclear => ?stays, fun hset => ?ends⟩⟩
  case consumes => rw [exec_waitInt_false, awaitIrq_of_set hset]
  case blocks =>
    cases next with
    | false =>
      have hclear : s.platIf.get n = false := h.resolve_left Bool.false_ne_true
      exact ⟨_, (exec_waitInt_false n s).trans (congrArg _ (awaitIrq_of_clear hclear)), rfl, hclear, fun _ _ => rfl⟩
    | true =>
      obtain ⟨hclear, hothers⟩ := get_set_frame s.platIf n false
      exact ⟨_, (exec_waitInt_true n s).trans (congrArg _ (awaitIrq_of_clear hclear)), rfl, hclear, hothers⟩
  case stays => rw [requesterStep_of_waiting hh hw, wake_int_of_clear hclear]
  case ends =>
    obtain ⟨hclear, -⟩ := get_set_frame s.platIf n false
    refine ⟨_, requesterStep_of_waiting hh hw, ?_⟩
    rw [wake_int_of_set hset]
    obtain ⟨hchans, htodo, -, hmem, -, hwaiting, -⟩ :=
      retire_fields { s with waiting := none, platIf := s.platIf.set n false }
    exact ⟨hwaiting, (congrArg (·.get n) (sameOutside_retire _).platIf).trans hclear, hchans, hmem, htodo⟩

/-- The delivery and the record of a trigger end no wait (R128). -/
theorem waiting_triggerEvent (t : Trigger) (s : State) : (triggerEvent t s).waiting = s.waiting := by
  rw [triggerEvent, logTransaction_eq, log_waiting]
  exact deliverTrigger_induction s t (P := fun s t => t.waiting = s.waiting) (fun _ _ _ h g => g.trans h)
    fun s n => (onlyChannel_triggerChannel s t n).waiting

/-- Of the environment's turns, `TRIG 1` ends a wait for the vertical blank, and no other ends any wait (R189). -/
theorem waiting_environment (t : Trigger) (s : State) : ∃ u, agentStep (.environment t) s = .next u ∧
    u.waiting = if t = .vblank ∧ s.waiting = some .vblank then none else s.waiting := by
  refine ⟨_, congrArg (thenDo · retire) (exec_trigger_eq t s), ?_⟩
  rw [(sameOutside_retire _).waiting, waiting_triggerEvent]

/-- Settles O55: a blocked requester waits for the trigger, whose event ends the wait. -/
theorem vblankWaitEndsAtTrigger : Obligations.VblankWaitEndsAtTrigger := by
  unfold Obligations.VblankWaitEndsAtTrigger
  refine ⟨fun _ => rfl, fun s hh hw => ⟨requesterStep_of_waiting hh hw, ?vblank, fun t ht => ?other⟩⟩
  case vblank =>
    obtain ⟨u, hstep, hwaiting⟩ := waiting_environment .vblank s
    exact ⟨u, hstep, hwaiting.trans (if_pos ⟨rfl, hw⟩)⟩
  case other =>
    obtain ⟨u, hstep, hwaiting⟩ := waiting_environment t s
    exact ⟨u, hstep, (hwaiting.trans (if_neg fun h => ht h.1)).trans hw⟩

/-- Settles O53: each call writes the enable bit of its channel. -/
theorem irqEnableBits : Obligations.IrqEnableBits := by
  unfold Obligations.IrqEnableBits
  exact fun s n => ⟨⟨_, rfl, rfl, get_set_frame s.platIe n true⟩, _, rfl, rfl, get_set_frame s.platIe n false⟩

/-- Settles O56: each call is the recording of its entry. -/
theorem cacheCallsOnlyRecord : Obligations.CacheCallsOnlyRecord := by
  unfold Obligations.CacheCallsOnlyRecord
  exact fun _ _ _ => ⟨rfl, rfl⟩

end Sys2Proof.Machine

namespace Sys2Proof

/-- One value given to all four channels is the value of each. -/
theorem PerChannel.get_uniform {α : Type} (x : α) (n : ChanId) : (PerChannel.mk x x x x).get n = x := by
  fin_cases n <;> rfl

end Sys2Proof

namespace Sys2Proof.Machine

/-! ### The reset values (spec/70_reset_and_hazards.md R200, R201) -/

/-- A clear enable over cleared configuration bits reads as the control word 0. -/
theorem ChannelState.cnt_reset : ChannelState.reset.cnt = 0 := by decide

/-- Settles O60: each channel holds the reset record, whose control word is 0, and each bit per channel is clear. -/
theorem resetValues : Obligations.ResetValues := by
  unfold Obligations.ResetValues
  refine ⟨fun n => ?perChannel, rfl, rfl, rfl, rfl, rfl⟩
  case perChannel =>
    have hbit : (PerChannel.mk false false false false).get n = false := PerChannel.get_uniform false n
    rw [chan_reset]
    exact ⟨ChannelState.cnt_reset, rfl, rfl, rfl, rfl, rfl, rfl, rfl, rfl, rfl, hbit, hbit, hbit⟩

end Sys2Proof.Machine
